-- ==== Sys2Proof/Word.lean ====
section
/-! DEFINITION. The word types of the PAT engine (spec 00_scope.md R7: bit 0 is the least significant bit). -/

namespace Sys2Proof

/-- A 32-bit register or command word. -/
abbrev Word := BitVec 32

/-- One byte lane of the host bus (20_memory.md R82). -/
abbrev Byte := BitVec 8

end Sys2Proof
end

