-- ==== Sys2Proof/Config.lean ====
section
/-! DEFINITION. The implementation parameters of 00_scope.md R5, at the values the spec gives them, and the
constraints R6 puts on them. The one parameter R5 leaves OPEN, `BASE_ADDR`, is a constant without a body. -/

namespace Sys2Proof.Config

/-- `TABLE_SIZE`: entries of one wavetable. -/
@[simp] abbrev tableSize : Nat := 256
/-- `TABLE_BITS`. -/
@[simp] abbrev tableBits : Nat := 8
/-- `SAMPLE_W`: bits of a table entry and of the duty word. -/
@[simp] abbrev sampleW : Nat := 16
/-- `SAMPLE_RATE`: audio ticks per second. -/
@[simp] abbrev sampleRate : Nat := 20000
/-- `PHASE_FRAC_BITS`: fraction bits of the phase accumulator. -/
@[simp] abbrev phaseFracBits : Nat := 24
/-- `ACC_W`: width of the phase accumulator. -/
@[simp] abbrev accW : Nat := 32
/-- `FREQ_FRAC_BITS`: fraction bits of a frequency. -/
@[simp] abbrev freqFracBits : Nat := 8
/-- The unit of a frequency value is `1 / freqUnit` Hz: `2 ^ FREQ_FRAC_BITS`. -/
@[simp] abbrev freqUnit : Nat := 256
/-- `CLK_HZ`. -/
@[simp] abbrev clkHz : Nat := 20000000
/-- `TB_HZ`: timebase ticks per second. -/
@[simp] abbrev tbHz : Nat := 1000000
/-- Cycles from one timebase tick to the next: `CLK_HZ / TB_HZ` (R15). -/
@[simp] abbrev tbPeriod : Nat := 20
/-- Cycles from one audio tick to the next: `CLK_HZ / SAMPLE_RATE` (R15). -/
@[simp] abbrev audioPeriod : Nat := 1000
/-- `MASTER_VOLUME` is `1 / masterDiv`. -/
@[simp] abbrev masterDiv : Nat := 2
/-- `CUTOFF_FACTOR` is `cutoffNum / cutoffDen`. -/
@[simp] abbrev cutoffNum : Nat := 4
/-- See `cutoffNum`. -/
@[simp] abbrev cutoffDen : Nat := 5
/-- `ATTACK_DIV`. -/
@[simp] abbrev attackDiv : Nat := 4
/-- `ENV_DEPTH_DIV`. -/
@[simp] abbrev envDepthDiv : Nat := 65535
/-- `FM_DEPTH` is `1 / fmDepthDen`. -/
@[simp] abbrev fmDepthDen : Nat := 10
/-- `FM_DEPTH_DIV`. -/
@[simp] abbrev fmDepthDiv : Nat := 32767
/-- `LFO_HZ`. -/
@[simp] abbrev lfoHz : Nat := 20
/-- `PB_SEMITONES`. -/
@[simp] abbrev pbSemitones : Nat := 2
/-- `PB_DIV`. -/
@[simp] abbrev pbDiv : Nat := 32767
/-- The denominator of PitchBend's exponent, `12 * PB_DIV / PB_SEMITONES` (41_voice.md R173). -/
@[simp] abbrev pbExpDen : Nat := 196602
/-- `STEPS`. -/
@[simp] abbrev steps : Nat := 16
/-- `KEYS`. -/
@[simp] abbrev keys : Nat := 16
/-- `TEMPO_MIN`. -/
@[simp] abbrev tempoMin : Nat := 60
/-- `TEMPO_MAX`. -/
@[simp] abbrev tempoMax : Nat := 140
/-- `MOD_MIN`. -/
@[simp] abbrev modMin : Int := 1
/-- `MOD_MAX`. -/
@[simp] abbrev modMax : Int := 100
/-- `OCT_MIN`. -/
@[simp] abbrev octMin : Int := -3
/-- `OCT_MAX`. -/
@[simp] abbrev octMax : Int := 3
/-- `VOLUME_MAX`. -/
@[simp] abbrev volumeMax : Nat := 30
/-- `MIDI_PPQN`. -/
@[simp] abbrev midiPpqn : Nat := 24
/-- `PULSES_PER_STEP`: `MIDI_PPQN / 4`. -/
@[simp] abbrev pulsesPerStep : Nat := 6
/-- `PULSE_THRESH`: `60 * TB_HZ / MIDI_PPQN`. -/
@[simp] abbrev pulseThresh : Nat := 2500000
/-- `SYNC_WIDTH_TB`. -/
@[simp] abbrev syncWidthTb : Nat := 5000
/-- `BLINK_ON_TB`. -/
@[simp] abbrev blinkOnTb : Nat := 750000
/-- `BLINK_OFF_TB`. -/
@[simp] abbrev blinkOffTb : Nat := 250000
/-- `DUAL_RATE_TB`. -/
@[simp] abbrev dualRateTb : Nat := 250000
/-- `DUAL_DURING_RUN` = 0 (conflict C2). The operations it changes take it as an argument, so that the other value
can be spoken of too (log 9). -/
@[simp] abbrev dualDuringRun : Bool := false
/-- `MIDI_BAUD`: the rate of the external UART's line; no rule of the block reads it (42_sequencer.md R239). -/
@[simp] abbrev midiBaud : Nat := 31250
/-- `NUMERIC_TOLERANCE_LSB` = 0: every transcendental value is exact (R9), no draw is made. -/
@[simp] abbrev numericToleranceLsb : Nat := 0
/-- The MIDI Timing Clock byte (42_sequencer.md R202). -/
@[simp] abbrev midiClockByte : BitVec 8 := 0xF8
/-- The constant of the `ID` register (R2, 10_state.md R31). -/
@[simp] abbrev idWord : BitVec 32 := 0x50415407

/-- `KEY_SAMPLE_MAP`: key `k` assigns sample `k + 1` (42_sequencer.md R206). -/
def keySampleMap (k : BitVec 4) : BitVec 8 := k.setWidth 8 + 1

/-- `BASE_ADDR`, which the platform chooses (OPEN in R5, 20_memory.md R80): nothing constrains its value. That a bus
address is 32 bits wide is a DESIGN CHOICE: the spec states no width (log 10). -/
opaque baseAddr : BitVec 32

/-- The offset in the register window that a bus address selects, if it lies in the 256 bytes at `BASE_ADDR`
(20_memory.md R80); an address outside selects another block. DESIGN CHOICE: the address is 32 bits and the difference is
taken modulo `2^32`, so a window at the top of the address space wraps (log 10); no step uses this. -/
def windowOffset (a : BitVec 32) : Option (BitVec 8) :=
  let d := a - baseAddr
  if d.toNat < 256 then some (d.setWidth 8) else none

/-- The constraints of R6, which make the rules meaningful, and the derived values of R5. -/
def wellFormed : Bool :=
  decide (sampleRate > 0) && decide (clkHz % sampleRate = 0) && decide (clkHz % tbHz = 0)
    && decide (tbHz % 1000 = 0) && decide ((60 * tbHz) % midiPpqn = 0) && decide (pulseThresh > tempoMax)
    && decide (pulseThresh = 60 * tbHz / midiPpqn) && decide (pulsesPerStep = midiPpqn / 4)
    && decide (tbPeriod = clkHz / tbHz) && decide (audioPeriod = clkHz / sampleRate)
    && decide (accW = tableBits + phaseFracBits) && decide (tableSize = 2 ^ tableBits)
    && decide (freqUnit = 2 ^ freqFracBits) && decide (pbExpDen * pbSemitones = 12 * pbDiv)

end Sys2Proof.Config
end

