-- ==== Sys2Proof/Machine/Exact.lean ====
section
/-! DEFINITION. Exact values of `floor` of real expressions in `sin` and `2^x` (00_scope.md R9: "a model may evaluate
them with any method that yields the exact integer result (for example interval arithmetic to enough precision)").

Every quantity is an integer approximation of `2^p` times a real, with a stated error bound `err p`. The value is
enclosed, the floors of both ends compared, and the precision doubled until they agree. Sys2Proof/Laws/Exact*.lean
proves the enclosures, and that the rounds of `refine` always suffice (log 12). -/

namespace Sys2Proof.Machine.Exact

/-- `n!`. -/
def fact : Nat → Nat
  | 0 => 1
  | n + 1 => (n + 1) * fact n

/-- `(-1)^n`. -/
def sgn (n : Nat) : Int := if n % 2 = 0 then 1 else -1

/-- `n` terms of the series of `2^p * arctan (1 / m)`, each rounded down. -/
def atanSeries (p m : Nat) : Nat → Int
  | 0 => 0
  | n + 1 => atanSeries p m n + sgn n * (2 ^ p / ((2 * n + 1) * m ^ (2 * n + 1)) : Nat)

/-- `2^p * pi`, by Machin's formula. -/
def piApprox (p : Nat) : Int := 16 * atanSeries p 5 (p / 4 + 1) - 4 * atanSeries p 239 (p / 4 + 1)

/-- `n` terms of the series of `2^p * sin (x / 2^p)`, each rounded down. -/
def sinSeries (p x : Nat) : Nat → Int
  | 0 => 0
  | n + 1 => sinSeries p x n + sgn n * (x ^ (2 * n + 1) / (2 ^ (2 * p * n) * fact (2 * n + 1)) : Nat)

/-- `2^p * sin (pi / 2 * t / n)` for `0 <= t <= n`. -/
def sinApprox (p t n : Nat) : Int := sinSeries p (t * (piApprox p).toNat / (2 * n)) (p / 2)

/-- `n` terms of the series of `2^p * log 2`, each rounded down. -/
def logTwoSeries (p : Nat) : Nat → Nat
  | 0 => 0
  | n + 1 => logTwoSeries p n + 2 ^ p / ((n + 1) * 2 ^ (n + 1))

/-- `n` terms of the series of `2^p * exp (x / 2^p)`, each rounded down. -/
def expSeries (p x : Nat) : Nat → Nat
  | 0 => 0
  | n + 1 => expSeries p x n + x ^ n * 2 ^ p / (2 ^ (p * n) * fact n)

/-- `2^p * 2^(a / q)` for `0 <= a <= q`. -/
def powTwoApprox (p a q : Nat) : Int := expSeries p (a * logTwoSeries p p / q) p

/-- The error bound of `sinApprox` and `powTwoApprox`, in units of `2^-p`. -/
def err (p : Nat) : Nat := 4 * p + 32

/-- The precision of the first round. -/
def firstPrecision : Nat := 128

/-- The number of further rounds, each at twice the precision. -/
def rounds : Nat := 32

/-- Halve the enclosure until both ends have one floor: `enc p` gives the two floors at precision `p`. -/
def refine (enc : Nat → Int × Int) : Nat → Nat → Int
  | 0, p => (enc p).1
  | k + 1, p => if (enc p).1 = (enc p).2 then (enc p).1 else refine enc k (2 * p)

/-- The floors of the ends of an enclosure of `(a + b * y) / d`, where `v` is within `err p` of `2^p * y`. -/
def affineFloors (a b : Int) (d p : Nat) (v : Int) : Int × Int :=
  let e : Int := (b.natAbs * err p : Nat)
  ((a * 2 ^ p + b * v - e) / (d * 2 ^ p : Nat), (a * 2 ^ p + b * v + e) / (d * 2 ^ p : Nat))

/-- `floor ((a + b * sin (pi / 2 * t / n)) / d)` for `0 <= t <= n`; at both ends the sine is rational. -/
def floorSinQuarter (a b : Int) (d t n : Nat) : Int :=
  if t = 0 then a / d
  else if t = n then (a + b) / d
  else refine (fun p => affineFloors a b d p (sinApprox p t n)) rounds firstPrecision

/-- `floor ((a + b * sin (2 * pi * k / n)) / d)`, by the quarter of the period that `k` falls in. -/
def floorSin (a b : Int) (d k n : Nat) : Int :=
  let quarter := 4 * (k % n) / n
  let rest := 4 * (k % n) % n
  floorSinQuarter a (if quarter < 2 then b else -b) d (if quarter % 2 = 0 then rest else n - rest) n

/-- `floor (c * 2^(a / q) / d)` for `-q < a <= q`: a negative exponent is raised by 1 and the result halved. -/
def floorPowTwo (c d : Nat) (a : Int) (q : Nat) : Int :=
  if 0 ≤ a then refine (fun p => affineFloors 0 c d p (powTwoApprox p a.toNat q)) rounds firstPrecision
  else refine (fun p => affineFloors 0 c (2 * d) p (powTwoApprox p (a + q).toNat q)) rounds firstPrecision

end Sys2Proof.Machine.Exact
end

