-- ==== Sys2Proof/Syntax.lean ====
section
/-! DEFINITION. The abstract syntax of the 24 commands of 30_encoding.md R104 (one constructor per row of
spec/opcode_table.json), their opcodes and formats, and the closed enumerations of 10_state.md R61. -/

namespace Sys2Proof

/-- Waveforms (`P.wave`), in the code order of 10_state.md R61. -/
inductive Wave where
  | sine | square | triangle | sawtooth
  deriving DecidableEq, Repr

/-- Modulation targets (`P.target`), in the code order of 10_state.md R61; code 7 is no target. -/
inductive Target where
  | disabled | cutoff | attackEnvelope | envelopeWave | filterMod | filterSweep | pitchBend
  deriving DecidableEq, Repr

/-- Clock modes (`P.clock`), in the code order of 10_state.md R61; code 3 is no mode. -/
inductive ClockMode where
  | none | midiClock | syncPulse
  deriving DecidableEq, Repr

/-- The operand formats of 30_encoding.md R101. -/
inductive Format where
  | n | u24 | u8 | s8 | s16 | u4 | u3 | u2
  deriving DecidableEq, Repr

/-- The rows of the opcode map (30_encoding.md R104). -/
inductive Opc where
  | nop | noteOn | noteOff | setWave | setTarget | modUpdate | setOctave
  | seqOpen | seqExit | run | stop | toggleDual | assign | clearStep | clearPattern
  | cursorNext | cursorPrev | cursorSet | setTempo | setClock
  | keyPress | keyRelease | encoder | setVolume
  deriving DecidableEq, Repr

/-- A command with its operand. A numeric operand is the mathematical integer of 30_encoding.md R102; a key or a step
is four bits; a waveform is one of the four codes; target and clock codes are kept raw, since 7 and 3 fit the field
and are refused by the command's rule, not by the decoder (R105). -/
inductive Instr where
  | nop
  | noteOn (freq : Nat)
  | noteOff
  | setWave (wave : Wave)
  | setTarget (code : BitVec 3)
  | modUpdate (delta : Int)
  | setOctave (shift : Int)
  | seqOpen
  | seqExit
  | run
  | stop
  | toggleDual
  | assign (key : BitVec 4)
  | clearStep
  | clearPattern
  | cursorNext
  | cursorPrev
  | cursorSet (step : BitVec 4)
  | setTempo (bpm : Nat)
  | setClock (code : BitVec 2)
  | keyPress (key : BitVec 4)
  | keyRelease (key : BitVec 4)
  | encoder (steps : Int)
  | setVolume (level : Nat)
  deriving DecidableEq, Repr

/-- The opcode-map row of a command. -/
def Instr.opc : Instr → Opc
  | .nop => .nop
  | .noteOn _ => .noteOn
  | .noteOff => .noteOff
  | .setWave _ => .setWave
  | .setTarget _ => .setTarget
  | .modUpdate _ => .modUpdate
  | .setOctave _ => .setOctave
  | .seqOpen => .seqOpen
  | .seqExit => .seqExit
  | .run => .run
  | .stop => .stop
  | .toggleDual => .toggleDual
  | .assign _ => .assign
  | .clearStep => .clearStep
  | .clearPattern => .clearPattern
  | .cursorNext => .cursorNext
  | .cursorPrev => .cursorPrev
  | .cursorSet _ => .cursorSet
  | .setTempo _ => .setTempo
  | .setClock _ => .setClock
  | .keyPress _ => .keyPress
  | .keyRelease _ => .keyRelease
  | .encoder _ => .encoder
  | .setVolume _ => .setVolume

end Sys2Proof
end

