-- ==== Sys2Proof/WellFormed.lean ====
section
/-! DEFINITION. Which commands have an encoding: every numeric operand lies in its field's range
(30_encoding.md R101, R107: "out of field range refused"). -/

namespace Sys2Proof

/-- The operand fits its field. Commands with no numeric operand are well formed by their types. -/
def WellFormed : Instr → Bool
  | .noteOn freq => decide (freq < 2 ^ 24)
  | .modUpdate delta => decide (-32768 ≤ delta ∧ delta ≤ 32767)
  | .setOctave shift => decide (-128 ≤ shift ∧ shift ≤ 127)
  | .setTempo bpm => decide (bpm < 2 ^ 8)
  | .encoder steps => decide (-32768 ≤ steps ∧ steps ≤ 32767)
  | .setVolume level => decide (level < 2 ^ 8)
  | .nop | .noteOff | .setWave _ | .setTarget _ | .seqOpen | .seqExit | .run | .stop | .toggleDual | .assign _
  | .clearStep | .clearPattern | .cursorNext | .cursorPrev | .cursorSet _ | .setClock _ | .keyPress _
  | .keyRelease _ => true

end Sys2Proof
end

