-- ==== Sys2Proof/Decode.lean ====
section
/-! DEFINITION. The opcode map, the total decoder and the encoder of command words
(30_encoding.md R100-R106; byte order 20_memory.md R82). -/

namespace Sys2Proof

/-! ## Enumeration codes (10_state.md R61) -/

/-- Code of a waveform. -/
def Wave.code : Wave → BitVec 2
  | .sine => 0
  | .square => 1
  | .triangle => 2
  | .sawtooth => 3

/-- The waveform of a code; every code has one (40_wavetable.md R136). -/
def Wave.ofCode (c : BitVec 2) : Wave :=
  match c.toNat with
  | 0 => .sine
  | 1 => .square
  | 2 => .triangle
  | _ => .sawtooth

/-- Code of a modulation target. -/
def Target.code : Target → BitVec 3
  | .disabled => 0
  | .cutoff => 1
  | .attackEnvelope => 2
  | .envelopeWave => 3
  | .filterMod => 4
  | .filterSweep => 5
  | .pitchBend => 6

/-- The target of a code; 7 is illegal. -/
def Target.ofCode? (c : BitVec 3) : Option Target :=
  match c.toNat with
  | 0 => some .disabled
  | 1 => some .cutoff
  | 2 => some .attackEnvelope
  | 3 => some .envelopeWave
  | 4 => some .filterMod
  | 5 => some .filterSweep
  | 6 => some .pitchBend
  | _ => none

/-- Code of a clock mode. -/
def ClockMode.code : ClockMode → BitVec 2
  | .none => 0
  | .midiClock => 1
  | .syncPulse => 2

/-- The clock mode of a code; 3 is illegal. -/
def ClockMode.ofCode? (c : BitVec 2) : Option ClockMode :=
  match c.toNat with
  | 0 => some .none
  | 1 => some .midiClock
  | 2 => some .syncPulse
  | _ => Option.none

/-! ## The opcode map (30_encoding.md R101, R104) -/

/-- Bits of the operand field, from bit 0 upwards. -/
def Format.width : Format → Nat
  | .n => 0
  | .u24 => 24
  | .u8 | .s8 => 8
  | .s16 => 16
  | .u4 => 4
  | .u3 => 3
  | .u2 => 2

/-- The opcode byte of a row. -/
def Opc.code : Opc → BitVec 8
  | .nop => 0x00
  | .noteOn => 0x01
  | .noteOff => 0x02
  | .setWave => 0x03
  | .setTarget => 0x04
  | .modUpdate => 0x05
  | .setOctave => 0x06
  | .seqOpen => 0x10
  | .seqExit => 0x11
  | .run => 0x12
  | .stop => 0x13
  | .toggleDual => 0x14
  | .assign => 0x15
  | .clearStep => 0x16
  | .clearPattern => 0x17
  | .cursorNext => 0x18
  | .cursorPrev => 0x19
  | .cursorSet => 0x1A
  | .setTempo => 0x1B
  | .setClock => 0x1C
  | .keyPress => 0x20
  | .keyRelease => 0x21
  | .encoder => 0x22
  | .setVolume => 0x30

/-- The format of a row. -/
def Opc.format : Opc → Format
  | .noteOn => .u24
  | .setWave | .setClock => .u2
  | .setTarget => .u3
  | .modUpdate | .encoder => .s16
  | .setOctave => .s8
  | .assign | .cursorSet | .keyPress | .keyRelease => .u4
  | .setTempo | .setVolume => .u8
  | .nop | .noteOff | .seqOpen | .seqExit | .run | .stop | .toggleDual | .clearStep | .clearPattern | .cursorNext
  | .cursorPrev => .n

/-- The row with an opcode byte; every other byte is illegal (R105). -/
def Opc.ofCode? (c : BitVec 8) : Option Opc :=
  match c.toNat with
  | 0x00 => some .nop
  | 0x01 => some .noteOn
  | 0x02 => some .noteOff
  | 0x03 => some .setWave
  | 0x04 => some .setTarget
  | 0x05 => some .modUpdate
  | 0x06 => some .setOctave
  | 0x10 => some .seqOpen
  | 0x11 => some .seqExit
  | 0x12 => some .run
  | 0x13 => some .stop
  | 0x14 => some .toggleDual
  | 0x15 => some .assign
  | 0x16 => some .clearStep
  | 0x17 => some .clearPattern
  | 0x18 => some .cursorNext
  | 0x19 => some .cursorPrev
  | 0x1A => some .cursorSet
  | 0x1B => some .setTempo
  | 0x1C => some .setClock
  | 0x20 => some .keyPress
  | 0x21 => some .keyRelease
  | 0x22 => some .encoder
  | 0x30 => some .setVolume
  | _ => none

/-- Every row once, in the order of the table. -/
def Opc.all : List Opc :=
  [.nop, .noteOn, .noteOff, .setWave, .setTarget, .modUpdate, .setOctave, .seqOpen, .seqExit, .run, .stop, .toggleDual]
    ++ [.assign, .clearStep, .clearPattern, .cursorNext, .cursorPrev, .cursorSet, .setTempo, .setClock, .keyPress,
      .keyRelease, .encoder, .setVolume]

/-- A row's `match` word (R104): the opcode with an operand area of zeros. -/
def Opc.matchWord (o : Opc) : Word := o.code.setWidth 32 <<< 24

/-- A row's `mask` word (R104): the opcode byte and the reserved operand bits. -/
def Opc.maskWord (o : Opc) : Word := BitVec.allOnes 32 <<< o.format.width

/-! ## Fields of a command word -/

/-- `w[31:24]`. -/
def opcodeOf (w : Word) : BitVec 8 := w.extractLsb' 24 8

/-- The operand-area bits above the operand field, which must be 0 (R101). -/
def reservedBits (f : Format) (w : Word) : Nat := (w.toNat % 2 ^ 24) / 2 ^ f.width

/-- The operand of a command word and the command it makes (R102). -/
def operandOf (o : Opc) (w : Word) : Instr :=
  match o with
  | .nop => .nop
  | .noteOn => .noteOn (w.extractLsb' 0 24).toNat
  | .noteOff => .noteOff
  | .setWave => .setWave (Wave.ofCode (w.extractLsb' 0 2))
  | .setTarget => .setTarget (w.extractLsb' 0 3)
  | .modUpdate => .modUpdate (w.extractLsb' 0 16).toInt
  | .setOctave => .setOctave (w.extractLsb' 0 8).toInt
  | .seqOpen => .seqOpen
  | .seqExit => .seqExit
  | .run => .run
  | .stop => .stop
  | .toggleDual => .toggleDual
  | .assign => .assign (w.extractLsb' 0 4)
  | .clearStep => .clearStep
  | .clearPattern => .clearPattern
  | .cursorNext => .cursorNext
  | .cursorPrev => .cursorPrev
  | .cursorSet => .cursorSet (w.extractLsb' 0 4)
  | .setTempo => .setTempo (w.extractLsb' 0 8).toNat
  | .setClock => .setClock (w.extractLsb' 0 2)
  | .keyPress => .keyPress (w.extractLsb' 0 4)
  | .keyRelease => .keyRelease (w.extractLsb' 0 4)
  | .encoder => .encoder (w.extractLsb' 0 16).toInt
  | .setVolume => .setVolume (w.extractLsb' 0 8).toNat

/-- Why a command word is no command. -/
inductive DecodeError where
  /-- The opcode byte has no row in the opcode map (R105). -/
  | unassignedOpcode (opc : BitVec 8)
  /-- A reserved operand bit is 1 (R101). -/
  | reservedOperandBits (opc : Opc)
  /-- Fewer than four bytes: no command word is shorter (R100). -/
  | truncated (got : Nat)
  deriving DecidableEq, Repr

/-- The decoder: opcode row first, then the row's reserved bits (R103, R106). Total on every word. -/
def decode (w : Word) : Except DecodeError Instr :=
  match Opc.ofCode? (opcodeOf w) with
  | none => .error (.unassignedOpcode (opcodeOf w))
  | some o => if reservedBits o.format w = 0 then .ok (operandOf o w) else .error (.reservedOperandBits o)

/-- The word of four bytes, the first at the lowest address: little-endian (20_memory.md R82). -/
def wordOfBytes (b0 b1 b2 b3 : Byte) : Word := b3 ++ b2 ++ b1 ++ b0

/-- The bytes of a word, the first at the lowest address. -/
def bytesOfWord (w : Word) : List Byte :=
  [w.extractLsb' 0 8, w.extractLsb' 8 8, w.extractLsb' 16 8, w.extractLsb' 24 8]

/-- The decoder on bytes: one command and the bytes after it, or a refusal by name. Total on every byte list. -/
def decodeBytes : List Byte → Except DecodeError (Instr × List Byte)
  | b0 :: b1 :: b2 :: b3 :: rest =>
    match decode (wordOfBytes b0 b1 b2 b3) with
    | .ok i => .ok (i, rest)
    | .error e => .error e
  | short => .error (.truncated short.length)

/-! ## The encoder -/

/-- The operand area of a command (R101): the operand in its field, reserved bits 0. -/
def operandArea : Instr → BitVec 24
  | .noteOn freq => BitVec.ofNat 24 freq
  | .setWave wave => wave.code.setWidth 24
  | .setTarget code => code.setWidth 24
  | .modUpdate delta => (BitVec.ofInt 16 delta).setWidth 24
  | .setOctave shift => (BitVec.ofInt 8 shift).setWidth 24
  | .assign key => key.setWidth 24
  | .cursorSet step => step.setWidth 24
  | .setTempo bpm => (BitVec.ofNat 8 bpm).setWidth 24
  | .setClock code => code.setWidth 24
  | .keyPress key => key.setWidth 24
  | .keyRelease key => key.setWidth 24
  | .encoder steps => (BitVec.ofInt 16 steps).setWidth 24
  | .setVolume level => (BitVec.ofNat 8 level).setWidth 24
  | .nop | .noteOff | .seqOpen | .seqExit | .run | .stop | .toggleDual | .clearStep | .clearPattern | .cursorNext
  | .cursorPrev => 0

/-- The command word: the opcode in bits 31:24 above the operand area (R100). -/
def encode (i : Instr) : Word := i.opc.code ++ operandArea i

/-! ## The host's entry -/

/-- The command the decoder reads from the table word `w` of `nbits` bits, laid out in bytes as the hardware carries
them. -/
def decodeTableWord (nbits w : Nat) : Option Instr :=
  match decodeBytes (bytesOfWord (BitVec.ofNat 32 (w % 2 ^ nbits))) with
  | .ok (i, _) => some i
  | .error _ => none

end Sys2Proof
end

