-- ==== Sys2Proof/Machine/State.lean ====
section
/-! DEFINITION. The state of the PAT engine: the elements of 10_state.md R30, grouped and named as there, and the
model's own fields that carry what the spec keeps outside the state (the cycle number, the event history, the host's
coming accesses, the value a read returned). Plain data throughout. Reset values: 10_state.md R62. -/

namespace Sys2Proof.Machine

/-- Why a step stops with a fault: never. "No traps. The block has no exceptions in the processor sense"
(60_exceptions.md R300), so there is no constructor (log 13). -/
inductive Fault where
  deriving DecidableEq, Repr

/-- Why a step is refused. -/
inductive Refusal where
  /-- Raised only by an arm of `exec` whose command has no meaning yet; no arm raises it. Safe: it stops. -/
  | notModelled (mnemonic : String)
  deriving DecidableEq, Repr

/-- One step of the pattern, `P.seq[i]` (10_state.md R39): `index` is meaningful only when `valid`. -/
structure Slot where
  valid : Bool
  index : BitVec 8
  deriving DecidableEq, Repr

/-- An empty step. -/
def Slot.empty : Slot := { valid := false, index := 0 }

/-- The Program registers `P` (10_state.md R30, R37-R40). -/
structure Program where
  folder : BitVec 8
  tempo : BitVec 8
  wave : Wave
  target : Target
  modval : BitVec 16
  /-- Three-bit two's complement, -3..3. -/
  octave : BitVec 3
  clock : ClockMode
  seq : Vector Slot 16
  keyfreq : Vector (BitVec 24) 16
  deriving DecidableEq, Repr

/-- The sequencer runtime `S` (10_state.md R30, R51-R58). -/
structure Runtime where
  view : Bool
  cur : BitVec 4
  running : Bool
  dual : Bool
  blinkOn : Bool
  blinkCnt : BitVec 32
  heldValid : Bool
  heldKey : BitVec 4
  clkAcc : BitVec 32
  pulse : BitVec 3
  syncLevel : Bool
  syncCnt : BitVec 32
  guard : BitVec 32
  deriving DecidableEq, Repr

/-- The voice state `V` (10_state.md R30, R41-R45). -/
structure Voice where
  freq : BitVec 32
  acc : BitVec 32
  inc : BitVec 32
  elapsed : BitVec 32
  active : Bool
  busy : Bool
  duty : BitVec 16
  deriving DecidableEq, Repr

/-- The kind of a request on the playback port (`PLAY_LAST.KIND`, 10_state.md R47). -/
inductive PlayKind where
  | play | volume
  deriving DecidableEq, Repr

/-- The most recent playback request, `I.play_last` (10_state.md R47). -/
structure PlayRequest where
  kind : PlayKind
  folder : BitVec 8
  arg : BitVec 8
  deriving DecidableEq, Repr

/-- The interface state `I` (10_state.md R30, R34-R36, R47-R50). -/
structure Interface where
  cmdReady : Bool
  /-- The six sticky bits `ERR[5:0]`. -/
  err : BitVec 6
  lastCode : BitVec 4
  lastOpc : BitVec 8
  /-- Bit 0 DIRTY, 1 STEP, 2 JOIN, 3 ERR. -/
  irqPend : BitVec 4
  irqEn : BitVec 4
  playLast : PlayRequest
  playCount : BitVec 32
  midiCount : BitVec 32
  syncCount : BitVec 32
  deriving DecidableEq, Repr

/-- The errors of 60_exceptions.md R302, codes 1 to 6 in this order. -/
inductive ErrCode where
  | badCmd | state | range | hazard | overrun | bus
  deriving DecidableEq, Repr

/-- The output events of 60_exceptions.md R320-R327 (00_scope.md R13). -/
inductive Event where
  | pwm (duty : BitVec 16)
  | play (folder index : BitVec 8)
  | volume (level : BitVec 8)
  | midi (byte : BitVec 8)
  | disp (grid : BitVec 16)
  | errlog (code : ErrCode) (opc : BitVec 8)
  deriving DecidableEq, Repr

/-- The bytes a host access covers (20_memory.md R83): byte enables within one word, or more than a word. Only
`bytes 0b1111` is served. -/
inductive AccessSize where
  | bytes (enable : BitVec 4)
  | wider
  deriving DecidableEq, Repr

/-- A full 32-bit access. -/
abbrev AccessSize.word : AccessSize := .bytes 0b1111

/-- One host access, at a byte offset of the register window (00_scope.md R11, 20_memory.md R80). -/
inductive Access where
  | read (offset : BitVec 8) (size : AccessSize)
  | write (offset : BitVec 8) (size : AccessSize) (data : Word)
  deriving DecidableEq, Repr

/-- What reaches the block from outside in one clock cycle (00_scope.md R14, 70_reset_and_hazards.md R350). -/
structure CycleInput where
  rst : Bool
  access : Option Access
  deriving DecidableEq, Repr

/-- A cycle in which the host does nothing. -/
def CycleInput.idle : CycleInput := { rst := false, access := none }

/-- The whole machine. `prog`, `rt`, `voice`, `ifc` are the spec's `P`, `S`, `V`, `I`; the rest is the model's own. -/
structure State where
  prog : Program
  rt : Runtime
  voice : Voice
  ifc : Interface
  /-- The cycle number of 00_scope.md R15: 0 in the first cycle after reset (log 2). -/
  cycle : Nat
  /-- Cycles performed since the run began, the stamp of events (log 3). -/
  now : Nat
  /-- The output events so far with their stamps, newest first (00_scope.md R13; log 3). -/
  history : List (Nat × Event)
  /-- The inputs of the coming cycles, soonest first; past its end the host is idle (log 1). -/
  pending : List CycleInput
  /-- The value the read of the cycle just performed returned, if it had one (00_scope.md R11; log 4). -/
  readData : Option Word
  deriving DecidableEq, Repr

/-- The reset Program (10_state.md R62). -/
def Program.reset : Program :=
  { folder := 1, tempo := 120, wave := .sine, target := .disabled, modval := 0, octave := 0, clock := .none,
    seq := Vector.replicate 16 Slot.empty, keyfreq := Vector.replicate 16 0 }

/-- The reset runtime (10_state.md R62). -/
def Runtime.reset : Runtime :=
  { view := false, cur := 0, running := false, dual := false, blinkOn := true, blinkCnt := 0, heldValid := false,
    heldKey := 0, clkAcc := 0, pulse := 0, syncLevel := false, syncCnt := 0, guard := 0 }

/-- The reset voice (10_state.md R62). -/
def Voice.reset : Voice :=
  { freq := 0, acc := 0, inc := 0, elapsed := 0, active := false, busy := false, duty := 0 }

/-- The reset interface (10_state.md R62). -/
def Interface.reset : Interface :=
  { cmdReady := true, err := 0, lastCode := 0, lastOpc := 0, irqPend := 0, irqEn := 0,
    playLast := { kind := .play, folder := 0, arg := 0 }, playCount := 0, midiCount := 0, syncCount := 0 }

/-- The machine right after reset (10_state.md R62, 70_reset_and_hazards.md R352): every element at its reset value,
cycle 0 next, nothing emitted, no access queued. -/
def State.reset : State :=
  { prog := Program.reset, rt := Runtime.reset, voice := Voice.reset, ifc := Interface.reset,
    cycle := 0, now := 0, history := [], pending := [], readData := none }

end Sys2Proof.Machine
end

