-- ==== Sys2Proof/Machine/Operands.lean ====
section
/-! DEFINITION. Operand arithmetic shared by the commands: clamping, the octave shift, the modulation sum, and the
pattern's and the key table's entries (00_scope.md R8; 41_voice.md R151, R157, R158; 10_state.md R39, R40). -/

namespace Sys2Proof.Machine

/-- `clamp(x, lo, hi) = min(hi, max(lo, x))` (00_scope.md R8). -/
def clamp (x lo hi : Int) : Int := min hi (max lo x)

/-- `OctaveApply(x, k)`: `x << k` for `k >= 0`, `floor(x / 2^-k)` for `k < 0` (41_voice.md R151). -/
def octaveApply (x : Nat) (k : Int) : Nat :=
  if 0 ≤ k then x * 2 ^ k.toNat else x / 2 ^ (-k).toNat

/-- The octave code of a shift clamped to [-3, 3] (41_voice.md R158). -/
def octaveOf (shift : Int) : BitVec 3 := BitVec.ofInt 3 (clamp shift Config.octMin Config.octMax)

/-- `clamp(P.modval + x, MOD_MIN, MOD_MAX)`: an integer sum, no wrap (41_voice.md R157). -/
def modSum (modval : BitVec 16) (x : Int) : BitVec 16 :=
  BitVec.ofInt 16 (clamp (modval.toNat + x) Config.modMin Config.modMax)

/-- A tempo in BPM is legal (42_sequencer.md R221). -/
def tempoLegal (bpm : Nat) : Bool := decide (Config.tempoMin ≤ bpm ∧ bpm ≤ Config.tempoMax)

/-- `P.seq[i]`. -/
def Program.slot (p : Program) (i : BitVec 4) : Slot := p.seq[i.toNat]'(i.isLt)

/-- `P.seq[i] <- x`. -/
def Program.setSlot (p : Program) (i : BitVec 4) (x : Slot) : Program := { p with seq := p.seq.set i.toNat x i.isLt }

/-- `P.keyfreq[k]`. -/
def Program.keyFreq (p : Program) (k : BitVec 4) : BitVec 24 := p.keyfreq[k.toNat]'(k.isLt)

/-- `P.keyfreq[k] <- x`. -/
def Program.setKeyFreq (p : Program) (k : BitVec 4) (x : BitVec 24) : Program :=
  { p with keyfreq := p.keyfreq.set k.toNat x k.isLt }

/-- The slot a 9-bit value {valid, index} makes: an empty slot has index 0 (10_state.md R39). -/
def slotOf (valid : Bool) (index : BitVec 8) : Slot := if valid then { valid := true, index := index } else Slot.empty

end Sys2Proof.Machine
end

