-- ==== Sys2Proof/Machine/Flags.lean ====
section
/-! DEFINITION. Flags and the views computed from the state: the error and interrupt bits, SYNC_OUT, the display grid,
the IRQ line and the words of the registers that gather several fields (10_state.md R33-R39, R46, R47, R54;
42_sequencer.md R238, R240; 60_exceptions.md R302, R305, R306). -/

namespace Sys2Proof.Machine

/-- The code of an error, 1 to 6 (60_exceptions.md R302). -/
def ErrCode.code : ErrCode → BitVec 4
  | .badCmd => 1
  | .state => 2
  | .range => 3
  | .hazard => 4
  | .overrun => 5
  | .bus => 6

/-- The sticky bit of an error: bit `code - 1` of `ERR[5:0]` (60_exceptions.md R301). -/
def ErrCode.sticky (c : ErrCode) : BitVec 6 := 1#6 <<< (c.code.toNat - 1)

/-- `IRQ_PEND.DIRTY`. -/
def irqDirty : BitVec 4 := 0b0001
/-- `IRQ_PEND.STEP`. -/
def irqStep : BitVec 4 := 0b0010
/-- `IRQ_PEND.JOIN`. -/
def irqJoin : BitVec 4 := 0b0100
/-- `IRQ_PEND.ERR`. -/
def irqErr : BitVec 4 := 0b1000

/-- A note sounds or drains: `V.active = 1 or V.busy = 1`. -/
def sounding (s : State) : Bool := s.voice.active || s.voice.busy

/-- The level of the sync line (42_sequencer.md R238). -/
def syncOut (s : State) : Bool :=
  s.rt.view && s.rt.running && decide (s.prog.clock = .syncPulse) && s.rt.syncLevel

/-- The level of the interrupt line (60_exceptions.md R306). -/
def irqLine (s : State) : Bool := decide (s.ifc.irqPend &&& s.ifc.irqEn ≠ 0)

/-- The cell of step `i` in the display grid (42_sequencer.md R240). -/
def cell (s : State) (i : BitVec 4) : Bool :=
  s.rt.view && ((s.prog.slot i).valid || (decide (i = s.rt.cur) && (s.rt.running || s.rt.dual || s.rt.blinkOn)))

/-- The cell of step `i` as one bit. -/
def cellBit (s : State) (i : BitVec 4) : BitVec 1 := BitVec.ofBool (cell s i)

/-- The display grid: bit `i` is the cell of step `i` (42_sequencer.md R240). -/
def grid (s : State) : BitVec 16 :=
  cellBit s 15 ++ cellBit s 14 ++ cellBit s 13 ++ cellBit s 12 ++ cellBit s 11 ++ cellBit s 10 ++ cellBit s 9
    ++ cellBit s 8 ++ cellBit s 7 ++ cellBit s 6 ++ cellBit s 5 ++ cellBit s 4 ++ cellBit s 3 ++ cellBit s 2
    ++ cellBit s 1 ++ cellBit s 0

/-- `STATUS` (10_state.md R33). -/
def statusWord (s : State) : Word :=
  0#15 ++ BitVec.ofBool (syncOut s) ++ s.rt.cur ++ s.rt.heldKey ++ BitVec.ofBool s.rt.blinkOn
    ++ BitVec.ofBool s.rt.heldValid ++ BitVec.ofBool s.ifc.cmdReady ++ BitVec.ofBool s.voice.busy
    ++ BitVec.ofBool s.voice.active ++ BitVec.ofBool s.rt.dual ++ BitVec.ofBool s.rt.running ++ BitVec.ofBool s.rt.view

/-- `ERR` (10_state.md R34). -/
def errWord (f : Interface) : Word := 0#8 ++ f.lastOpc ++ 0#4 ++ f.lastCode ++ 0#2 ++ f.err

/-- `PROG_CFG` (10_state.md R37). -/
def progCfgWord (p : Program) : Word :=
  0#5 ++ p.octave ++ 0#1 ++ p.target.code ++ p.clock.code ++ p.wave.code ++ p.tempo ++ p.folder

/-- `SEQ[i]` (10_state.md R39): INDEX reads 0 when VALID is 0. -/
def slotWord (x : Slot) : Word := 0#23 ++ BitVec.ofBool x.valid ++ (if x.valid then x.index else 0#8)

/-- `PLAY_LAST.KIND`. -/
def PlayKind.bit : PlayKind → BitVec 1
  | .play => 0
  | .volume => 1

/-- `PLAY_LAST` (10_state.md R47). -/
def playLastWord (r : PlayRequest) : Word := 0#15 ++ r.kind.bit ++ r.folder ++ r.arg

/-- `PULSE_IDX` (10_state.md R54). -/
def pulseIdxWord (r : Runtime) : Word := 0#28 ++ BitVec.ofBool r.syncLevel ++ r.pulse

end Sys2Proof.Machine
end

