-- ==== Sys2Proof/Machine/Ops.lean ====
section
/-! DEFINITION. The shared operations: events, the error record (the block's only "exception", 60_exceptions.md R301;
there is no return from it, R309), command acceptance (30_encoding.md R103), the voice's start and stop
(41_voice.md R152, R153) and the sequencer's procedures (42_sequencer.md R201-R207). -/

namespace Sys2Proof.Machine

/-! ## Events, interrupt bits and errors -/

/-- `emit e`: the event joins the history, stamped with the current cycle (00_scope.md R13). -/
def emit (e : Event) (s : State) : State := { s with history := (s.now, e) :: s.history }

/-- `I.irq_pend.<bit> <- 1`. -/
def pend (bit : BitVec 4) (s : State) : State := { s with ifc := { s.ifc with irqPend := s.ifc.irqPend ||| bit } }

/-- `RecordError(code, opc)` (60_exceptions.md R301): what every `raise` does to the state the operation began in
(00_scope.md R12). -/
def raise (c : ErrCode) (opc : BitVec 8) (s : State) : State :=
  emit (.errlog c opc)
    { s with ifc := { s.ifc with
        err := s.ifc.err ||| c.sticky, lastCode := c.code, lastOpc := opc, irqPend := s.ifc.irqPend ||| irqErr } }

/-- The opcode recorded for a rejected register access (60_exceptions.md R301). -/
def regOpc : BitVec 8 := 0xFF

/-! ## Command acceptance -/

/-- The commands accepted with the view closed (30_encoding.md R103). -/
def needsView : Opc → Bool
  | .nop | .seqOpen => false
  | _ => true

/-- The checks of 30_encoding.md R103 that a well-encoded command passes, in their order, around its own rule: `t` is
the state its rule leaves. -/
def accept (o : Opc) (s t : State) : Host.Outcome State Fault Refusal :=
  if s.ifc.cmdReady = false then .next (raise .overrun o.code s)
  else if needsView o = true ∧ s.rt.view = false then .next (raise .state o.code s)
  else .next t

/-! ## The playback port -/

/-- `Play(folder, n)` (42_sequencer.md R207). -/
def play (folder n : BitVec 8) (s : State) : State :=
  let t := emit (.play folder n) s
  { t with ifc := { t.ifc with
      playLast := { kind := .play, folder := folder, arg := n }, playCount := t.ifc.playCount + 1 } }

/-! ## The voice -/

/-- The start of a note at base frequency `x` (41_voice.md R153): only the voice changes. -/
def startNote (x : Nat) (s : State) : State :=
  { s with voice := { s.voice with
      freq := BitVec.ofNat 32 (octaveApply x s.prog.octave.toInt), acc := 0, inc := 0, elapsed := 0,
      active := true, busy := true } }

/-- `StopVoice()` (41_voice.md R152). -/
def stopVoice (s : State) : State :=
  let t := { s with rt := { s.rt with heldValid := false, heldKey := 0 } }
  if t.voice.active then
    { t with voice := { t.voice with active := false }, ifc := { t.ifc with cmdReady := false } }
  else if t.voice.busy then t
  else emit (.pwm 0) { t with voice := { t.voice with duty := 0 } }

/-! ## The sequencer's procedures -/

/-- `BlinkReset()` (42_sequencer.md R205). -/
def blinkReset (s : State) : State := { s with rt := { s.rt with blinkOn := true, blinkCnt := 0 } }

/-- `PulseEvent()` (42_sequencer.md R202). -/
def pulseEvent (s : State) : State :=
  match s.prog.clock with
  | .midiClock =>
    let t := emit (.midi Config.midiClockByte) s
    { t with ifc := { t.ifc with midiCount := t.ifc.midiCount + 1 } }
  | .none | .syncPulse => s

/-- The sync pulse a step event starts in SyncPulse mode (42_sequencer.md R201). -/
def syncStart (s : State) : State :=
  match s.prog.clock with
  | .syncPulse =>
    { s with
      rt := { s.rt with syncLevel := true, syncCnt := BitVec.ofNat 32 Config.syncWidthTb }
      ifc := { s.ifc with syncCount := s.ifc.syncCount + 1 } }
  | .none | .midiClock => s

/-- The sample trigger of the current step (42_sequencer.md R201): none for an empty step. -/
def triggerStep (s : State) : State :=
  let x := s.prog.slot s.rt.cur
  if x.valid then play s.prog.folder x.index s else s

/-- `FireStep()` (42_sequencer.md R201). -/
def fireStep (s : State) : State := pend irqStep (triggerStep (syncStart (pulseEvent s)))

/-- The clock accumulator and the pulse index restart (42_sequencer.md R203, R204, R212). -/
def clockRestart (s : State) : State := { s with rt := { s.rt with clkAcc := 0, pulse := 0 } }

/-- `S.cur <- i`. -/
def setCur (i : BitVec 4) (s : State) : State := { s with rt := { s.rt with cur := i } }

/-- `EarlyAdvance()` (42_sequencer.md R203). -/
def earlyAdvance (s : State) : State := fireStep (clockRestart (setCur (s.rt.cur + 1) s))

/-- `StopSeq()` (42_sequencer.md R204). -/
def stopSeq (s : State) : State :=
  if s.rt.running then
    let t := blinkReset { s with rt := { s.rt with running := false } }
    clockRestart { t with rt := { t.rt with syncLevel := false, syncCnt := 0, guard := 0 } }
  else s

/-- `P.seq[i] <- x`. -/
def writeSlot (i : BitVec 4) (x : Slot) (s : State) : State := { s with prog := s.prog.setSlot i x }

/-- `AssignStep(k)` (42_sequencer.md R206). -/
def assignStep (k : BitVec 4) (s : State) : State :=
  let n := Config.keySampleMap k
  play s.prog.folder n (pend irqDirty (writeSlot s.rt.cur { valid := true, index := n } s))

/-- `P.modval <- clamp(P.modval + x, MOD_MIN, MOD_MAX)` and DIRTY (41_voice.md R157, 43_input_events.md R263). -/
def updateModval (x : Int) (s : State) : State :=
  pend irqDirty { s with prog := { s.prog with modval := modSum s.prog.modval x } }

end Sys2Proof.Machine
end

