-- ==== Sys2Proof/Machine/Wavetable.lean ====
section
/-! DEFINITION. The wavetable ROM (40_wavetable.md R130-R140): four tables of 256 unsigned 16-bit entries, each listed
as the spec lists it, sixteen entries a row. -/

namespace Sys2Proof.Machine

/-- `T[0]` (R137). -/
def sineTable : List Nat :=
  [32768, 33572, 34375, 35178, 35979, 36779, 37575, 38369, 39160, 39947, 40729, 41507, 42279, 43046, 43807, 44560]
    ++ [45307, 46046, 46777, 47500, 48214, 48919, 49613, 50298, 50972, 51635, 52287, 52927, 53555, 54170, 54773, 55362]
    ++ [55938, 56499, 57047, 57579, 58097, 58600, 59087, 59558, 60013, 60451, 60873, 61278, 61666, 62036, 62389, 62724]
    ++ [63041, 63339, 63620, 63881, 64124, 64348, 64553, 64739, 64905, 65053, 65180, 65289, 65377, 65446, 65496, 65525]
    ++ [65535, 65525, 65496, 65446, 65377, 65289, 65180, 65053, 64905, 64739, 64553, 64348, 64124, 63881, 63620, 63339]
    ++ [63041, 62724, 62389, 62036, 61666, 61278, 60873, 60451, 60013, 59558, 59087, 58600, 58097, 57579, 57047, 56499]
    ++ [55938, 55362, 54773, 54170, 53555, 52927, 52287, 51635, 50972, 50298, 49613, 48919, 48214, 47500, 46777, 46046]
    ++ [45307, 44560, 43807, 43046, 42279, 41507, 40729, 39947, 39160, 38369, 37575, 36779, 35979, 35178, 34375, 33572]
    ++ [32768, 31963, 31160, 30357, 29556, 28756, 27960, 27166, 26375, 25588, 24806, 24028, 23256, 22489, 21728, 20975]
    ++ [20228, 19489, 18758, 18035, 17321, 16616, 15922, 15237, 14563, 13900, 13248, 12608, 11980, 11365, 10762, 10173]
    ++ [9597, 9036, 8488, 7956, 7438, 6935, 6448, 5977, 5522, 5084, 4662, 4257, 3869, 3499, 3146, 2811]
    ++ [2494, 2196, 1915, 1654, 1411, 1187, 982, 796, 630, 482, 355, 246, 158, 89, 39, 10]
    ++ [0, 10, 39, 89, 158, 246, 355, 482, 630, 796, 982, 1187, 1411, 1654, 1915, 2196]
    ++ [2494, 2811, 3146, 3499, 3869, 4257, 4662, 5084, 5522, 5977, 6448, 6935, 7438, 7956, 8488, 9036]
    ++ [9597, 10173, 10762, 11365, 11980, 12608, 13248, 13900, 14563, 15237, 15922, 16616, 17321, 18035, 18758, 19489]
    ++ [20228, 20975, 21728, 22489, 23256, 24028, 24806, 25588, 26375, 27166, 27960, 28756, 29556, 30357, 31160, 31963]

/-- `T[1]` (R138). -/
def squareTable : List Nat :=
  [65535, 65535, 65535, 65535, 65535, 65535, 65535, 65535, 65535, 65535, 65535, 65535, 65535, 65535, 65535, 65535]
    ++ [65535, 65535, 65535, 65535, 65535, 65535, 65535, 65535, 65535, 65535, 65535, 65535, 65535, 65535, 65535, 65535]
    ++ [65535, 65535, 65535, 65535, 65535, 65535, 65535, 65535, 65535, 65535, 65535, 65535, 65535, 65535, 65535, 65535]
    ++ [65535, 65535, 65535, 65535, 65535, 65535, 65535, 65535, 65535, 65535, 65535, 65535, 65535, 65535, 65535, 65535]
    ++ [65535, 65535, 65535, 65535, 65535, 65535, 65535, 65535, 65535, 65535, 65535, 65535, 65535, 65535, 65535, 65535]
    ++ [65535, 65535, 65535, 65535, 65535, 65535, 65535, 65535, 65535, 65535, 65535, 65535, 65535, 65535, 65535, 65535]
    ++ [65535, 65535, 65535, 65535, 65535, 65535, 65535, 65535, 65535, 65535, 65535, 65535, 65535, 65535, 65535, 65535]
    ++ [65535, 65535, 65535, 65535, 65535, 65535, 65535, 65535, 65535, 65535, 65535, 65535, 65535, 65535, 65535, 65535]
    ++ [16384, 16129, 15876, 15625, 15376, 15129, 14884, 14641, 14400, 14161, 13924, 13689, 13456, 13225, 12996, 12769]
    ++ [12544, 12321, 12100, 11881, 11664, 11449, 11236, 11025, 10816, 10609, 10404, 10201, 10000, 9801, 9604, 9409]
    ++ [9216, 9025, 8836, 8649, 8464, 8281, 8100, 7921, 7744, 7569, 7396, 7225, 7056, 6889, 6724, 6561]
    ++ [6400, 6241, 6084, 5929, 5776, 5625, 5476, 5329, 5184, 5041, 4900, 4761, 4624, 4489, 4356, 4225]
    ++ [4096, 3969, 3844, 3721, 3600, 3481, 3364, 3249, 3136, 3025, 2916, 2809, 2704, 2601, 2500, 2401]
    ++ [2304, 2209, 2116, 2025, 1936, 1849, 1764, 1681, 1600, 1521, 1444, 1369, 1296, 1225, 1156, 1089]
    ++ [1024, 961, 900, 841, 784, 729, 676, 625, 576, 529, 484, 441, 400, 361, 324, 289]
    ++ [256, 225, 196, 169, 144, 121, 100, 81, 64, 49, 36, 25, 16, 9, 4, 1]

/-- `T[2]` (R139). -/
def triangleTable : List Nat :=
  [0, 512, 1024, 1536, 2048, 2560, 3072, 3584, 4096, 4608, 5120, 5632, 6144, 6656, 7168, 7680]
    ++ [8192, 8704, 9216, 9728, 10240, 10752, 11264, 11776, 12288, 12800, 13312, 13824, 14336, 14848, 15360, 15872]
    ++ [16384, 16896, 17408, 17920, 18432, 18944, 19456, 19968, 20480, 20992, 21504, 22016, 22528, 23040, 23552, 24064]
    ++ [24576, 25088, 25600, 26112, 26624, 27136, 27648, 28160, 28672, 29184, 29696, 30208, 30720, 31232, 31744, 32256]
    ++ [32768, 33279, 33791, 34303, 34815, 35327, 35839, 36351, 36863, 37375, 37887, 38399, 38911, 39423, 39935, 40447]
    ++ [40959, 41471, 41983, 42495, 43007, 43519, 44031, 44543, 45055, 45567, 46079, 46591, 47103, 47615, 48127, 48639]
    ++ [49151, 49663, 50175, 50687, 51199, 51711, 52223, 52735, 53247, 53759, 54271, 54783, 55295, 55807, 56319, 56831]
    ++ [57343, 57855, 58367, 58879, 59391, 59903, 60415, 60927, 61439, 61951, 62463, 62975, 63487, 63999, 64511, 65023]
    ++ [65535, 65023, 64511, 63999, 63487, 62975, 62463, 61951, 61439, 60927, 60415, 59903, 59391, 58879, 58367, 57855]
    ++ [57343, 56831, 56319, 55807, 55295, 54783, 54271, 53759, 53247, 52735, 52223, 51711, 51199, 50687, 50175, 49663]
    ++ [49151, 48639, 48127, 47615, 47103, 46591, 46079, 45567, 45055, 44543, 44031, 43519, 43007, 42495, 41983, 41471]
    ++ [40959, 40447, 39935, 39423, 38911, 38399, 37887, 37375, 36863, 36351, 35839, 35327, 34815, 34303, 33791, 33279]
    ++ [32768, 32256, 31744, 31232, 30720, 30208, 29696, 29184, 28672, 28160, 27648, 27136, 26624, 26112, 25600, 25088]
    ++ [24576, 24064, 23552, 23040, 22528, 22016, 21504, 20992, 20480, 19968, 19456, 18944, 18432, 17920, 17408, 16896]
    ++ [16384, 15872, 15360, 14848, 14336, 13824, 13312, 12800, 12288, 11776, 11264, 10752, 10240, 9728, 9216, 8704]
    ++ [8192, 7680, 7168, 6656, 6144, 5632, 5120, 4608, 4096, 3584, 3072, 2560, 2048, 1536, 1024, 512]

/-- `T[3]` (R140). -/
def sawtoothTable : List Nat :=
  [0, 254, 504, 750, 992, 1230, 1465, 1695, 1922, 2145, 2364, 2579, 2791, 2999, 3203, 3403]
    ++ [3600, 3793, 3983, 4169, 4351, 4530, 4706, 4877, 5046, 5211, 5373, 5531, 5686, 5837, 5985, 6130]
    ++ [6272, 6410, 6545, 6677, 6806, 6932, 7054, 7174, 7290, 7403, 7513, 7620, 7725, 7826, 7924, 8019]
    ++ [8112, 8201, 8288, 8372, 8453, 8531, 8607, 8680, 8750, 8817, 8882, 8944, 9004, 9061, 9115, 9167]
    ++ [9216, 9263, 9307, 9349, 9388, 9425, 9460, 9492, 9522, 9549, 9575, 9598, 9619, 9637, 9654, 9668]
    ++ [9680, 9690, 9698, 9703, 9707, 9709, 9708, 9706, 9702, 9696, 9688, 9677, 9666, 9652, 9636, 9619]
    ++ [9600, 9579, 9556, 9532, 9506, 9478, 9449, 9418, 9386, 9352, 9316, 9279, 9241, 9201, 9159, 9116]
    ++ [9072, 9026, 8979, 8931, 8881, 8830, 8778, 8725, 8670, 8614, 8557, 8499, 8440, 8379, 8318, 8255]
    ++ [8192, 8127, 8062, 7995, 7928, 7860, 7791, 7721, 7650, 7578, 7506, 7433, 7359, 7284, 7209, 7133]
    ++ [7056, 6979, 6901, 6822, 6743, 6664, 6583, 6503, 6422, 6340, 6259, 6176, 6094, 6011, 5927, 5844]
    ++ [5760, 5676, 5591, 5507, 5422, 5337, 5252, 5167, 5082, 4997, 4911, 4826, 4741, 4655, 4570, 4485]
    ++ [4400, 4315, 4230, 4146, 4061, 3977, 3893, 3809, 3726, 3643, 3560, 3478, 3396, 3314, 3233, 3152]
    ++ [3072, 2992, 2913, 2834, 2756, 2679, 2602, 2526, 2450, 2375, 2301, 2227, 2155, 2083, 2012, 1941]
    ++ [1872, 1803, 1736, 1669, 1603, 1538, 1475, 1412, 1350, 1289, 1230, 1171, 1114, 1058, 1002, 949]
    ++ [896, 845, 795, 746, 698, 652, 607, 564, 522, 481, 442, 405, 369, 334, 301, 270]
    ++ [240, 212, 185, 160, 137, 116, 96, 78, 62, 48, 35, 25, 16, 9, 4, 1]

/-- The table of a waveform. -/
def Wave.table : Wave → List Nat
  | .sine => sineTable
  | .square => squareTable
  | .triangle => triangleTable
  | .sawtooth => sawtoothTable

/-- `T[w][i]` (R130). -/
def rom (w : Wave) (i : BitVec 8) : Nat := (Wave.table w).getD i.toNat 0

end Sys2Proof.Machine
end

