-- ==== Sys2Proof/Machine/Audio.lean ====
section
/-! DEFINITION. The audio engine's tick (41_voice.md R160-R176). Each amplitude and increment is the one `floor` of an
exact real product that the rule states; `f`, `mv`, `e`, `idx`, `x` are the naturals `V.freq`, `P.modval`,
`V.elapsed`, the table index and the sample. -/

namespace Sys2Proof.Machine

/-- `floor(f * 2^24 * m / SAMPLE_RATE)` with `m = IncMult(tg, mv, e)` (R163, R164): FilterMod by R172, PitchBend by
R173, every other target with `m = 1`. -/
def phaseInc (tg : Target) (mv e f : Nat) : Int :=
  let c := f * 2 ^ Config.phaseFracBits
  match tg with
  | .filterMod =>
    Exact.floorSin (c * (Config.fmDepthDen * Config.fmDepthDiv) : Nat) (c * mv : Nat)
      (Config.sampleRate * (Config.fmDepthDen * Config.fmDepthDiv)) (Config.lfoHz * e) Config.sampleRate
  | .pitchBend => Exact.floorPowTwo c Config.sampleRate (2 * mv - Config.pbDiv : Int) Config.pbExpDen
  | .disabled | .cutoff | .attackEnvelope | .envelopeWave | .filterSweep => (c / Config.sampleRate : Nat)

/-- The cutoff index (R168). -/
def cutoffIndex (mv f : Nat) : Nat := f * mv / (Config.freqUnit * Config.sampleRate)

/-- `floor(x * a * MASTER_VOLUME)` with `a = Amp(tg, mv, e, f, idx)` (R167-R171, R174). -/
def sampleOut (tg : Target) (mv e f idx x : Nat) : Int :=
  match tg with
  | .disabled | .filterMod | .pitchBend => (x / Config.masterDiv : Nat)
  | .cutoff =>
    if idx > cutoffIndex mv f then (x * Config.cutoffNum / (Config.cutoffDen * Config.masterDiv) : Nat)
    else (x / Config.masterDiv : Nat)
  | .attackEnvelope =>
    let m := max Config.attackDiv mv
    (x * min m (e * Config.attackDiv) / (m * Config.masterDiv) : Nat)
  | .envelopeWave =>
    Exact.floorSin (x * mv : Nat) (-(x * mv : Nat)) (Config.envDepthDiv * Config.masterDiv) (e % Config.sampleRate)
      (2 * Config.sampleRate)
  | .filterSweep =>
    Exact.floorSin (x * (2 * Config.envDepthDiv - mv) : Nat) (x * mv : Nat)
      (2 * Config.envDepthDiv * Config.masterDiv) (f * e) (Config.freqUnit * Config.sampleRate)

/-- The duty word: the clamp to [0, 65535] of R174. -/
def dutyOf (v : Int) : BitVec 16 := BitVec.ofInt 16 (clamp v 0 65535)

/-- `GenerateTick()` (R162): every input is read at the start of the tick (R176). -/
def generateTick (s : State) : State :=
  let e := s.voice.elapsed.toNat
  let mv := s.prog.modval.toNat
  let tg := s.prog.target
  let f := s.voice.freq.toNat
  let inc := BitVec.ofInt 32 (phaseInc tg mv e f)
  let acc := s.voice.acc + inc
  let idx := acc.extractLsb' 24 8
  let duty := dutyOf (sampleOut tg mv e f idx.toNat (rom s.prog.wave idx))
  emit (.pwm duty)
    { s with voice := { s.voice with inc := inc, acc := acc, duty := duty, elapsed := s.voice.elapsed + 1 } }

/-- `DrainTick()` (R161). -/
def drainTick (s : State) : State :=
  let t := emit (.pwm 0) { s with voice := { s.voice with duty := 0, busy := false } }
  pend irqJoin { t with ifc := { t.ifc with cmdReady := true } }

/-- The audio tick (R160). -/
def audioTick (s : State) : State :=
  if s.voice.busy = true ∧ s.voice.active = false then drainTick s
  else if s.voice.active then generateTick s
  else s

end Sys2Proof.Machine
end

