-- ==== Sys2Proof/Machine/HostMisc.lean ====
section
/-! DEFINITION. The commands of neither unit (44_host_misc.md R280, R281). -/

namespace Sys2Proof.Machine

/-- `NOP` (R280). -/
def execNop (s : State) : Host.Outcome State Fault Refusal :=
  accept .nop s s

/-- The volume request (R281): no volume is stored, and `PLAY_COUNT` does not count it. -/
def volumeRequest (level : BitVec 8) (s : State) : State :=
  let t := emit (.volume level) s
  { t with ifc := { t.ifc with playLast := { kind := .volume, folder := 0, arg := level } } }

/-- `SET_VOLUME x` (R281). -/
def execSetVolume (level : Nat) (s : State) : Host.Outcome State Fault Refusal :=
  accept .setVolume s
    (if level > Config.volumeMax then raise .range Opc.setVolume.code s else volumeRequest (BitVec.ofNat 8 level) s)

end Sys2Proof.Machine
end

