-- ==== Sys2Proof/Machine/InputEvents.lean ====
section
/-! DEFINITION. The routed input events (43_input_events.md R260-R263). -/

namespace Sys2Proof.Machine

/-- The live branch of `KEY_PRESS k` (R261): ignored while a key is held or a note sounds or drains. -/
def liveKey (k : BitVec 4) (s : State) : State :=
  if s.rt.heldValid then s
  else if sounding s then s
  else
    let t := startNote (s.prog.keyFreq k).toNat s
    { t with rt := { t.rt with heldValid := true, heldKey := k } }

/-- `KEY_PRESS k` (R261): a live note in DualMode, else pattern editing. -/
def execKeyPress (key : BitVec 4) (s : State) : Host.Outcome State Fault Refusal :=
  accept .keyPress s (if s.rt.dual then liveKey key s else assignStep key s)

/-- `KEY_RELEASE k` (R262): only the held key's release stops the voice. -/
def execKeyRelease (key : BitVec 4) (s : State) : Host.Outcome State Fault Refusal :=
  accept .keyRelease s (if s.rt.heldValid = true ∧ s.rt.heldKey = key then stopVoice s else s)

/-- `ENCODER x` (R263): ignored outside DualMode. -/
def execEncoder (steps : Int) (s : State) : Host.Outcome State Fault Refusal :=
  accept .encoder s (if s.rt.dual then updateModval steps s else s)

end Sys2Proof.Machine
end

