-- ==== Sys2Proof/Machine/Sequencer.lean ====
section
/-! DEFINITION. The sequencer unit's commands (42_sequencer.md R210-R222). -/

namespace Sys2Proof.Machine

/-- `SEQ_OPEN` (R210): every element of `S` and `V` but the view takes its reset value (10_state.md R63). -/
def execSeqOpen (s : State) : Host.Outcome State Fault Refusal :=
  accept .seqOpen s
    (if s.rt.view then raise .state Opc.seqOpen.code s
     else { s with rt := { Runtime.reset with view := true }, voice := Voice.reset })

/-- `SEQ_EXIT` (R211). -/
def execSeqExit (s : State) : Host.Outcome State Fault Refusal :=
  accept .seqExit s
    (let t := stopSeq s
     let u := stopVoice { t with rt := { t.rt with dual := false } }
     { u with rt := { u.rt with view := false } })

/-- The rule of `RUN` (R212) under a value of `DUAL_DURING_RUN`. -/
def runSeq (during : Bool) (s : State) : State :=
  if s.rt.running then raise .state Opc.run.code s
  else if s.rt.dual = true ∧ during = false then raise .state Opc.run.code s
  else fireStep (clockRestart (setCur 0 { s with rt := { s.rt with running := true } }))

/-- `RUN` (R212). -/
def execRun (s : State) : Host.Outcome State Fault Refusal :=
  accept .run s (runSeq Config.dualDuringRun s)

/-- `STOP` (R213). -/
def execStop (s : State) : Host.Outcome State Fault Refusal :=
  accept .stop s (stopSeq s)

/-- The flip of the dual flag (R214): leaving stops the voice and, when not Running, restarts the blink. -/
def flipDual (s : State) : State :=
  if s.rt.dual then
    let t := stopVoice { s with rt := { s.rt with dual := false } }
    if t.rt.running then t else blinkReset t
  else { s with rt := { s.rt with dual := true } }

/-- The rule of `TOGGLE_DUAL` (R214) under a value of `DUAL_DURING_RUN`. -/
def toggleDual (during : Bool) (s : State) : State :=
  if s.rt.running then
    if during then
      if s.rt.guard.toNat > 0 then s
      else flipDual { s with rt := { s.rt with guard := BitVec.ofNat 32 Config.dualRateTb } }
    else raise .state Opc.toggleDual.code s
  else flipDual s

/-- `TOGGLE_DUAL` (R214). -/
def execToggleDual (s : State) : Host.Outcome State Fault Refusal :=
  accept .toggleDual s (toggleDual Config.dualDuringRun s)

/-- `ASSIGN k` (R215). -/
def execAssign (key : BitVec 4) (s : State) : Host.Outcome State Fault Refusal :=
  accept .assign s (if s.rt.dual then raise .state Opc.assign.code s else assignStep key s)

/-- `CLEAR_STEP` (R216): while Running the next step starts at once. -/
def execClearStep (s : State) : Host.Outcome State Fault Refusal :=
  accept .clearStep s
    (let t := pend irqDirty (writeSlot s.rt.cur Slot.empty s)
     if s.rt.running then earlyAdvance t else t)

/-- Every step of the pattern becomes empty (R217). -/
def clearSlots (s : State) : State := { s with prog := { s.prog with seq := Vector.replicate 16 Slot.empty } }

/-- `CLEAR_PATTERN` (R217). -/
def execClearPattern (s : State) : Host.Outcome State Fault Refusal :=
  accept .clearPattern s
    (let t := pend irqDirty (clearSlots s)
     if s.rt.running then earlyAdvance t else t)

/-- A cursor move: refused with STATE while Running (R218-R220). -/
def moveCursor (o : Opc) (dest : BitVec 4) (s : State) : State :=
  if s.rt.running then raise .state o.code s else setCur dest s

/-- `CURSOR_NEXT` (R218). -/
def execCursorNext (s : State) : Host.Outcome State Fault Refusal :=
  accept .cursorNext s (moveCursor .cursorNext (s.rt.cur + 1) s)

/-- `CURSOR_PREV` (R219). -/
def execCursorPrev (s : State) : Host.Outcome State Fault Refusal :=
  accept .cursorPrev s (moveCursor .cursorPrev (s.rt.cur - 1) s)

/-- `CURSOR_SET s` (R220). -/
def execCursorSet (step : BitVec 4) (s : State) : Host.Outcome State Fault Refusal :=
  accept .cursorSet s (moveCursor .cursorSet step s)

/-- `SET_TEMPO x` (R221). -/
def execSetTempo (bpm : Nat) (s : State) : Host.Outcome State Fault Refusal :=
  accept .setTempo s
    (if tempoLegal bpm then pend irqDirty { s with prog := { s.prog with tempo := BitVec.ofNat 8 bpm } }
     else raise .range Opc.setTempo.code s)

/-- `SET_CLOCK x` (R222). -/
def execSetClock (code : BitVec 2) (s : State) : Host.Outcome State Fault Refusal :=
  accept .setClock s
    (match ClockMode.ofCode? code with
     | none => raise .range Opc.setClock.code s
     | some c => pend irqDirty { s with prog := { s.prog with clock := c } })

end Sys2Proof.Machine
end

