-- ==== Sys2Proof/Machine/Voice.lean ====
section
/-! DEFINITION. The voice unit's commands (41_voice.md R153-R158). -/

namespace Sys2Proof.Machine

/-- `NOTE_ON x` (R153): ignored while a note sounds or drains. -/
def execNoteOn (freq : Nat) (s : State) : Host.Outcome State Fault Refusal :=
  accept .noteOn s (if sounding s then s else startNote freq s)

/-- `NOTE_OFF` (R154). -/
def execNoteOff (s : State) : Host.Outcome State Fault Refusal :=
  accept .noteOff s (stopVoice s)

/-- `SET_WAVE x` (R155): refused with HAZARD while a note sounds or drains. -/
def execSetWave (wave : Wave) (s : State) : Host.Outcome State Fault Refusal :=
  accept .setWave s
    (if sounding s then raise .hazard Opc.setWave.code s
     else pend irqDirty { s with prog := { s.prog with wave := wave } })

/-- `SET_TARGET x` (R156): Disabled also clears the modulation value. -/
def execSetTarget (code : BitVec 3) (s : State) : Host.Outcome State Fault Refusal :=
  accept .setTarget s
    (match Target.ofCode? code with
     | none => raise .range Opc.setTarget.code s
     | some .disabled => pend irqDirty { s with prog := { s.prog with target := .disabled, modval := 0 } }
     | some t => pend irqDirty { s with prog := { s.prog with target := t } })

/-- `MOD_UPDATE x` (R157). -/
def execModUpdate (delta : Int) (s : State) : Host.Outcome State Fault Refusal :=
  accept .modUpdate s (updateModval delta s)

/-- `SET_OCTAVE x` (R158). -/
def execSetOctave (shift : Int) (s : State) : Host.Outcome State Fault Refusal :=
  accept .setOctave s (pend irqDirty { s with prog := { s.prog with octave := octaveOf shift } })

end Sys2Proof.Machine
end

