-- ==== Sys2Proof/Machine/Dispatch.lean ====
section
/-! DEFINITION. One arm per command: what the host's write of that command's word to `CMD` does to the block
(30_encoding.md R103, R104), the acceptance checks included. -/

namespace Sys2Proof.Machine

def exec (i : Instr) (s : State) : Host.Outcome State Fault Refusal :=
  match i with
  | .nop => Sys2Proof.Machine.execNop s
  | .noteOn freq => Sys2Proof.Machine.execNoteOn freq s
  | .noteOff => Sys2Proof.Machine.execNoteOff s
  | .setWave wave => Sys2Proof.Machine.execSetWave wave s
  | .setTarget code => Sys2Proof.Machine.execSetTarget code s
  | .modUpdate delta => Sys2Proof.Machine.execModUpdate delta s
  | .setOctave shift => Sys2Proof.Machine.execSetOctave shift s
  | .seqOpen => Sys2Proof.Machine.execSeqOpen s
  | .seqExit => Sys2Proof.Machine.execSeqExit s
  | .run => Sys2Proof.Machine.execRun s
  | .stop => Sys2Proof.Machine.execStop s
  | .toggleDual => Sys2Proof.Machine.execToggleDual s
  | .assign key => Sys2Proof.Machine.execAssign key s
  | .clearStep => Sys2Proof.Machine.execClearStep s
  | .clearPattern => Sys2Proof.Machine.execClearPattern s
  | .cursorNext => Sys2Proof.Machine.execCursorNext s
  | .cursorPrev => Sys2Proof.Machine.execCursorPrev s
  | .cursorSet step => Sys2Proof.Machine.execCursorSet step s
  | .setTempo bpm => Sys2Proof.Machine.execSetTempo bpm s
  | .setClock code => Sys2Proof.Machine.execSetClock code s
  | .keyPress key => Sys2Proof.Machine.execKeyPress key s
  | .keyRelease key => Sys2Proof.Machine.execKeyRelease key s
  | .encoder steps => Sys2Proof.Machine.execEncoder steps s
  | .setVolume level => Sys2Proof.Machine.execSetVolume level s

end Sys2Proof.Machine
end

