-- ==== Sys2Proof/Machine/Registers.lean ====
section
/-! DEFINITION. The register window: its map, register reads and register writes other than `CMD`
(20_memory.md R80-R89, 10_state.md R31-R55, 44_host_misc.md R282-R293). -/

namespace Sys2Proof.Machine

/-- The 55 registers of 20_memory.md R81. -/
inductive Reg where
  | id | cmd | status | err | irqPend | irqEn | progCfg | progModval
  | seq (i : BitVec 4)
  | keyFreq (k : BitVec 4)
  | vFreq | vAcc | vInc | vElapsed | pwmDuty | display | playLast | playCount | midiCount | syncCount
  | seqTimer | blinkCnt | syncCnt | pulseIdx | dualGuard
  deriving DecidableEq, Repr

/-- The byte offset of a register (20_memory.md R81). -/
def Reg.offset : Reg → Nat
  | .id => 0x00
  | .cmd => 0x04
  | .status => 0x08
  | .err => 0x0C
  | .irqPend => 0x10
  | .irqEn => 0x14
  | .progCfg => 0x18
  | .progModval => 0x1C
  | .seq i => 0x20 + 4 * i.toNat
  | .keyFreq k => 0x60 + 4 * k.toNat
  | .vFreq => 0xA0
  | .vAcc => 0xA4
  | .vInc => 0xA8
  | .vElapsed => 0xAC
  | .pwmDuty => 0xB0
  | .display => 0xB4
  | .playLast => 0xB8
  | .playCount => 0xBC
  | .midiCount => 0xC0
  | .syncCount => 0xC4
  | .seqTimer => 0xC8
  | .blinkCnt => 0xCC
  | .syncCnt => 0xD0
  | .pulseIdx => 0xD4
  | .dualGuard => 0xD8

/-- The register at a byte offset: none where the offset is misaligned (R84) or unmapped (R85). -/
def Reg.ofOffset? (a : BitVec 8) : Option Reg :=
  let n := a.toNat
  if n % 4 ≠ 0 then none
  else if 0x20 ≤ n ∧ n < 0x60 then some (.seq (BitVec.ofNat 4 ((n - 0x20) / 4)))
  else if 0x60 ≤ n ∧ n < 0xA0 then some (.keyFreq (BitVec.ofNat 4 ((n - 0x60) / 4)))
  else match n with
    | 0x00 => some .id
    | 0x04 => some .cmd
    | 0x08 => some .status
    | 0x0C => some .err
    | 0x10 => some .irqPend
    | 0x14 => some .irqEn
    | 0x18 => some .progCfg
    | 0x1C => some .progModval
    | 0xA0 => some .vFreq
    | 0xA4 => some .vAcc
    | 0xA8 => some .vInc
    | 0xAC => some .vElapsed
    | 0xB0 => some .pwmDuty
    | 0xB4 => some .display
    | 0xB8 => some .playLast
    | 0xBC => some .playCount
    | 0xC0 => some .midiCount
    | 0xC4 => some .syncCount
    | 0xC8 => some .seqTimer
    | 0xCC => some .blinkCnt
    | 0xD0 => some .syncCnt
    | 0xD4 => some .pulseIdx
    | 0xD8 => some .dualGuard
    | _ => none

/-- The access serves all four bytes of a word (20_memory.md R83). -/
def AccessSize.legal (z : AccessSize) : Bool := decide (z = AccessSize.word)

/-- The register an access reaches: none raises BUS (20_memory.md R83-R85). -/
def accessed? (a : BitVec 8) (z : AccessSize) : Option Reg := if z.legal then Reg.ofOffset? a else none

/-- A register's value (10_state.md R31-R55). Reserved bits are 0 (20_memory.md R89); `CMD` reads 0 (R86). -/
def readReg (r : Reg) (s : State) : Word :=
  match r with
  | .id => Config.idWord
  | .cmd => 0
  | .status => statusWord s
  | .err => errWord s.ifc
  | .irqPend => s.ifc.irqPend.setWidth 32
  | .irqEn => s.ifc.irqEn.setWidth 32
  | .progCfg => progCfgWord s.prog
  | .progModval => s.prog.modval.setWidth 32
  | .seq i => slotWord (s.prog.slot i)
  | .keyFreq k => (s.prog.keyFreq k).setWidth 32
  | .vFreq => s.voice.freq
  | .vAcc => s.voice.acc
  | .vInc => s.voice.inc
  | .vElapsed => s.voice.elapsed
  | .pwmDuty => s.voice.duty.setWidth 32
  | .display => (grid s).setWidth 32
  | .playLast => playLastWord s.ifc.playLast
  | .playCount => s.ifc.playCount
  | .midiCount => s.ifc.midiCount
  | .syncCount => s.ifc.syncCount
  | .seqTimer => s.rt.clkAcc
  | .blinkCnt => s.rt.blinkCnt
  | .syncCnt => s.rt.syncCnt
  | .pulseIdx => pulseIdxWord s.rt
  | .dualGuard => s.rt.guard

/-- The byte of the window at an offset, little-endian within its register (20_memory.md R82); none where no register
is. -/
def windowByte (a : BitVec 8) (s : State) : Option Byte :=
  (Reg.ofOffset? (BitVec.ofNat 8 (a.toNat / 4 * 4))).map fun r => (readReg r s).extractLsb' (8 * (a.toNat % 4)) 8

/-- The rejection of a register access: BUS with LAST_OPC 0xFF (20_memory.md R83-R87). -/
def busError (s : State) : State := raise .bus regOpc s

/-- A host read (44_host_misc.md R282): the register's value with no effect, or BUS and 0. -/
def hostRead (a : BitVec 8) (z : AccessSize) (s : State) : State :=
  match accessed? a z with
  | some r => { s with readData := some (readReg r s) }
  | none => { busError s with readData := some 0 }

/-- `PROG_CFG` write: all or nothing (44_host_misc.md R284). -/
def writeProgCfg (v : Word) (s : State) : State :=
  let tempo := v.extractLsb' 8 8
  let wave := Wave.ofCode (v.extractLsb' 16 2)
  let octave := v.extractLsb' 24 3
  match ClockMode.ofCode? (v.extractLsb' 18 2), Target.ofCode? (v.extractLsb' 20 3) with
  | some clock, some target =>
    if tempoLegal tempo.toNat = false ∨ octave.toInt = -4 then raise .range regOpc s
    else if wave ≠ s.prog.wave ∧ sounding s = true then raise .hazard regOpc s
    else
      { s with prog := { s.prog with
          folder := v.extractLsb' 0 8, tempo := tempo, wave := wave, clock := clock, target := target,
          octave := octave } }
  | _, _ => raise .range regOpc s

/-- `ERR` write, 1 clears (44_host_misc.md R288). -/
def writeErr (v : Word) (s : State) : State :=
  let e := s.ifc.err &&& ~~~(v.extractLsb' 0 6)
  if e = 0 then { s with ifc := { s.ifc with err := e, lastCode := 0, lastOpc := 0 } }
  else { s with ifc := { s.ifc with err := e } }

/-- A write of `v` to a register other than `CMD`: the writable ones by their rules (44_host_misc.md R284-R290), the
read-only ones raise BUS (R292). `CMD` stores nothing (10_state.md R32); the command it issues is `hostWrite`'s. -/
def writeReg (r : Reg) (v : Word) (s : State) : State :=
  match r with
  | .cmd => s
  | .err => writeErr v s
  | .irqPend => { s with ifc := { s.ifc with irqPend := s.ifc.irqPend &&& ~~~(v.extractLsb' 0 4) } }
  | .irqEn => { s with ifc := { s.ifc with irqEn := v.extractLsb' 0 4 } }
  | .progCfg => writeProgCfg v s
  | .progModval => { s with prog := { s.prog with modval := v.extractLsb' 0 16 } }
  | .seq i => writeSlot i (slotOf (v.getLsbD 8) (v.extractLsb' 0 8)) s
  | .keyFreq k => { s with prog := s.prog.setKeyFreq k (v.extractLsb' 0 24) }
  | .id | .status | .vFreq | .vAcc | .vInc | .vElapsed | .pwmDuty | .display | .playLast | .playCount | .midiCount
  | .syncCount | .seqTimer | .blinkCnt | .syncCnt | .pulseIdx | .dualGuard => busError s

end Sys2Proof.Machine
end

