-- ==== Sys2Proof/Machine/Timebase.lean ====
section
/-! DEFINITION. The timebase engine's tick (42_sequencer.md R230-R234). Sums are taken on integers and compared before
they are stored (00_scope.md R8; log 7). -/

namespace Sys2Proof.Machine

/-- `SyncCountdown()` (R231). -/
def syncCountdown (s : State) : State :=
  if s.rt.syncCnt.toNat > 0 then
    let n := s.rt.syncCnt - 1
    if n = 0 then { s with rt := { s.rt with syncCnt := n, syncLevel := false } }
    else { s with rt := { s.rt with syncCnt := n } }
  else s

/-- `BlinkTimer()` (R232). -/
def blinkTimer (s : State) : State :=
  let n := s.rt.blinkCnt.toNat + 1
  if s.rt.blinkOn = true ∧ n ≥ Config.blinkOnTb then { s with rt := { s.rt with blinkOn := false, blinkCnt := 0 } }
  else if s.rt.blinkOn = false ∧ n ≥ Config.blinkOffTb then
    { s with rt := { s.rt with blinkOn := true, blinkCnt := 0 } }
  else { s with rt := { s.rt with blinkCnt := BitVec.ofNat 32 n } }

/-- `GuardCountdown()` (R233). -/
def guardCountdown (s : State) : State :=
  if s.rt.guard.toNat > 0 then { s with rt := { s.rt with guard := s.rt.guard - 1 } } else s

/-- A clock pulse of the accumulator: the sixth starts the next step (R234). -/
def clockPulse (s : State) : State :=
  if s.rt.pulse.toNat + 1 = Config.pulsesPerStep then
    fireStep (setCur (s.rt.cur + 1) { s with rt := { s.rt with pulse := 0 } })
  else pulseEvent { s with rt := { s.rt with pulse := s.rt.pulse + 1 } }

/-- `ClockAccumulate()` (R234). -/
def clockAccumulate (s : State) : State :=
  let n := s.rt.clkAcc.toNat + s.prog.tempo.toNat
  if n ≥ Config.pulseThresh then
    clockPulse { s with rt := { s.rt with clkAcc := BitVec.ofNat 32 n - BitVec.ofNat 32 Config.pulseThresh } }
  else { s with rt := { s.rt with clkAcc := BitVec.ofNat 32 n } }

/-- The tick's middle part: the clock while Running, the blink in Idle (R230). -/
def runOrBlink (s : State) : State :=
  if s.rt.running then clockAccumulate s else if s.rt.dual then s else blinkTimer s

/-- The timebase tick (R230). -/
def timebaseTick (s : State) : State :=
  if s.rt.view then guardCountdown (runOrBlink (syncCountdown s)) else s

end Sys2Proof.Machine
end

