-- ==== Sys2Proof/Machine/Cycle.lean ====
section
/-! DEFINITION. One clock cycle: the host access, the timebase tick, the audio tick, in this order (00_scope.md R15);
a cycle with RST high (70_reset_and_hazards.md R350). -/

namespace Sys2Proof.Machine

/-- A write of `w` to `CMD`: OVERRUN before decoding, then BAD_CMD, then the command (30_encoding.md R103,
44_host_misc.md R291). -/
def issueCommand (w : Word) (s : State) : Host.Outcome State Fault Refusal :=
  if s.ifc.cmdReady = false then .next (raise .overrun (opcodeOf w) s)
  else match decode w with
    | .error _ => .next (raise .badCmd (opcodeOf w) s)
    | .ok i => exec i s

/-- A host write (44_host_misc.md R283). -/
def hostWrite (a : BitVec 8) (z : AccessSize) (v : Word) (s : State) : Host.Outcome State Fault Refusal :=
  match accessed? a z with
  | none => .next (busError s)
  | some .cmd => issueCommand v s
  | some r => .next (writeReg r v s)

/-- The host access of a cycle, if any (00_scope.md R15 step 1). -/
def hostAccess (a : Option Access) (s : State) : Host.Outcome State Fault Refusal :=
  match a with
  | none => .next s
  | some (.read off z) => .next (hostRead off z s)
  | some (.write off z v) => hostWrite off z v s

/-- Step 2 of R15: the timebase tick on the timebase cycles. -/
def timebasePhase (s : State) : State :=
  if s.cycle % Config.tbPeriod = Config.tbPeriod - 1 then timebaseTick s else s

/-- Step 3 of R15: the audio tick on the audio cycles. -/
def audioPhase (s : State) : State :=
  if s.cycle % Config.audioPeriod = Config.audioPeriod - 1 then audioTick s else s

/-- The end of a cycle: a display event when the grid differs from `before`, its value in the previous cycle
(42_sequencer.md R241), and the next cycle number. -/
def endCycle (before : BitVec 16) (s : State) : State :=
  let t := if grid s = before then s else emit (.disp (grid s)) s
  { t with cycle := t.cycle + 1, now := t.now + 1 }

/-- A cycle with RST high (70_reset_and_hazards.md R350): every element of R30 at its reset value, the access not
performed (a read returns 0), no tick, no event; cycle 0 is the next one with RST low. -/
def resetCycle (a : Option Access) (s : State) : State :=
  { State.reset with
    now := s.now + 1
    history := s.history
    pending := s.pending
    readData := match a with
      | some (.read _ _) => some 0
      | _ => none }

/-- The input of the coming cycle. -/
def nextInput (s : State) : CycleInput := s.pending.headD CycleInput.idle

/-- The state a cycle begins in: its input taken from the queue, no read value yet. -/
def beginCycle (s : State) : State := { s with pending := s.pending.tail, readData := none }

/-- One clock cycle (R15). The display event compares the grid with the one the cycle began with, which is the previous
cycle's (log 6). -/
def clockCycle (s : State) : Host.Outcome State Fault Refusal :=
  if (nextInput s).rst then .next (resetCycle (nextInput s).access (beginCycle s))
  else match hostAccess (nextInput s).access (beginCycle s) with
    | .next t => .next (endCycle (grid s) (audioPhase (timebasePhase t)))
    | .fault r => .fault r
    | .refused r => .refused r

end Sys2Proof.Machine
end

