-- ==== Sys2Proof/Machine/Step.lean ====
section
/-! DEFINITION. The step: one clock cycle of the block (00_scope.md R15), and how a command word comes to be the next
one the block runs (the host writes it to `CMD`; log 1). -/

namespace Sys2Proof.Machine

/-- One clock cycle. -/
def step (s : State) : Host.Outcome State Fault Refusal := clockCycle s

/-- The input of a cycle in which the host writes `w` to `CMD`. -/
def commandInput (w : Word) : CycleInput := { rst := false, access := some (.write 0x04 AccessSize.word w) }

/-- The host's next access is the write of the command word `w` (of `nbits` bits) to `CMD`. -/
def State.withFetchWord (s : State) (nbits w : Nat) : State :=
  { s with pending := commandInput (BitVec.ofNat 32 (w % 2 ^ nbits)) :: s.pending }

end Sys2Proof.Machine
end

