-- ==== Sys2Proof/Machine/Ports.lean ====
section
/-! DEFINITION. The output ports in the cycle just performed (60_exceptions.md R320-R327): levels are functions of the
state after the cycle's steps, strobes say whether the cycle emitted the port's event. -/

namespace Sys2Proof.Machine

/-- The events of the cycle just performed, in the order they were emitted (00_scope.md R13). -/
def cycleEvents (s : State) : List Event :=
  ((s.history.takeWhile fun x => decide (x.1 + 1 = s.now)).map Prod.snd).reverse

/-- A playback event as the port carries it: `PB_KIND`, `PB_FOLDER`, `PB_ARG` (R322). -/
def playbackOf : Event → Option PlayRequest
  | .play folder index => some { kind := .play, folder := folder, arg := index }
  | .volume level => some { kind := .volume, folder := 0, arg := level }
  | .pwm _ | .midi _ | .disp _ | .errlog _ _ => none

/-- A byte on the MIDI transmit port (R323). -/
def midiOf : Event → Option Byte
  | .midi b => some b
  | .pwm _ | .play _ _ | .volume _ | .disp _ | .errlog _ _ => none

/-- The pins of the block. -/
structure Pins where
  /-- `DUTY[15:0]` (R320). -/
  duty : BitVec 16
  /-- `DUTY_STB` (R320). -/
  dutyStb : Bool
  /-- The requests on the playback port, each with its strobe (R322; log 16). -/
  playback : List PlayRequest
  /-- The bytes on the MIDI transmit port, each with its strobe (R323). -/
  midi : List Byte
  /-- `SYNC_OUT` (R324). -/
  syncOut : Bool
  /-- `DISP[15:0]` (R325). -/
  disp : BitVec 16
  /-- `IRQ` (R326). -/
  irq : Bool
  deriving DecidableEq, Repr

/-- The pins in the cycle just performed. -/
def pins (s : State) : Pins :=
  { duty := s.voice.duty
    dutyStb := (cycleEvents s).any fun | .pwm _ => true | _ => false
    playback := (cycleEvents s).filterMap playbackOf
    midi := (cycleEvents s).filterMap midiOf
    syncOut := syncOut s
    disp := grid s
    irq := irqLine s }

end Sys2Proof.Machine
end

