-- ==== Sys2Proof/Safety.lean ====
section
/-! DEFINITION. The terms claims are stated in: the exact real formulas of the voice unit and the wavetables
(41_voice.md R163-R174, 40_wavetable.md R131-R134), which the model's integer arithmetic must equal; the invariants of
10_state.md R59 and the ranges the rules state; what a run of cycles shows; and the conditions under which a command is
accepted. The real formulas are references for statements only: no step uses them. -/

namespace Sys2Proof.Reference

/-- The real multiplier of the phase increment (R163; FilterMod R172, PitchBend R173). -/
noncomputable def incMult (tg : Target) (mv e : ℕ) : ℝ :=
  match tg with
  | .filterMod => 1 + 1 / 10 * (mv / 32767) * Real.sin (2 * Real.pi * 20 * e / 20000)
  | .pitchBend => (2 : ℝ) ^ (((mv : ℝ) / 32767 - 1 / 2) * (2 * 2) / 12)
  | .disabled | .cutoff | .attackEnvelope | .envelopeWave | .filterSweep => 1

/-- The real amplitude factor (R167; Cutoff R168, AttackEnvelope R169, EnvelopeWave R170, FilterSweep R171). -/
noncomputable def amp (tg : Target) (mv e f idx : ℕ) : ℝ :=
  match tg with
  | .disabled | .filterMod | .pitchBend => 1
  | .cutoff => if (idx : ℤ) > ⌊(f : ℝ) * mv / (256 * 20000)⌋ then 4 / 5 else 1
  | .attackEnvelope => min 1 ((e : ℝ) * 4 / max 4 mv)
  | .envelopeWave => (1 - |Real.sin (Real.pi * e / 20000)|) * mv / 65535
  | .filterSweep => 1 - (mv : ℝ) / 65535 * (1 - Real.sin (2 * Real.pi * f * e / (256 * 20000))) / 2

/-- `round_even` (00_scope.md R8): the nearest integer, ties to the even one. -/
noncomputable def roundEven (x : ℝ) : ℤ :=
  if x - ⌊x⌋ < 1 / 2 then ⌊x⌋
  else if 1 / 2 < x - ⌊x⌋ then ⌊x⌋ + 1
  else if ⌊x⌋ % 2 = 0 then ⌊x⌋ else ⌊x⌋ + 1

/-- The exact value whose rounding is `T[w][i]` (40_wavetable.md R131-R134). -/
noncomputable def tableValue (w : Wave) (i : ℕ) : ℝ :=
  match w with
  | .sine => 65535 * (Real.sin (2 * Real.pi * i / 256) + 1) / 2
  | .square => if i < 128 then 65535 else 65535 * (1 - (i : ℝ) / 256) ^ 2
  | .triangle => if i < 128 then 65535 * (2 * i) / 256 else 65535 * (2 * (256 - i)) / 256
  | .sawtooth => 65535 * ((i : ℝ) / 256) * (1 - (i : ℝ) / 256) ^ 2

end Sys2Proof.Reference

namespace Sys2Proof.Safety

open Sys2Proof.Machine

/-- The invariants of 10_state.md R59, with the ranges that R33, R39, R41, R47, R52-R55, R174, R204, R232, R233 and
conflict C12 state, at the default `DUAL_DURING_RUN = 0`. Every state a run from reset reaches has them. -/
structure Inv (s : State) : Prop where
  /-- R59 (a). -/
  activeBusy : s.voice.active = true → s.voice.busy = true
  /-- R59 (b). -/
  draining : (s.voice.busy = true ∧ s.voice.active = false) ↔ s.ifc.cmdReady = false
  /-- R59 (c). -/
  runningView : s.rt.running = true → s.rt.view = true
  /-- R59 (d). -/
  runningNotDual : ¬ (s.rt.running = true ∧ s.rt.dual = true)
  /-- R59 (e), and the held key's note sounds. -/
  heldDual : s.rt.heldValid = true → s.rt.dual = true ∧ s.voice.active = true
  /-- R33: HELD_KEY is 0 when no key is held. -/
  heldKeyClear : s.rt.heldValid = false → s.rt.heldKey = 0
  /-- R59 (f). -/
  pulseRange : s.rt.pulse.toNat ≤ 5
  /-- R59 (f), R51. -/
  clkAccRange : s.rt.clkAcc.toNat < Config.pulseThresh
  /-- R59 (g). -/
  tempoLegal : Config.tempoMin ≤ s.prog.tempo.toNat ∧ s.prog.tempo.toNat ≤ Config.tempoMax
  /-- R59 (g). -/
  octaveLegal : -3 ≤ s.prog.octave.toInt ∧ s.prog.octave.toInt ≤ 3
  /-- R59 (h). -/
  closedQuiet : s.rt.view = false → s.voice.active = false ∧ s.rt.running = false ∧ s.rt.dual = false
  /-- R39: an empty step holds no index. -/
  emptySlots : ∀ i, (s.prog.slot i).valid = false → (s.prog.slot i).index = 0
  /-- R232: each blink phase ends at its length. -/
  blinkRange : s.rt.blinkCnt.toNat < if s.rt.blinkOn then Config.blinkOnTb else Config.blinkOffTb
  /-- R53, R231: the level is high exactly while the countdown runs. -/
  syncLevel : s.rt.syncLevel = decide (s.rt.syncCnt ≠ 0)
  /-- R201: a pulse is at most `SYNC_WIDTH_TB` long. -/
  syncRange : s.rt.syncCnt.toNat ≤ Config.syncWidthTb
  /-- R204: stopped, the clock and the sync pulse are cleared. -/
  stoppedClear : s.rt.running = false → s.rt.clkAcc = 0 ∧ s.rt.pulse = 0 ∧ s.rt.syncCnt = 0
  /-- R233: the guard is 0 when `DUAL_DURING_RUN = 0`. -/
  guardClear : s.rt.guard = 0
  /-- R41: reachable frequencies are below `2^27`. -/
  freqRange : s.voice.freq.toNat < 2 ^ 27
  /-- R174: the duty never exceeds 32767. -/
  dutyRange : s.voice.duty.toNat ≤ 32767
  /-- Conflict C12: with no note sounding the duty is 0. -/
  silentDuty : s.voice.busy = false → s.voice.duty = 0
  /-- R34, R288: nothing recorded, nothing left of the last error. -/
  errClear : s.ifc.err = 0 → s.ifc.lastCode = 0 ∧ s.ifc.lastOpc = 0
  /-- R302: a recorded code is one of 1 to 6. -/
  errCode : s.ifc.err ≠ 0 → 1 ≤ s.ifc.lastCode.toNat ∧ s.ifc.lastCode.toNat ≤ 6
  /-- R47: the folder of a volume request is 0. -/
  volumeFolder : s.ifc.playLast.kind = .volume → s.ifc.playLast.folder = 0
  /-- R281: a volume request is at most `VOLUME_MAX`. -/
  volumeRange : s.ifc.playLast.kind = .volume → s.ifc.playLast.arg.toNat ≤ Config.volumeMax

/-- Every event of the history was emitted in an earlier cycle, a MIDI byte is the Timing Clock byte (R323), and a duty
word is at most 32767 (R174). Kept by every step, like `Inv`. -/
def HistoryOk (s : State) : Prop :=
  ∀ x ∈ s.history, x.1 < s.now ∧
    match x.2 with
    | .midi b => b = Config.midiClockByte
    | .pwm d => d.toNat ≤ 32767
    | .volume l => l.toNat ≤ Config.volumeMax
    | .play _ _ | .disp _ | .errlog _ _ => True

/-- Timebase ticks in the `n` cycles from cycle `c` on (00_scope.md R15). -/
def timebaseTicks (c n : Nat) : Nat := (c + n) / 20 - c / 20

/-- The play request an event makes. -/
def playOf : Event → Option (BitVec 8 × BitVec 8)
  | .play folder index => some (folder, index)
  | .pwm _ | .volume _ | .midi _ | .disp _ | .errlog _ _ => none

/-- The play requests of a history, oldest first. -/
def plays (history : List (Nat × Event)) : List (BitVec 8 × BitVec 8) :=
  (history.map Prod.snd).reverse.filterMap playOf

/-- The request of one step of a pattern: none for an empty step (42_sequencer.md R242). -/
def slotPlay (folder : BitVec 8) (x : Slot) : Option (BitVec 8 × BitVec 8) :=
  if x.valid then some (folder, x.index) else none

/-- The command was refused: it left the error record and nothing else (00_scope.md R12). -/
def Refused (i : Instr) (s t : State) : Prop := ∃ c, t = raise c i.opc.code s

/-- The commands that set DIRTY when they are accepted (60_exceptions.md R305). -/
def dirties (i : Instr) (s : State) : Bool :=
  match i with
  | .setWave _ | .setTarget _ | .modUpdate _ | .setOctave _ | .assign _ | .clearStep | .clearPattern | .setTempo _
  | .setClock _ => true
  | .keyPress _ => !s.rt.dual
  | .encoder _ => s.rt.dual
  | .nop | .noteOn _ | .noteOff | .seqOpen | .seqExit | .run | .stop | .toggleDual | .cursorNext | .cursorPrev
  | .cursorSet _ | .keyRelease _ | .setVolume _ => false

/-- The commands that fire a step event when they are accepted (42_sequencer.md R237). -/
def fires (i : Instr) (s : State) : Bool :=
  match i with
  | .run => true
  | .clearStep | .clearPattern => s.rt.running
  | .nop | .noteOn _ | .noteOff | .setWave _ | .setTarget _ | .modUpdate _ | .setOctave _ | .seqOpen | .seqExit | .stop
  | .toggleDual | .assign _ | .cursorNext | .cursorPrev | .cursorSet _ | .setTempo _ | .setClock _ | .keyPress _
  | .keyRelease _ | .encoder _ | .setVolume _ => false

/-- A command is accepted as far as the join and the view go (30_encoding.md R103): `CMD_READY` and `VIEW` are 1. -/
def Open (s : State) : Prop := s.ifc.cmdReady = true ∧ s.rt.view = true

end Sys2Proof.Safety
end

