-- ==== Sys2Proof/Certificates/Slice0/Obligations.lean ====
section
/-! DEFINITION. The statements for the provers, from the numbered rules of spec/: encodings, the cycle, each command's
result and frame, the whole-machine rules, the registers, the output levels and the two tick engines. -/

open Sys2Proof Sys2Proof.Machine Sys2Proof.Safety Sys2Proof.Reference

/-- For every command whose operand fits its field, decoding its encoded word answers that command with that
operand. (R100, R101, R102, R104.) -/
def Obligations.DecodeOfEncode : Prop :=
  ∀ i : Instr, WellFormed i = true → decode (encode i) = .ok i

/-- If the decoder reads command i from word w, then i is well formed and its encoding is w: no two words mean the
same command, and no bit of an accepted word is dropped. (R100, R101, R102, R106.) -/
def Obligations.EncodeOfDecode : Prop :=
  ∀ (w : Word) (i : Instr), decode w = .ok i → WellFormed i = true ∧ encode i = w

/-- The 24 rows have the opcodes, match words and mask words of R104, and a word w is a command of row o (the
decoder reads such a command from it) exactly when w AND mask equals match; so no word matches two rows. (R104.) -/
def Obligations.OpcodeMapRows : Prop :=
  (Opc.all.map fun o => (o, o.code, o.matchWord, o.maskWord)) =
      [(.nop, 0x00, 0x00000000, 0xFFFFFFFF), (.noteOn, 0x01, 0x01000000, 0xFF000000),
        (.noteOff, 0x02, 0x02000000, 0xFFFFFFFF), (.setWave, 0x03, 0x03000000, 0xFFFFFFFC),
        (.setTarget, 0x04, 0x04000000, 0xFFFFFFF8), (.modUpdate, 0x05, 0x05000000, 0xFFFF0000),
        (.setOctave, 0x06, 0x06000000, 0xFFFFFF00), (.seqOpen, 0x10, 0x10000000, 0xFFFFFFFF)]
      ++ [(.seqExit, 0x11, 0x11000000, 0xFFFFFFFF), (.run, 0x12, 0x12000000, 0xFFFFFFFF),
        (.stop, 0x13, 0x13000000, 0xFFFFFFFF), (.toggleDual, 0x14, 0x14000000, 0xFFFFFFFF),
        (.assign, 0x15, 0x15000000, 0xFFFFFFF0), (.clearStep, 0x16, 0x16000000, 0xFFFFFFFF),
        (.clearPattern, 0x17, 0x17000000, 0xFFFFFFFF), (.cursorNext, 0x18, 0x18000000, 0xFFFFFFFF)]
      ++ [(.cursorPrev, 0x19, 0x19000000, 0xFFFFFFFF), (.cursorSet, 0x1A, 0x1A000000, 0xFFFFFFF0),
        (.setTempo, 0x1B, 0x1B000000, 0xFFFFFF00), (.setClock, 0x1C, 0x1C000000, 0xFFFFFFFC),
        (.keyPress, 0x20, 0x20000000, 0xFFFFFFF0), (.keyRelease, 0x21, 0x21000000, 0xFFFFFFF0),
        (.encoder, 0x22, 0x22000000, 0xFFFF0000), (.setVolume, 0x30, 0x30000000, 0xFFFFFF00)]
    ∧ (∀ (w : Word) (o : Opc), w &&& o.maskWord = o.matchWord ↔ ∃ i, decode w = .ok i ∧ i.opc = o)
    ∧ ∀ (w : Word) (o o' : Opc), w &&& o.maskWord = o.matchWord → w &&& o'.maskWord = o'.matchWord → o = o'

/-- A word is no command exactly when its opcode byte is one of 0x07..0x0F, 0x1D..0x1F, 0x23..0x2F, 0x31..0xFF or
its row has a reserved operand bit that is 1 in it; written to CMD with CMD_READY = 1, whatever the view, it
records BAD_CMD with its own opcode byte and does nothing else. (R101, R103, R105.) -/
def Obligations.IllegalWordsRefused : Prop :=
  ∀ w : Word,
    ((∀ i, decode w ≠ .ok i) ↔
      (let n := w.toNat / 2 ^ 24
       (0x07 ≤ n ∧ n ≤ 0x0F) ∨ (0x1D ≤ n ∧ n ≤ 0x1F) ∨ (0x23 ≤ n ∧ n ≤ 0x2F) ∨ 0x31 ≤ n)
      ∨ ∃ o : Opc, opcodeOf w = o.code ∧ ∃ j, o.format.width ≤ j ∧ j < 24 ∧ w.getLsbD j = true)
    ∧ ∀ s : State, (∀ i, decode w ≠ .ok i) → s.ifc.cmdReady = true →
        hostWrite 0x04 AccessSize.word w s = .next (raise .badCmd (w.extractLsb' 24 8) s)

/-- A few command words, written out bit by bit from the formats of R101, decode to the commands they stand for, one
of every format, and every waveform by its code of R61. (R61, R101, R104.) -/
def Obligations.DecodeSampleWords : Prop :=
  decode 0b00000000_00000000_00000000_00000000 = .ok .nop
    ∧ decode 0b00000001_00000001_10111000_00000000 = .ok (.noteOn 112640)
    ∧ decode 0b00000011_00000000_00000000_00000000 = .ok (.setWave .sine)
    ∧ decode 0b00000011_00000000_00000000_00000001 = .ok (.setWave .square)
    ∧ decode 0b00000011_00000000_00000000_00000010 = .ok (.setWave .triangle)
    ∧ decode 0b00000011_00000000_00000000_00000011 = .ok (.setWave .sawtooth)
    ∧ decode 0b00000100_00000000_00000000_00000110 = .ok (.setTarget 6)
    ∧ decode 0b00000101_00000000_11111111_00111000 = .ok (.modUpdate (-200))
    ∧ decode 0b00000110_00000000_00000000_11111101 = .ok (.setOctave (-3))
    ∧ decode 0b00011011_00000000_00000000_10001100 = .ok (.setTempo 140)
    ∧ decode 0b00100000_00000000_00000000_00000100 = .ok (.keyPress 4)
    ∧ decode 0b00011100_00000000_00000000_00000001 = .ok (.setClock 1)
    ∧ decode 0b00100010_00000000_11111111_11111101 = .ok (.encoder (-3))

/-- A full-word write of w to CMD: with CMD_READY = 0 it records OVERRUN whatever w is; else, a word that is no
command records BAD_CMD; else, with the view closed, every command but NOP and SEQ_OPEN records STATE; else the
command is executed. Each error carries w[31:24] and changes nothing but the error record. The second part, that
executing a command directly makes the OVERRUN and view checks too, is the model's reading (log 5), no words of
R103. (R103.) -/
def Obligations.CommandAcceptance : Prop :=
  (∀ (w : Word) (s : State), hostWrite 0x04 AccessSize.word w s =
      if s.ifc.cmdReady = false then .next (raise .overrun (w.extractLsb' 24 8) s)
      else match decode w with
        | .error _ => .next (raise .badCmd (w.extractLsb' 24 8) s)
        | .ok i =>
          if i ≠ .nop ∧ i ≠ .seqOpen ∧ s.rt.view = false then .next (raise .state (w.extractLsb' 24 8) s)
          else exec i s)
    ∧ ∀ (i : Instr) (s : State),
      (s.ifc.cmdReady = false → exec i s = .next (raise .overrun i.opc.code s))
      ∧ (s.ifc.cmdReady = true → s.rt.view = false → i ≠ .nop → i ≠ .seqOpen →
          exec i s = .next (raise .state i.opc.code s))

/-- raise c opc leaves the state as it was but for: sticky bit code - 1 set (the others kept), LAST_CODE = code,
LAST_OPC = opc, IRQ_PEND.ERR set (the other pending bits kept), and one ERRLOG(code, opc) event. The codes are 1
BAD_CMD, 2 STATE, 3 RANGE, 4 HAZARD, 5 OVERRUN, 6 BUS. (R301.) -/
def Obligations.RaiseRecordsError : Prop :=
  ([ErrCode.badCmd, .state, .range, .hazard, .overrun, .bus].map ErrCode.code = [1, 2, 3, 4, 5, 6])
    ∧ ∀ (c : ErrCode) (opc : BitVec 8) (s : State), ∃ e : BitVec 6, ∃ p : BitVec 4,
      raise c opc s = { s with
        ifc := { s.ifc with err := e, lastCode := c.code, lastOpc := opc, irqPend := p }
        history := (s.now, .errlog c opc) :: s.history }
      ∧ (∀ j < 6, e.getLsbD j = (s.ifc.err.getLsbD j || decide (j + 1 = c.code.toNat)))
      ∧ ∀ j < 4, p.getLsbD j = (s.ifc.irqPend.getLsbD j || decide (j = 3))

/-- Every command executed in any state either leaves exactly the error record (of one error, with its own opcode)
or leaves the sticky error bits, LAST_CODE, LAST_OPC and IRQ_PEND.ERR unchanged and logs no error. (R12, R301,
R303.) -/
def Obligations.RefusedCommandIsVoid : Prop :=
  ∀ (i : Instr) (s t : State), exec i s = .next t →
    Refused i s t
    ∨ (t.ifc.err = s.ifc.err ∧ t.ifc.lastCode = s.ifc.lastCode ∧ t.ifc.lastOpc = s.ifc.lastOpc
        ∧ t.ifc.irqPend.getLsbD 3 = s.ifc.irqPend.getLsbD 3
        ∧ ∃ new, t.history = new ++ s.history ∧ ∀ x ∈ new, ∀ c opc, x.2 ≠ .errlog c opc)

/-- If the host writes w to CMD in the coming cycle and w decodes to i, then the step executes i on the state the
cycle begins in (the access taken off the input queue, no read value), then performs the timebase tick and the
audio tick the cycle has, and ends the cycle. (The input queue is the model's: log 1; so is the cleared read
value: log 4; and endCycle, with the display event last in the cycle and compared with the grid the cycle began
with, is its reading: log 6.) (R15, R103.) -/
def Obligations.StepRunsDecodedCommand : Prop :=
  ∀ (s : State) (w : Word) (i : Instr) (rest : List CycleInput),
    s.pending = { rst := false, access := some (.write 0x04 AccessSize.word w) } :: rest → decode w = .ok i →
    step s = match exec i { s with pending := rest, readData := none } with
      | .next t => .next (endCycle (grid s) (audioPhase (timebasePhase t)))
      | .fault r => .fault r
      | .refused r => .refused r

/-- For every well-formed command i and every state s, the step from s with i's encoding as the next command word
executes i and continues with the ticks of that cycle. (withFetchWord and the input queue are the model's: log
1; so is the cleared read value: log 4; and endCycle, with the display event last and compared with the grid the
cycle began with, is its reading: log 6.) (R15, R100, R103.) -/
def Obligations.EncodedCommandRuns : Prop :=
  ∀ (i : Instr) (s : State), WellFormed i = true →
    ∃ t, exec i { s with readData := none } = .next t
      ∧ step (s.withFetchWord 32 (encode i).toNat) = .next (endCycle (grid s) (audioPhase (timebasePhase t)))

/-- In every cycle with RST low the block performs the host access, then the timebase tick exactly when the cycle
number is 19 modulo 20, then the audio tick exactly when it is 999 modulo 1000, each on the state the one before
left; the next cycle number is one higher; cycle 0 is the first after reset is released. (R15 gives the order
and the tick cycles; the input queue and the read value are the model's: logs 1, 4; the cycle number as a field
that RST clears is log 2; endCycle, with the display event last and compared with the grid the cycle began with,
is its reading: log 6.) (R15.) -/
def Obligations.CycleOrder : Prop :=
  (∀ s t : State, (nextInput s).rst = false → hostAccess (nextInput s).access (beginCycle s) = .next t →
      ∃ u, step s = .next u ∧ u.cycle = s.cycle + 1
        ∧ u = endCycle (grid s)
          (let v := if s.cycle % 20 = 19 then timebaseTick t else t
           if s.cycle % 1000 = 999 then audioTick v else v))
    ∧ State.reset.cycle = 0
    ∧ ∀ s t : State, (nextInput s).rst = true → step s = .next t → t.cycle = 0

/-- In every state every command executed and every cycle performed answers a next state; no error stops the block.
(R300, R375.) -/
def Obligations.StepAlwaysContinues : Prop :=
  (∀ (i : Instr) (s : State), ∃ t, exec i s = .next t) ∧ ∀ s : State, ∃ t, step s = .next t

/-- Right after reset ID = 0x50415407, STATUS = 0x000000A0, PROG_CFG = 0x00007801, every other register reads 0, the
block is Closed with CMD_READY = 1, and the Program is folder 1, tempo 120, Sine, Disabled, modulation value 0,
octave 0, clock None, every step empty, every key frequency 0. (R352.) -/
def Obligations.ResetRegisters : Prop :=
  readReg .id State.reset = 0x50415407
    ∧ readReg .status State.reset = 0x000000A0
    ∧ readReg .progCfg State.reset = 0x00007801
    ∧ (∀ r : Reg, r ≠ .id → r ≠ .status → r ≠ .progCfg → readReg r State.reset = 0)
    ∧ State.reset.rt.view = false ∧ State.reset.ifc.cmdReady = true
    ∧ State.reset.ifc.err = 0 ∧ State.reset.ifc.irqPend = 0
    ∧ State.reset.prog.folder = 1 ∧ State.reset.prog.tempo = 120 ∧ State.reset.prog.wave = .sine
    ∧ State.reset.prog.target = .disabled ∧ State.reset.prog.modval = 0 ∧ State.reset.prog.octave = 0
    ∧ State.reset.prog.clock = .none
    ∧ (∀ i, State.reset.prog.slot i = { valid := false, index := 0 })
    ∧ ∀ k, State.reset.prog.keyFreq k = 0

/-- From every state, a cycle with RST high leaves P, S, V and I at their reset values, makes the next cycle number
0, performs no access (a read returns 0, a write is lost) and no tick, emits no event, and shows DUTY = 0,
SYNC_OUT = 0, DISP = 0, IRQ = 0 and no strobe. (That a cycle number and an input queue exist is the model's: log
1, log 2.) (R350, R351.) -/
def Obligations.ResetCycleClearsEverything : Prop :=
  ∀ s : State, HistoryOk s → (nextInput s).rst = true →
    ∃ t, step s = .next t
      ∧ t.prog = Program.reset ∧ t.rt = Runtime.reset ∧ t.voice = Voice.reset ∧ t.ifc = Interface.reset
      ∧ t.cycle = 0 ∧ t.history = s.history ∧ t.pending = s.pending.tail
      ∧ (∀ a z, (nextInput s).access = some (.read a z) → t.readData = some 0)
      ∧ (∀ a z v, (nextInput s).access = some (.write a z v) → t.readData = none)
      ∧ pins t = { duty := 0, dutyStb := false, playback := [], midi := [], syncOut := false, disp := 0, irq := false }

/-- The reset state satisfies Inv (the invariants of R59 and the ranges the rules state) and HistoryOk. (R59, R62.) -/
def Obligations.InvariantAtReset : Prop :=
  Inv State.reset ∧ HistoryOk State.reset

/-- From every state with Inv, whatever access the host makes or RST does, the cycle leads to a state with Inv:
ACTIVE implies BUSY; a note drains exactly while CMD_READY = 0; Running implies the view open and excludes
DualMode; a held key implies DualMode and a sounding note; the pulse index, clock accumulator, tempo, octave,
target and clock mode stay legal; a closed view is quiet; and the further ranges Inv lists. (R59.) -/
def Obligations.StepKeepsInvariant : Prop :=
  ∀ s t : State, Inv s → step s = .next t → Inv t

/-- From every state with Inv, executing any well-formed command leads to a state with Inv. (R59.) -/
def Obligations.ExecKeepsInvariant : Prop :=
  ∀ (i : Instr) (s t : State), WellFormed i = true → Inv s → exec i s = .next t → Inv t

/-- Every cycle keeps the whole earlier history and adds only events of its own cycle, and keeps HistoryOk (every
MIDI byte is 0xF8, every duty word is at most 32767, every volume at most 30). (The history as a list and its
stamps are the model's: log 3.) (R13, R174, R281, R323.) -/
def Obligations.StepExtendsHistory : Prop :=
  ∀ s t : State, step s = .next t →
    (∃ new, t.history = new ++ s.history ∧ ∀ x ∈ new, x.1 = s.now) ∧ t.now = s.now + 1
    ∧ (HistoryOk s → HistoryOk t)

/-- With CMD_READY = 1, whatever the view, NOP leaves the state as it was. (R280.) -/
def Obligations.NopChangesNothing : Prop :=
  ∀ s : State, s.ifc.cmdReady = true → exec .nop s = .next s

/-- With CMD_READY = 1 and the view open: while a note sounds or drains NOTE_ON leaves the state as it was; else it
sets V.freq to floor(x * 2^octave) (below 2^27), clears the accumulator, increment and elapsed count, sets
ACTIVE and BUSY, and changes nothing else. (R151, R153.) -/
def Obligations.NoteOnStartsNote : Prop :=
  ∀ (x : Nat) (s : State), x < 2 ^ 24 → Open s →
    (s.voice.active = true ∨ s.voice.busy = true → exec (.noteOn x) s = .next s)
    ∧ (s.voice.active = false → s.voice.busy = false →
        ∃ f : BitVec 32,
          exec (.noteOn x) s = .next { s with voice := { s.voice with
            freq := f, acc := 0, inc := 0, elapsed := 0, active := true, busy := true } }
          ∧ (f.toNat : ℤ) = ⌊(x : ℝ) * (2 : ℝ) ^ s.prog.octave.toInt⌋ ∧ f.toNat < 2 ^ 27)

/-- With CMD_READY = 1 and the view open, NOTE_OFF clears the held key and: when a note sounds clears ACTIVE and
CMD_READY; when none sounds or drains sets the duty to 0 and emits PWM(0); in a draining state nothing more.
Nothing else changes. (R152, R154.) -/
def Obligations.NoteOffStopsVoice : Prop :=
  ∀ s : State, Open s →
    (s.voice.active = true → exec .noteOff s = .next { s with
        rt := { s.rt with heldValid := false, heldKey := 0 }
        voice := { s.voice with active := false }
        ifc := { s.ifc with cmdReady := false } })
    ∧ (s.voice.active = false → s.voice.busy = false → exec .noteOff s = .next { s with
        rt := { s.rt with heldValid := false, heldKey := 0 }
        voice := { s.voice with duty := 0 }
        history := (s.now, .pwm 0) :: s.history })
    ∧ (s.voice.active = false → s.voice.busy = true → exec .noteOff s = .next { s with
        rt := { s.rt with heldValid := false, heldKey := 0 } })

/-- With CMD_READY = 1 and the view open: while a note sounds or drains SET_WAVE records HAZARD with opcode 0x03 and
does nothing else; else it writes the waveform and sets DIRTY, even when the waveform is the one already
selected, and changes nothing else. (R155.) -/
def Obligations.SetWaveOnlyWhenSilent : Prop :=
  ∀ (w : Wave) (s : State), Open s →
    (s.voice.active = true ∨ s.voice.busy = true → exec (.setWave w) s = .next (raise .hazard 0x03 s))
    ∧ (s.voice.active = false → s.voice.busy = false → exec (.setWave w) s = .next { s with
        prog := { s.prog with wave := w }
        ifc := { s.ifc with irqPend := s.ifc.irqPend ||| 0b0001 } })

/-- With CMD_READY = 1 and the view open: code 7 records RANGE with opcode 0x04 and does nothing else; every other
code writes the target of that code and sets DIRTY, and code 0 (Disabled) also sets the modulation value to 0;
nothing else changes. (R156.) -/
def Obligations.SetTargetSelectsModulation : Prop :=
  ∀ (x : BitVec 3) (s : State), Open s →
    (x = 7 → exec (.setTarget x) s = .next (raise .range 0x04 s))
    ∧ (x ≠ 7 → ∃ tg : Target, tg.code = x ∧ exec (.setTarget x) s = .next { s with
        prog := { s.prog with target := tg, modval := if x = 0 then 0 else s.prog.modval }
        ifc := { s.ifc with irqPend := s.ifc.irqPend ||| 0b0001 } })

/-- With CMD_READY = 1 and the view open, MOD_UPDATE x sets the modulation value to min(100, max(1, P.modval + x)),
the sum taken on integers, sets DIRTY, and changes nothing else. (R157.) -/
def Obligations.ModUpdateClampsTheSum : Prop :=
  ∀ (x : Int) (s : State), -32768 ≤ x → x ≤ 32767 → Open s →
    ∃ m : BitVec 16,
      exec (.modUpdate x) s = .next { s with
        prog := { s.prog with modval := m }
        ifc := { s.ifc with irqPend := s.ifc.irqPend ||| 0b0001 } }
      ∧ (m.toNat : Int) = min 100 (max 1 ((s.prog.modval.toNat : Int) + x))

/-- With CMD_READY = 1 and the view open, SET_OCTAVE x sets the octave to min(3, max(-3, x)), sets DIRTY, and
changes nothing else: a sounding note keeps its frequency. (R158.) -/
def Obligations.SetOctaveClamps : Prop :=
  ∀ (x : Int) (s : State), -128 ≤ x → x ≤ 127 → Open s →
    ∃ o : BitVec 3,
      exec (.setOctave x) s = .next { s with
        prog := { s.prog with octave := o }
        ifc := { s.ifc with irqPend := s.ifc.irqPend ||| 0b0001 } }
      ∧ o.toInt = min 3 (max (-3) x)

/-- With CMD_READY = 1: with the view open SEQ_OPEN records STATE with opcode 0x10 and does nothing else; with it
closed every element of S but the view and every element of V takes its reset value, the view opens, and P, I
and everything else is kept. (R210.) -/
def Obligations.SeqOpenReinitialises : Prop :=
  ∀ s : State, s.ifc.cmdReady = true →
    (s.rt.view = true → exec .seqOpen s = .next (raise .state 0x10 s))
    ∧ (s.rt.view = false → exec .seqOpen s = .next { s with
        rt := { view := true, cur := 0, running := false, dual := false, blinkOn := true, blinkCnt := 0,
                heldValid := false, heldKey := 0, clkAcc := 0, pulse := 0, syncLevel := false, syncCnt := 0,
                guard := 0 }
        voice := { freq := 0, acc := 0, inc := 0, elapsed := 0, active := false, busy := false, duty := 0 } })

/-- With CMD_READY = 1 and the view open, SEQ_EXIT clears VIEW, RUNNING, DUAL and the held key; when the block was
Running it also restarts the blink and clears the clock, the sync pulse and the guard; a sounding note is
stopped with its join pending, a silent voice has its duty forced to 0 with PWM(0) emitted; P and everything
else is kept. (R211.) -/
def Obligations.SeqExitClosesTheView : Prop :=
  ∀ s : State, Open s →
    exec .seqExit s = .next { s with
      rt := if s.rt.running = true then
          { s.rt with
            view := false, running := false, dual := false, heldValid := false, heldKey := 0, blinkOn := true,
            blinkCnt := 0, syncLevel := false, syncCnt := 0, clkAcc := 0, pulse := 0, guard := 0 }
        else { s.rt with view := false, dual := false, heldValid := false, heldKey := 0 }
      voice := if s.voice.active = true then { s.voice with active := false }
        else if s.voice.busy = true then s.voice else { s.voice with duty := 0 }
      ifc := if s.voice.active = true then { s.ifc with cmdReady := false } else s.ifc
      history := if s.voice.active = true ∨ s.voice.busy = true then s.history else (s.now, .pwm 0) :: s.history }

/-- FireStep emits MIDI 0xF8 and counts it in MidiClock mode, starts a 5000-tick sync pulse and counts it in
SyncPulse mode, emits PLAY(folder, index) with PLAY_LAST and PLAY_COUNT when the current step is filled, sets
IRQ_PEND.STEP, and changes nothing else. (R201, R202, R207.) -/
def Obligations.StepEventEffects : Prop :=
  ∀ s : State, fireStep s = { s with
    rt := if s.prog.clock = .syncPulse then { s.rt with syncLevel := true, syncCnt := 5000 } else s.rt
    ifc := { s.ifc with
      midiCount := (if s.prog.clock = .midiClock then s.ifc.midiCount + 1 else s.ifc.midiCount),
      syncCount := (if s.prog.clock = .syncPulse then s.ifc.syncCount + 1 else s.ifc.syncCount),
      playLast := (if (s.prog.slot s.rt.cur).valid = true then
          { kind := .play, folder := s.prog.folder, arg := (s.prog.slot s.rt.cur).index }
        else s.ifc.playLast),
      playCount := (if (s.prog.slot s.rt.cur).valid = true then s.ifc.playCount + 1 else s.ifc.playCount),
      irqPend := s.ifc.irqPend ||| 0b0010 }
    history :=
      (if (s.prog.slot s.rt.cur).valid = true then [(s.now, .play s.prog.folder (s.prog.slot s.rt.cur).index)] else [])
        ++ (if s.prog.clock = .midiClock then [(s.now, .midi 0xF8)] else []) ++ s.history }

/-- With CMD_READY = 1 and the view open: while Running, or in DualMode (with DUAL_DURING_RUN = 0), RUN records
STATE with opcode 0x12 and does nothing else; else it sets Running, sets the step, the clock accumulator and the
pulse to 0, fires the step event of step 0, and changes nothing else. (R212.) -/
def Obligations.RunStartsAtStepZero : Prop :=
  ∀ s : State, Open s →
    (s.rt.running = true ∨ s.rt.dual = true → exec .run s = .next (raise .state 0x12 s))
    ∧ (s.rt.running = false → s.rt.dual = false →
        exec .run s = .next (fireStep { s with rt := { s.rt with running := true, cur := 0, clkAcc := 0, pulse := 0 } }))
    ∧ (s.rt.running = true → runSeq true s = raise .state 0x12 s)
    ∧ (s.rt.running = false →
        runSeq true s = fireStep { s with rt := { s.rt with running := true, cur := 0, clkAcc := 0, pulse := 0 } })

/-- With CMD_READY = 1 and the view open: when not Running STOP leaves the state as it was; while Running it clears
Running, restarts the blink in its on phase, clears the sync pulse, the clock accumulator, the pulse and the
guard, keeps the step and the dual flag, and changes nothing else. (R204, R205, R213.) -/
def Obligations.StopEndsTheRun : Prop :=
  ∀ s : State, Open s →
    (s.rt.running = false → exec .stop s = .next s)
    ∧ (s.rt.running = true → exec .stop s = .next { s with
        rt := { s.rt with
          running := false, blinkOn := true, blinkCnt := 0, syncLevel := false, syncCnt := 0, clkAcc := 0, pulse := 0,
          guard := 0 } })
    ∧ blinkReset s = { s with rt := { s.rt with blinkOn := true, blinkCnt := 0 } }

/-- With CMD_READY = 1 and the view open: while Running TOGGLE_DUAL records STATE with opcode 0x14 and does nothing
else; entering sets DUAL only; leaving clears DUAL and the held key, stops the voice as R152 says and restarts
the blink. Under DUAL_DURING_RUN = 1 a toggle while Running is ignored while the guard runs, and else sets the
guard to 250,000 and flips (no blink restart). (R214.) -/
def Obligations.ToggleDualFlips : Prop :=
  let flip : State → State := fun s =>
    if s.rt.dual = false then { s with rt := { s.rt with dual := true } }
    else { s with
      rt := { s.rt with
        dual := false, heldValid := false, heldKey := 0,
        blinkOn := (if s.rt.running = true then s.rt.blinkOn else true),
        blinkCnt := (if s.rt.running = true then s.rt.blinkCnt else 0) }
      voice := if s.voice.active = true then { s.voice with active := false }
        else if s.voice.busy = true then s.voice else { s.voice with duty := 0 }
      ifc := if s.voice.active = true then { s.ifc with cmdReady := false } else s.ifc
      history := if s.voice.active = true ∨ s.voice.busy = true then s.history else (s.now, .pwm 0) :: s.history }
  (∀ s : State, Open s →
      (s.rt.running = true → exec .toggleDual s = .next (raise .state 0x14 s))
      ∧ (s.rt.running = false → exec .toggleDual s = .next (flip s)))
    ∧ ∀ s : State, toggleDual true s =
      if s.rt.running = true then
        if s.rt.guard = 0 then flip { s with rt := { s.rt with guard := 250000 } } else s
      else flip s

/-- With CMD_READY = 1 and the view open: in DualMode ASSIGN records STATE with opcode 0x15 and does nothing else;
else the current step becomes filled with index k + 1, every other step is kept, DIRTY is set, PLAY(folder, k +
1) is emitted with PLAY_LAST and PLAY_COUNT, and nothing else changes: the step pointer stays. (R206, R215.) -/
def Obligations.AssignWritesTheStep : Prop :=
  ∀ (k : BitVec 4) (s : State), Open s →
    (s.rt.dual = true → exec (.assign k) s = .next (raise .state 0x15 s))
    ∧ (s.rt.dual = false → ∃ p : Program, ∃ n : BitVec 8, n.toNat = k.toNat + 1
        ∧ exec (.assign k) s = .next { s with
          prog := p
          ifc := { s.ifc with
            irqPend := s.ifc.irqPend ||| 0b0001,
            playLast := { kind := .play, folder := s.prog.folder, arg := n }, playCount := s.ifc.playCount + 1 }
          history := (s.now, .play s.prog.folder n) :: s.history }
        ∧ p = { s.prog with seq := p.seq }
        ∧ ∀ j, p.slot j = if j = s.rt.cur then { valid := true, index := n } else s.prog.slot j)

/-- With CMD_READY = 1 and the view open, CLEAR_STEP empties the current step, keeps every other one and sets DIRTY;
when not Running nothing else changes; while Running the step pointer advances by one modulo 16, the clock
accumulator and the pulse restart at 0 and the new step fires. (R203, R216.) -/
def Obligations.ClearStepEmptiesTheStep : Prop :=
  ∀ s : State, Open s →
    ∃ p : Program, p = { s.prog with seq := p.seq }
      ∧ (∀ j, p.slot j = if j = s.rt.cur then { valid := false, index := 0 } else s.prog.slot j)
      ∧ (let u := { s with prog := p, ifc := { s.ifc with irqPend := s.ifc.irqPend ||| 0b0001 } }
         exec .clearStep s = .next (if s.rt.running = true then
             fireStep { u with rt := { s.rt with cur := s.rt.cur + 1, clkAcc := 0, pulse := 0 } }
           else u))

/-- With CMD_READY = 1 and the view open, CLEAR_PATTERN empties every step and sets DIRTY; when not Running nothing
else changes; while Running the step pointer advances by one modulo 16, the clock restarts and the new step
fires, which is empty and plays nothing. (R203, R217.) -/
def Obligations.ClearPatternEmptiesAllSteps : Prop :=
  ∀ s : State, Open s →
    ∃ p : Program, p = { s.prog with seq := p.seq } ∧ (∀ j, p.slot j = { valid := false, index := 0 })
      ∧ (let u := { s with prog := p, ifc := { s.ifc with irqPend := s.ifc.irqPend ||| 0b0001 } }
         exec .clearPattern s = .next (if s.rt.running = true then
             fireStep { u with rt := { s.rt with cur := s.rt.cur + 1, clkAcc := 0, pulse := 0 } }
           else u)
         ∧ ∀ t, exec .clearPattern s = .next t → plays t.history = plays s.history)

/-- With CMD_READY = 1 and the view open: while Running CURSOR_NEXT, CURSOR_PREV and CURSOR_SET record STATE with
opcodes 0x18, 0x19, 0x1A and do nothing else; else they set the step pointer to cur + 1 modulo 16, cur - 1
modulo 16 and s, and change nothing else. (R218, R219, R220.) -/
def Obligations.CursorMoves : Prop :=
  ∀ s : State, Open s →
    (s.rt.running = true → exec .cursorNext s = .next (raise .state 0x18 s)
      ∧ exec .cursorPrev s = .next (raise .state 0x19 s)
      ∧ ∀ i, exec (.cursorSet i) s = .next (raise .state 0x1A s))
    ∧ (s.rt.running = false →
      (∃ c : BitVec 4, c.toNat = (s.rt.cur.toNat + 1) % 16
        ∧ exec .cursorNext s = .next { s with rt := { s.rt with cur := c } })
      ∧ (∃ c : BitVec 4, c.toNat = (s.rt.cur.toNat + 15) % 16
        ∧ exec .cursorPrev s = .next { s with rt := { s.rt with cur := c } })
      ∧ ∀ i, exec (.cursorSet i) s = .next { s with rt := { s.rt with cur := i } })

/-- With CMD_READY = 1 and the view open: SET_TEMPO with 60..140 writes the tempo and sets DIRTY, and with any other
value records RANGE with opcode 0x1B; SET_CLOCK with code 0..2 writes that mode and sets DIRTY, and with 3
records RANGE with opcode 0x1C; nothing else changes. (R221, R222.) -/
def Obligations.TempoAndClockMode : Prop :=
  ∀ s : State, Open s →
    (∀ x : Nat, x < 256 →
      (x < 60 ∨ 140 < x → exec (.setTempo x) s = .next (raise .range 0x1B s))
      ∧ (60 ≤ x → x ≤ 140 → ∃ b : BitVec 8, b.toNat = x ∧ exec (.setTempo x) s = .next { s with
          prog := { s.prog with tempo := b }
          ifc := { s.ifc with irqPend := s.ifc.irqPend ||| 0b0001 } }))
    ∧ ∀ x : BitVec 2,
      (x = 3 → exec (.setClock x) s = .next (raise .range 0x1C s))
      ∧ (x ≠ 3 → ∃ c : ClockMode, c.code = x ∧ exec (.setClock x) s = .next { s with
          prog := { s.prog with clock := c }
          ifc := { s.ifc with irqPend := s.ifc.irqPend ||| 0b0001 } })

/-- With CMD_READY = 1 and the view open: outside DualMode KEY_PRESS k does what ASSIGN k does; in DualMode it is
ignored while a key is held or a note sounds or drains, and else starts a note at floor(KEYFREQ[k] * 2^octave)
with accumulator, increment and elapsed count 0, records k as the held key, and changes nothing else. (R261.) -/
def Obligations.KeyPressPlaysOrEdits : Prop :=
  ∀ (k : BitVec 4) (s : State), Open s →
    (s.rt.dual = false → exec (.keyPress k) s = exec (.assign k) s)
    ∧ (s.rt.dual = true → s.rt.heldValid = true ∨ s.voice.active = true ∨ s.voice.busy = true →
        exec (.keyPress k) s = .next s)
    ∧ (s.rt.dual = true → s.rt.heldValid = false → s.voice.active = false → s.voice.busy = false →
        ∃ f : BitVec 32,
          exec (.keyPress k) s = .next { s with
            rt := { s.rt with heldValid := true, heldKey := k }
            voice := { s.voice with freq := f, acc := 0, inc := 0, elapsed := 0, active := true, busy := true } }
          ∧ (f.toNat : ℤ) = ⌊((s.prog.keyFreq k).toNat : ℝ) * (2 : ℝ) ^ s.prog.octave.toInt⌋)

/-- With CMD_READY = 1 and the view open: the release of the held key clears the held key and, when its note sounds,
clears ACTIVE and CMD_READY (in any state it does exactly what NOTE_OFF does); any other release leaves the
state as it was. (R262.) -/
def Obligations.KeyReleaseStopsTheHeldKey : Prop :=
  ∀ (k : BitVec 4) (s : State), Open s →
    (s.rt.heldValid = true → s.rt.heldKey = k → exec (.keyRelease k) s = exec .noteOff s)
    ∧ (s.rt.heldValid = true → s.rt.heldKey = k → s.voice.active = true → exec (.keyRelease k) s = .next { s with
        rt := { s.rt with heldValid := false, heldKey := 0 }
        voice := { s.voice with active := false }
        ifc := { s.ifc with cmdReady := false } })
    ∧ (s.rt.heldValid = false ∨ s.rt.heldKey ≠ k → exec (.keyRelease k) s = .next s)

/-- With CMD_READY = 1 and the view open: outside DualMode ENCODER leaves the state as it was; in DualMode it sets
the modulation value to min(100, max(1, P.modval + x)), sets DIRTY, and changes nothing else. (R263.) -/
def Obligations.EncoderUpdatesInDualMode : Prop :=
  ∀ (x : Int) (s : State), -32768 ≤ x → x ≤ 32767 → Open s →
    (s.rt.dual = false → exec (.encoder x) s = .next s)
    ∧ (s.rt.dual = true → ∃ m : BitVec 16,
        exec (.encoder x) s = .next { s with
          prog := { s.prog with modval := m }
          ifc := { s.ifc with irqPend := s.ifc.irqPend ||| 0b0001 } }
        ∧ (m.toNat : Int) = min 100 (max 1 ((s.prog.modval.toNat : Int) + x)))

/-- With CMD_READY = 1 and the view open: a level above 30 records RANGE with opcode 0x30 and does nothing else;
else VOLUME(x) is emitted, PLAY_LAST becomes kind 1, folder 0, argument x, and nothing else changes: neither
PLAY_COUNT nor DIRTY. (R281.) -/
def Obligations.SetVolumeRequests : Prop :=
  ∀ (x : Nat) (s : State), x < 256 → Open s →
    (30 < x → exec (.setVolume x) s = .next (raise .range 0x30 s))
    ∧ (x ≤ 30 → exec (.setVolume x) s = .next { s with
        ifc := { s.ifc with playLast := { kind := .volume, folder := 0, arg := BitVec.ofNat 8 x } }
        history := (s.now, .volume (BitVec.ofNat 8 x)) :: s.history })

/-- Over all commands in all states: folder, key frequencies, interrupt enables, cycle number, input queue and read
value are never changed; every other Program field, every element of the runtime (the guard, at DUAL_DURING_RUN
= 0, by none but SEQ_OPEN, SEQ_EXIT and STOP), the voice's registers, CMD_READY, PLAY_LAST and the three
counters are changed only by the commands listed for each; the error record only by a refused command; the
pending bits and the event history only by the commands listed and by a refused one. (Cycle number, stamp,
queue, read value and history are fields of the model's own: logs 1 to 4.) (R57, R58, R304, R307.) -/
def Obligations.CommandFrame : Prop :=
  ∀ (i : Instr) (s t : State), exec i s = .next t →
    t.prog.folder = s.prog.folder ∧ t.prog.keyfreq = s.prog.keyfreq ∧ t.ifc.irqEn = s.ifc.irqEn
    ∧ t.cycle = s.cycle ∧ t.now = s.now ∧ t.pending = s.pending ∧ t.readData = s.readData
    ∧ (i.opc ≠ .setWave → t.prog.wave = s.prog.wave)
    ∧ (i.opc ≠ .setTempo → t.prog.tempo = s.prog.tempo)
    ∧ (i.opc ≠ .setClock → t.prog.clock = s.prog.clock)
    ∧ (i.opc ≠ .setTarget → t.prog.target = s.prog.target)
    ∧ (i.opc ≠ .setOctave → t.prog.octave = s.prog.octave)
    ∧ (i.opc ∉ [Opc.setTarget, .modUpdate, .encoder] → t.prog.modval = s.prog.modval)
    ∧ (i.opc ∉ [Opc.assign, .clearStep, .clearPattern, .keyPress] → t.prog.seq = s.prog.seq)
    ∧ (i.opc ∉ [Opc.seqOpen, .seqExit] → t.rt.view = s.rt.view)
    ∧ (i.opc ∉ [Opc.seqOpen, .seqExit, .run, .stop] → t.rt.running = s.rt.running)
    ∧ (i.opc ∉ [Opc.seqOpen, .seqExit, .toggleDual] → t.rt.dual = s.rt.dual)
    ∧ (i.opc ∉ [Opc.seqOpen, .run, .clearStep, .clearPattern, .cursorNext, .cursorPrev, .cursorSet] →
        t.rt.cur = s.rt.cur)
    ∧ (i.opc ∉ [Opc.seqOpen, .seqExit, .noteOff, .toggleDual, .keyPress, .keyRelease] →
        t.rt.heldValid = s.rt.heldValid ∧ t.rt.heldKey = s.rt.heldKey)
    ∧ (i.opc ∉ [Opc.seqOpen, .seqExit, .noteOn, .noteOff, .toggleDual, .keyPress, .keyRelease] → t.voice = s.voice)
    ∧ (i.opc ∉ [Opc.seqOpen, .noteOn, .keyPress] → t.voice.freq = s.voice.freq ∧ t.voice.acc = s.voice.acc
        ∧ t.voice.inc = s.voice.inc ∧ t.voice.elapsed = s.voice.elapsed ∧ t.voice.busy = s.voice.busy)
    ∧ (i.opc ∉ [Opc.seqExit, .noteOff, .toggleDual, .keyRelease] → t.ifc.cmdReady = s.ifc.cmdReady)
    ∧ (i.opc ∉ [Opc.seqOpen, .seqExit, .stop, .toggleDual] →
        t.rt.blinkOn = s.rt.blinkOn ∧ t.rt.blinkCnt = s.rt.blinkCnt)
    ∧ (i.opc ∉ [Opc.seqOpen, .seqExit, .run, .stop, .clearStep, .clearPattern] →
        t.rt.clkAcc = s.rt.clkAcc ∧ t.rt.pulse = s.rt.pulse
        ∧ t.rt.syncLevel = s.rt.syncLevel ∧ t.rt.syncCnt = s.rt.syncCnt)
    ∧ (i.opc ∉ [Opc.seqOpen, .seqExit, .stop] → t.rt.guard = s.rt.guard)
    ∧ (i.opc ∉ [Opc.run, .assign, .clearStep, .keyPress, .setVolume] → t.ifc.playLast = s.ifc.playLast)
    ∧ (i.opc ∉ [Opc.run, .assign, .clearStep, .keyPress] → t.ifc.playCount = s.ifc.playCount)
    ∧ (i.opc ∉ [Opc.run, .clearStep, .clearPattern] →
        t.ifc.midiCount = s.ifc.midiCount ∧ t.ifc.syncCount = s.ifc.syncCount)
    ∧ (¬ Refused i s t →
        t.ifc.err = s.ifc.err ∧ t.ifc.lastCode = s.ifc.lastCode ∧ t.ifc.lastOpc = s.ifc.lastOpc
        ∧ (i.opc ∈ [Opc.nop, .noteOn, .noteOff, .seqOpen, .seqExit, .stop, .toggleDual, .cursorNext, .cursorPrev,
            .cursorSet, .keyRelease, .setVolume] → t.ifc.irqPend = s.ifc.irqPend)
        ∧ (i.opc ∉ [Opc.noteOff, .seqExit, .toggleDual, .keyRelease, .run, .assign, .clearStep, .clearPattern,
            .keyPress, .setVolume] → t.history = s.history))

/-- A command sets DIRTY exactly when it is one of the mutating commands and is not refused, STEP exactly when it
fires a step event and is not refused, ERR exactly when it is refused, never JOIN, and clears no bit; a register
read or write (of any but CMD) sets ERR exactly when it is refused and sets no other bit, PROG_CFG and the other
Program registers included, and only a write of IRQ_PEND clears bits, those it names; the timebase tick can set
only STEP, the audio tick sets only JOIN and that exactly on a drain tick. (R283, R289, R305.) -/
def Obligations.IrqPendSources : Prop :=
  (∀ (i : Instr) (s t : State), exec i s = .next t →
      (t.ifc.irqPend.getLsbD 0 = true ↔ s.ifc.irqPend.getLsbD 0 = true ∨ (dirties i s = true ∧ ¬ Refused i s t))
      ∧ (t.ifc.irqPend.getLsbD 1 = true ↔ s.ifc.irqPend.getLsbD 1 = true ∨ (fires i s = true ∧ ¬ Refused i s t))
      ∧ t.ifc.irqPend.getLsbD 2 = s.ifc.irqPend.getLsbD 2
      ∧ (t.ifc.irqPend.getLsbD 3 = true ↔ s.ifc.irqPend.getLsbD 3 = true ∨ Refused i s t))
    ∧ (∀ (a : BitVec 8) (z : AccessSize) (s : State),
      (∀ b < 3, (hostRead a z s).ifc.irqPend.getLsbD b = s.ifc.irqPend.getLsbD b)
      ∧ ((hostRead a z s).ifc.irqPend.getLsbD 3 = true ↔ s.ifc.irqPend.getLsbD 3 = true
          ∨ z ≠ .bytes 0b1111 ∨ a.toNat % 4 ≠ 0 ∨ 0xDC ≤ a.toNat))
    ∧ (∀ (a : BitVec 8) (z : AccessSize) (v : Word) (s t : State), ¬ (z = .bytes 0b1111 ∧ a = 0x04) →
      hostWrite a z v s = .next t →
      (∀ b < 3, t.ifc.irqPend.getLsbD b =
        (s.ifc.irqPend.getLsbD b && !decide (z = .bytes 0b1111 ∧ a = 0x10 ∧ v.getLsbD b = true)))
      ∧ (t.ifc.irqPend.getLsbD 3 = true ↔
          (s.ifc.irqPend.getLsbD 3 = true ∧ ¬ (z = .bytes 0b1111 ∧ a = 0x10 ∧ v.getLsbD 3 = true))
          ∨ ∃ c, t = raise c 0xFF s))
    ∧ ∀ s : State,
      ((timebaseTick s).ifc.irqPend.getLsbD 0 = s.ifc.irqPend.getLsbD 0
        ∧ (timebaseTick s).ifc.irqPend.getLsbD 2 = s.ifc.irqPend.getLsbD 2
        ∧ (timebaseTick s).ifc.irqPend.getLsbD 3 = s.ifc.irqPend.getLsbD 3
        ∧ ((timebaseTick s).ifc.irqPend.getLsbD 1 = true ↔ s.ifc.irqPend.getLsbD 1 = true
            ∨ (s.rt.view = true ∧ s.rt.running = true ∧ s.rt.pulse = 5
              ∧ s.rt.clkAcc.toNat + s.prog.tempo.toNat ≥ 2500000)))
      ∧ (audioTick s).ifc.irqPend = if s.voice.busy = true ∧ s.voice.active = false then s.ifc.irqPend ||| 0b0100
          else s.ifc.irqPend

/-- While a note sounds or drains with the view open, no command changes V.freq, the accumulator or the elapsed
count, and none sets ACTIVE; in particular a second NOTE_ON leaves the first one's frequency. (R153, R177,
R261.) -/
def Obligations.MonophonyLaw : Prop :=
  ∀ (i : Instr) (s t : State), s.rt.view = true → (s.voice.active = true ∨ s.voice.busy = true) → exec i s = .next t →
    t.voice.freq = s.voice.freq ∧ t.voice.acc = s.voice.acc ∧ t.voice.elapsed = s.voice.elapsed
    ∧ (t.voice.active = true → s.voice.active = true)

/-- Every register is found at its offset of R81, each of the 55 named with its offset; two registers share no
offset; an offset reaches a register exactly when it is a multiple of 4 below 0xDC. (R81, R84, R85.) -/
def Obligations.RegisterMapCoversTheWindow : Prop :=
  (∀ r : Reg, Reg.ofOffset? (BitVec.ofNat 8 r.offset) = some r ∧ r.offset < 0xDC)
    ∧ (∀ (a : BitVec 8) (r : Reg), Reg.ofOffset? a = some r → r.offset = a.toNat)
    ∧ (∀ a : BitVec 8, (∃ r, Reg.ofOffset? a = some r) ↔ a.toNat % 4 = 0 ∧ a.toNat < 0xDC)
    ∧ Reg.offset .id = 0x00 ∧ Reg.offset .cmd = 0x04 ∧ Reg.offset .status = 0x08 ∧ Reg.offset .err = 0x0C
    ∧ (∀ i, Reg.offset (.seq i) = 0x20 + 4 * i.toNat) ∧ (∀ k, Reg.offset (.keyFreq k) = 0x60 + 4 * k.toNat)
    ∧ Reg.offset .irqPend = 0x10 ∧ Reg.offset .irqEn = 0x14 ∧ Reg.offset .progCfg = 0x18
    ∧ Reg.offset .progModval = 0x1C ∧ Reg.offset .vFreq = 0xA0 ∧ Reg.offset .vAcc = 0xA4 ∧ Reg.offset .vInc = 0xA8
    ∧ Reg.offset .vElapsed = 0xAC ∧ Reg.offset .pwmDuty = 0xB0 ∧ Reg.offset .display = 0xB4
    ∧ Reg.offset .playLast = 0xB8 ∧ Reg.offset .playCount = 0xBC ∧ Reg.offset .midiCount = 0xC0
    ∧ Reg.offset .syncCount = 0xC4 ∧ Reg.offset .seqTimer = 0xC8 ∧ Reg.offset .blinkCnt = 0xCC
    ∧ Reg.offset .syncCnt = 0xD0 ∧ Reg.offset .pulseIdx = 0xD4 ∧ Reg.offset .dualGuard = 0xD8

/-- The fields of STATUS (R33), ERR (R34), PROG_CFG (R37), SEQ[i] (R39), PLAY_LAST (R47) and PULSE_IDX (R54) are the
named state elements at the named bits; ID and CMD read 0x50415407 and 0 in every state (R31, R32); each
register of one field (R35, R36, R38, R40-R45, R48-R53, R55) shows its element; reserved bits read 0; and the
codes of waveform, target and clock mode are those of R61. (DISPLAY is OutputLevels'.) (R31, R32, R33, R34, R37,
R39, R40, R47, R48, R54, R61, R89.) -/
def Obligations.RegisterLayouts : Prop :=
  ∀ s : State,
    (readReg .status s).toNat =
        s.rt.view.toNat + 2 * s.rt.running.toNat + 4 * s.rt.dual.toNat + 8 * s.voice.active.toNat
          + 16 * s.voice.busy.toNat + 32 * s.ifc.cmdReady.toNat + 64 * s.rt.heldValid.toNat
          + 128 * s.rt.blinkOn.toNat + 2 ^ 8 * s.rt.heldKey.toNat + 2 ^ 12 * s.rt.cur.toNat
          + 2 ^ 16 * (s.rt.view && s.rt.running && decide (s.prog.clock = .syncPulse) && s.rt.syncLevel).toNat
    ∧ (readReg .err s).toNat = s.ifc.err.toNat + 2 ^ 8 * s.ifc.lastCode.toNat + 2 ^ 16 * s.ifc.lastOpc.toNat
    ∧ (readReg .progCfg s).toNat =
        s.prog.folder.toNat + 2 ^ 8 * s.prog.tempo.toNat + 2 ^ 16 * s.prog.wave.code.toNat
          + 2 ^ 18 * s.prog.clock.code.toNat + 2 ^ 20 * s.prog.target.code.toNat + 2 ^ 24 * s.prog.octave.toNat
    ∧ (∀ i, (readReg (.seq i) s).toNat =
        if (s.prog.slot i).valid = true then 2 ^ 8 + (s.prog.slot i).index.toNat else 0)
    ∧ (readReg .playLast s).toNat = s.ifc.playLast.arg.toNat + 2 ^ 8 * s.ifc.playLast.folder.toNat
          + (if s.ifc.playLast.kind = .volume then 2 ^ 16 else 0)
    ∧ (readReg .pulseIdx s).toNat = s.rt.pulse.toNat + 8 * s.rt.syncLevel.toNat
    ∧ readReg .id s = 0x50415407 ∧ readReg .cmd s = 0
    ∧ (readReg .irqPend s).toNat = s.ifc.irqPend.toNat ∧ (readReg .irqEn s).toNat = s.ifc.irqEn.toNat
    ∧ (readReg .progModval s).toNat = s.prog.modval.toNat
    ∧ (∀ k, (readReg (.keyFreq k) s).toNat = (s.prog.keyFreq k).toNat)
    ∧ readReg .vFreq s = s.voice.freq ∧ readReg .vAcc s = s.voice.acc ∧ readReg .vInc s = s.voice.inc
    ∧ readReg .vElapsed s = s.voice.elapsed ∧ (readReg .pwmDuty s).toNat = s.voice.duty.toNat
    ∧ readReg .playCount s = s.ifc.playCount ∧ readReg .midiCount s = s.ifc.midiCount
    ∧ readReg .syncCount s = s.ifc.syncCount ∧ readReg .seqTimer s = s.rt.clkAcc
    ∧ readReg .blinkCnt s = s.rt.blinkCnt ∧ readReg .syncCnt s = s.rt.syncCnt ∧ readReg .dualGuard s = s.rt.guard
    ∧ [Wave.sine, .square, .triangle, .sawtooth].map Wave.code = [0, 1, 2, 3]
    ∧ [Target.disabled, .cutoff, .attackEnvelope, .envelopeWave, .filterMod, .filterSweep, .pitchBend].map Target.code
        = [0, 1, 2, 3, 4, 5, 6]
    ∧ [ClockMode.none, .midiClock, .syncPulse].map ClockMode.code = [0, 1, 2]

/-- A full-word read of a mapped aligned offset answers that register's value and changes no state element; a read
that is not four bytes wide, misaligned or unmapped records BUS with LAST_OPC 0xFF, changes nothing else and
answers 0. Neither depends on CMD_READY or the view. (readData, the value answered, is the model's: log 4.)
(R83, R84, R85, R86, R282.) -/
def Obligations.ReadsHaveNoEffect : Prop :=
  ∀ (a : BitVec 8) (z : AccessSize) (s : State),
    (∀ r, z = .bytes 0b1111 → Reg.ofOffset? a = some r → hostRead a z s = { s with readData := some (readReg r s) })
    ∧ (z ≠ .bytes 0b1111 ∨ a.toNat % 4 ≠ 0 ∨ 0xDC ≤ a.toNat →
        hostRead a z s = { raise .bus 0xFF s with readData := some 0 })

/-- A write that is not four bytes wide, misaligned or unmapped, and every write to one of the 17 read-only
registers, records BUS with LAST_OPC 0xFF and changes nothing else, whatever the value written. (R83, R84, R85,
R87, R292.) -/
def Obligations.BadWritesRecordBus : Prop :=
  ∀ (a : BitVec 8) (z : AccessSize) (v : Word) (s : State),
    (z ≠ .bytes 0b1111 ∨ a.toNat % 4 ≠ 0 ∨ 0xDC ≤ a.toNat → hostWrite a z v s = .next (raise .bus 0xFF s))
    ∧ ∀ r ∈ [Reg.id, .status, .vFreq, .vAcc, .vInc, .vElapsed, .pwmDuty, .display, .playLast, .playCount, .midiCount,
          .syncCount, .seqTimer, .blinkCnt, .syncCnt, .pulseIdx, .dualGuard],
        hostWrite (BitVec.ofNat 8 r.offset) AccessSize.word v s = .next (raise .bus 0xFF s)

/-- A word write of v to PROG_CFG: with tempo outside 60..140, clock code 3, target code 7 or octave -4 it records
RANGE; else, when the waveform changes while a note sounds or drains, HAZARD, both with LAST_OPC 0xFF and
nothing else; else exactly folder, tempo, waveform, clock, target and octave take the fields of v and nothing
else changes: no clearing of the modulation value, no DIRTY. (R284.) -/
def Obligations.ProgCfgWriteIsAllOrNothing : Prop :=
  ∀ (v : Word) (s : State),
    (let te := (v.extractLsb' 8 8).toNat
     let wa := v.extractLsb' 16 2
     let cl := v.extractLsb' 18 2
     let tg := v.extractLsb' 20 3
     let oc := v.extractLsb' 24 3
     let illegal := te < 60 ∨ 140 < te ∨ cl = 3 ∨ tg = 7 ∨ oc = 0b100
     let hazard := wa ≠ s.prog.wave.code ∧ (s.voice.active = true ∨ s.voice.busy = true)
     (illegal → hostWrite 0x18 AccessSize.word v s = .next (raise .range 0xFF s))
     ∧ (¬ illegal → hazard → hostWrite 0x18 AccessSize.word v s = .next (raise .hazard 0xFF s))
     ∧ (¬ illegal → ¬ hazard → ∃ p : Program, hostWrite 0x18 AccessSize.word v s = .next { s with prog := p }
        ∧ p.folder = v.extractLsb' 0 8 ∧ p.tempo.toNat = te ∧ p.wave.code = wa ∧ p.clock.code = cl
        ∧ p.target.code = tg ∧ p.octave = oc
        ∧ p.modval = s.prog.modval ∧ p.seq = s.prog.seq ∧ p.keyfreq = s.prog.keyfreq))

/-- A word write of v to PROG_MODVAL stores v[15:0]; to SEQ[i] stores valid = v[8] and index = v[7:0] (0 when v[8] =
0) in step i only; to KEYFREQ[k] stores v[23:0] for key k only; to IRQ_EN stores v[3:0], and the IRQ line is
then high exactly when a bit is pending and enabled by v; no other state element changes. (R285, R286, R287,
R290.) -/
def Obligations.ProgramRegisterWrites : Prop :=
  ∀ (v : Word) (s : State),
    hostWrite 0x1C AccessSize.word v s = .next { s with prog := { s.prog with modval := v.extractLsb' 0 16 } }
    ∧ (∃ t, hostWrite 0x14 AccessSize.word v s = .next t
        ∧ t = { s with ifc := { s.ifc with irqEn := v.extractLsb' 0 4 } }
        ∧ (irqLine t = true ↔ ∃ b < 4, s.ifc.irqPend.getLsbD b = true ∧ v.getLsbD b = true))
    ∧ (∀ i : BitVec 4, ∃ p : Program,
        hostWrite (BitVec.ofNat 8 (0x20 + 4 * i.toNat)) AccessSize.word v s = .next { s with prog := p }
        ∧ p = { s.prog with seq := p.seq }
        ∧ ∀ j, p.slot j = if j = i then
            { valid := v.getLsbD 8, index := if v.getLsbD 8 = true then v.extractLsb' 0 8 else 0 } else s.prog.slot j)
    ∧ ∀ k : BitVec 4, ∃ p : Program,
        hostWrite (BitVec.ofNat 8 (0x60 + 4 * k.toNat)) AccessSize.word v s = .next { s with prog := p }
        ∧ p = { s.prog with keyfreq := p.keyfreq }
        ∧ ∀ j, p.keyFreq j = if j = k then v.extractLsb' 0 24 else s.prog.keyFreq j

/-- A word write of v to ERR clears exactly the sticky bits set in v, clears LAST_CODE and LAST_OPC exactly when no
sticky bit is left, and touches nothing else, IRQ_PEND included; a word write of v to IRQ_PEND clears exactly
the pending bits set in v and touches nothing else. Neither raises an error. (R288, R289.) -/
def Obligations.ClearingWrites : Prop :=
  ∀ (v : Word) (s : State),
    (∃ e : BitVec 6, (∀ b < 6, e.getLsbD b = (s.ifc.err.getLsbD b && !v.getLsbD b))
      ∧ hostWrite 0x0C AccessSize.word v s = .next { s with ifc := { s.ifc with
          err := e, lastCode := (if e = 0 then 0 else s.ifc.lastCode),
          lastOpc := (if e = 0 then 0 else s.ifc.lastOpc) } })
    ∧ ∃ p : BitVec 4, (∀ b < 4, p.getLsbD b = (s.ifc.irqPend.getLsbD b && !v.getLsbD b))
      ∧ hostWrite 0x10 AccessSize.word v s = .next { s with ifc := { s.ifc with irqPend := p } }

/-- After an accepted word write of v (one that logs no error), reading the same register returns v masked to its
defined bits: PROG_CFG, PROG_MODVAL, KEYFREQ[k], IRQ_EN, and SEQ[i], where INDEX is also cleared when VALID is
0; and each of these registers keeps its value through every cycle with RST low in which the host writes neither
CMD nor that register. (The host's coming inputs as a queue are the model's: log 1.) (R293.) -/
def Obligations.ReadBackLaw : Prop :=
  ∀ (v : Word) (s t : State),
    (hostWrite 0x18 AccessSize.word v s = .next t → t.history = s.history → readReg .progCfg t = v &&& 0x077FFFFF)
    ∧ (hostWrite 0x1C AccessSize.word v s = .next t → readReg .progModval t = v &&& 0x0000FFFF)
    ∧ (hostWrite 0x14 AccessSize.word v s = .next t → readReg .irqEn t = v &&& 0x0000000F)
    ∧ (∀ i : BitVec 4, hostWrite (BitVec.ofNat 8 (0x20 + 4 * i.toNat)) AccessSize.word v s = .next t →
        readReg (.seq i) t = if v.getLsbD 8 = true then v &&& 0x000001FF else 0)
    ∧ (∀ k : BitVec 4, hostWrite (BitVec.ofNat 8 (0x60 + 4 * k.toNat)) AccessSize.word v s = .next t →
        readReg (.keyFreq k) t = v &&& 0x00FFFFFF)
    ∧ ∀ r : Reg, (r = .progCfg ∨ r = .progModval ∨ r = .irqEn ∨ (∃ i, r = .seq i) ∨ ∃ k, r = .keyFreq k) →
        (nextInput s).rst = false →
        (∀ a z x, (nextInput s).access = some (.write a z x) → a.toNat ≠ 0x04 ∧ a.toNat ≠ r.offset) →
        step s = .next t → readReg r t = readReg r s

/-- In every state: IRQ is high exactly when some bit is both pending and enabled; SYNC_OUT is view AND running AND
clock = SyncPulse AND sync level; DUTY is V.duty; DISP bit i is lit exactly when the view is open and step i is
filled, or is the current step and the block is Running, in DualMode, or in the on phase of the blink; the
DISPLAY register shows DISP; DUTY_STB is high exactly in a cycle that emitted a PWM event; and the playback port
carries exactly the play and volume requests and the MIDI port exactly the bytes the cycle emitted, as many (as
lists, log 16), each byte 0xF8 in every state with HistoryOk. (R238, R240, R306, R320, R322, R323, R324.) -/
def Obligations.OutputLevels : Prop :=
  ∀ s : State,
    ((pins s).irq = true ↔ ∃ b < 4, s.ifc.irqPend.getLsbD b = true ∧ s.ifc.irqEn.getLsbD b = true)
    ∧ ((pins s).syncOut = true ↔
        s.rt.view = true ∧ s.rt.running = true ∧ s.prog.clock = .syncPulse ∧ s.rt.syncLevel = true)
    ∧ (pins s).duty = s.voice.duty
    ∧ (∀ i : BitVec 4, (pins s).disp.getLsbD i.toNat = true ↔ s.rt.view = true
        ∧ ((s.prog.slot i).valid = true
          ∨ (i = s.rt.cur ∧ (s.rt.running = true ∨ s.rt.dual = true ∨ s.rt.blinkOn = true))))
    ∧ readReg .display s = (pins s).disp.setWidth 32
    ∧ ((pins s).dutyStb = true ↔ ∃ d, .pwm d ∈ cycleEvents s)
    ∧ (∀ (f a : BitVec 8) (k : PlayKind), { kind := k, folder := f, arg := a } ∈ (pins s).playback ↔
        (k = .play ∧ .play f a ∈ cycleEvents s) ∨ (k = .volume ∧ f = 0 ∧ .volume a ∈ cycleEvents s))
    ∧ (∀ b : Byte, b ∈ (pins s).midi ↔ .midi b ∈ cycleEvents s)
    ∧ (∀ b : Byte, (pins s).midi.count b = (cycleEvents s).count (.midi b))
    ∧ (HistoryOk s → ∀ b ∈ (pins s).midi, b = 0xF8)

/-- From every state with HistoryOk, in a cycle with RST low: the cycle emits DISP(D) for D the grid after it when
that differs from the grid before it, and no other DISP event. (That the cycle after a reset compares with the
reset grid is the model's reading: log 6.) (R241, R325.) -/
def Obligations.DisplayEventOnChange : Prop :=
  ∀ s t : State, HistoryOk s → (nextInput s).rst = false → step s = .next t →
    ∀ d, .disp d ∈ cycleEvents t ↔ d = grid t ∧ grid t ≠ grid s

/-- With the view closed the tick changes nothing. With it open the sync countdown falls by one if above 0 and takes
the sync level down when it reaches 0; then, while Running, the tempo is added to the clock accumulator and a
crossing of 2,500,000 is a clock pulse, the sixth of which is the step event of the next step; when not Running
and not in DualMode the blink counter advances, its phase ending at 750,000 (on) or 250,000 (off); last the
guard falls by one if above 0; nothing else changes. (R230, R231, R232, R233, R234.) -/
def Obligations.TimebaseTickRules : Prop :=
  let sync : Runtime → Runtime := fun r => { r with
    syncCnt := (if r.syncCnt = 0 then 0 else r.syncCnt - 1), syncLevel := (if r.syncCnt = 1 then false else r.syncLevel) }
  let guard : State → State := fun s => { s with
    rt := { s.rt with guard := if s.rt.guard = 0 then 0 else s.rt.guard - 1 } }
  (∀ s : State, s.rt.view = false → timebaseTick s = s)
    ∧ (∀ s : State, s.rt.view = true → s.rt.running = false → s.rt.dual = true →
        timebaseTick s = guard { s with rt := sync s.rt })
    ∧ (∀ s : State, s.rt.view = true → s.rt.running = false → s.rt.dual = false →
        timebaseTick s = guard { s with rt :=
          if s.rt.blinkCnt.toNat + 1 ≥ (if s.rt.blinkOn = true then 750000 else 250000) then
            { sync s.rt with blinkOn := !s.rt.blinkOn, blinkCnt := 0 }
          else { sync s.rt with blinkCnt := s.rt.blinkCnt + 1 } })
    ∧ ∀ s : State, s.rt.view = true → s.rt.running = true → s.rt.clkAcc.toNat < 2500000 →
        timebaseTick s = guard (
          let n := s.rt.clkAcc + s.prog.tempo.setWidth 32
          if n.toNat < 2500000 then { s with rt := { sync s.rt with clkAcc := n } }
          else if s.rt.pulse = 5 then
            fireStep { s with rt := { sync s.rt with clkAcc := n - 2500000, pulse := 0, cur := s.rt.cur + 1 } }
          else pulseEvent { s with rt := { sync s.rt with clkAcc := n - 2500000, pulse := s.rt.pulse + 1 } })

/-- From any Running state with legal clock, pulse and tempo and an idle host, after n cycles containing k timebase
ticks the block is still Running and, with total = clkAcc + 2,500,000 * pulse + k * tempo, the accumulator is
total mod 2,500,000, the pulse (total div 2,500,000) mod 6, and the step has advanced total div 15,000,000 times
modulo 16; so step j after RUN fires on tick ceil(15,000,000 j / tempo). (The host's coming inputs as a queue
are the model's: log 1.) (R230, R234, R235, R371.) -/
def Obligations.StepPeriodLaw : Prop :=
  ∀ (s t : State) (n : Nat), s.pending = [] → s.rt.view = true → s.rt.running = true → s.rt.pulse.toNat ≤ 5 →
    s.rt.clkAcc.toNat < 2500000 → s.prog.tempo.toNat ≤ 140 → Sys2Proof.core.run n s = .next t →
    (let total := s.rt.clkAcc.toNat + 2500000 * s.rt.pulse.toNat + timebaseTicks s.cycle n * s.prog.tempo.toNat
     t.rt.view = true ∧ t.rt.running = true ∧ t.prog = s.prog
     ∧ t.rt.clkAcc.toNat = total % 2500000
     ∧ t.rt.pulse.toNat = total / 2500000 % 6
     ∧ t.rt.cur.toNat = (s.rt.cur.toNat + total / 15000000) % 16)
    ∧ ∀ j : Nat, 1 ≤ j → 0 < s.prog.tempo.toNat → s.rt.clkAcc = 0 → s.rt.pulse = 0 →
        (timebaseTicks s.cycle n + 1 = (15000000 * j + s.prog.tempo.toNat - 1) / s.prog.tempo.toNat →
          t.rt.cur.toNat = (s.rt.cur.toNat + (j - 1)) % 16)
        ∧ (timebaseTicks s.cycle n = (15000000 * j + s.prog.tempo.toNat - 1) / s.prog.tempo.toNat →
          t.rt.cur.toNat = (s.rt.cur.toNat + j) % 16)

/-- From any Running state with legal clock, pulse and tempo and an idle host, the play requests emitted in n cycles
are exactly those of the steps cur + 1, cur + 2, ... (modulo 16) reached in them, one PLAY(folder, index) for
each filled step, none for an empty one, in that order. (The host's coming inputs as a queue are the model's:
log 1.) (R201, R234, R242.) -/
def Obligations.PatternPassLaw : Prop :=
  ∀ (s t : State) (n : Nat), s.pending = [] → s.rt.view = true → s.rt.running = true → s.rt.pulse.toNat ≤ 5 →
    s.rt.clkAcc.toNat < 2500000 → s.prog.tempo.toNat ≤ 140 → Sys2Proof.core.run n s = .next t →
    (let fired :=
      (s.rt.clkAcc.toNat + 2500000 * s.rt.pulse.toNat + timebaseTicks s.cycle n * s.prog.tempo.toNat) / 15000000
     plays t.history = plays s.history
      ++ (List.range fired).filterMap fun j =>
          slotPlay s.prog.folder (s.prog.slot (s.rt.cur + BitVec.ofNat 4 (j + 1))))

/-- From an Idle state whose blink was just reset, with an idle host, after n cycles containing k timebase ticks the
cursor is in its on phase exactly when k mod 1,000,000 is below 750,000, the blink counter is the time since the
phase began, and nothing else of the runtime has changed. (The host's coming inputs as a queue are the model's:
log 1.) (R205, R230, R232.) -/
def Obligations.BlinkLaw : Prop :=
  ∀ (s t : State) (n : Nat), s.pending = [] → s.rt.view = true → s.rt.running = false → s.rt.dual = false →
    s.rt.blinkOn = true → s.rt.blinkCnt = 0 → s.rt.syncCnt = 0 → s.rt.guard = 0 → Sys2Proof.core.run n s = .next t →
    (let k := timebaseTicks s.cycle n % 1000000
     t.rt = { s.rt with blinkOn := t.rt.blinkOn, blinkCnt := t.rt.blinkCnt }
     ∧ (t.rt.blinkOn = true ↔ k < 750000)
     ∧ t.rt.blinkCnt.toNat = if k < 750000 then k else k - 750000)

/-- With a note sounding, the audio tick sets V.inc to floor(f * 2^24 * m / 20000) mod 2^32 for the exact real
multiplier m, advances the accumulator by it modulo 2^32, sets the duty to floor(T[wave][idx] * a / 2) for the
exact real amplitude a of the target (Disabled, Cutoff, AttackEnvelope, EnvelopeWave, FilterMod, FilterSweep,
PitchBend), emits PWM of it, adds one to the elapsed count modulo 2^32, and changes nothing else. With a note
draining the audio tick is DrainTick: duty 0 and PWM(0), BUSY cleared, CMD_READY and JOIN set, nothing else;
with none sounding or draining it changes nothing. The multiplier is above 0.79. (R165, R167, R174 and R175
restate lines of R162.) (R160, R161, R162, R163, R164, R166, R168, R169, R170, R171, R172, R173.) -/
def Obligations.GenerateTickIsExact : Prop :=
  ∀ s : State,
    (s.voice.active = true →
     let t := audioTick s
     let f := s.voice.freq.toNat
     let mv := s.prog.modval.toNat
     let e := s.voice.elapsed.toNat
     let idx := t.voice.acc.extractLsb' 24 8
     (t.voice.inc.toNat : ℤ) = ⌊(f : ℝ) * 2 ^ 24 * incMult s.prog.target mv e / 20000⌋ % 2 ^ 32
     ∧ t.voice.acc.toNat = (s.voice.acc.toNat + t.voice.inc.toNat) % 2 ^ 32
     ∧ (t.voice.duty.toNat : ℤ) = ⌊(rom s.prog.wave idx : ℝ) * amp s.prog.target mv e f idx.toNat * (1 / 2)⌋
     ∧ t.voice.elapsed.toNat = (e + 1) % 2 ^ 32
     ∧ t = { s with
        voice := { s.voice with
          inc := t.voice.inc, acc := t.voice.acc, duty := t.voice.duty, elapsed := t.voice.elapsed }
        history := (s.now, .pwm t.voice.duty) :: s.history })
    ∧ 79 / 100 < incMult s.prog.target s.prog.modval.toNat s.voice.elapsed.toNat
    ∧ (s.voice.busy = true → s.voice.active = false → audioTick s = { s with
        voice := { s.voice with duty := 0, busy := false }
        ifc := { s.ifc with cmdReady := true, irqPend := s.ifc.irqPend ||| 0b0100 }
        history := (s.now, .pwm 0) :: s.history })
    ∧ (s.voice.busy = false → s.voice.active = false → audioTick s = s)

/-- For each of the four waveforms and each index 0..255, the ROM entry is round_even of the exact real value of
R131 to R134. (R131, R132, R133, R134.) -/
def Obligations.WavetableIsExact : Prop :=
  ∀ (w : Wave) (i : BitVec 8), (rom w i : ℤ) = roundEven (tableValue w i.toNat)

/-- From every state in which a note drains (CMD_READY = 0, BUSY = 1, ACTIVE = 0), whatever accesses the host makes
and with RST low, CMD_READY stays 0 and the voice stays draining until the next audio cycle, at most 1000 cycles
away, at the end of which CMD_READY = 1, BUSY = 0, the duty is 0, and JOIN is pending. (The host's coming inputs
as a queue are the model's: log 1.) (R160, R161, R360, R372.) -/
def Obligations.JoinWithinOneAudioPeriod : Prop :=
  ∀ s : State, s.ifc.cmdReady = false → s.voice.busy = true → s.voice.active = false →
    (∀ x ∈ s.pending, x.rst = false) →
    (∀ m, m < 1000 - s.cycle % 1000 → ∃ t, Sys2Proof.core.run m s = .next t
        ∧ t.ifc.cmdReady = false ∧ t.voice = s.voice)
    ∧ ∃ t, Sys2Proof.core.run (1000 - s.cycle % 1000) s = .next t
      ∧ t.ifc.cmdReady = true ∧ t.voice = { s.voice with busy := false, duty := 0 }
      ∧ t.ifc.irqPend.getLsbD 2 = true
end

