-- ==== Sys2Proof/Laws/ExactSeparation.lean ====
section
/-! SUPPORT. How far the reals of 41_voice.md R170-R173 stay from the integers their floors are compared with: a linear
form in one sine of a rational angle is zero or bounded below by its norm, and so is a multiple of a root of a power of
two. These bounds say after how many rounds Machine/Exact.lean's `refine` must stop. -/

namespace Sys2Proof.Machine.Exact

open Finset IntermediateField

/-- The sine of `2 pi t / l` through the powers of a primitive root of unity. -/
theorem root_pow_sub (l t : ℕ) (hl : 0 < l) (ht : t ≤ l) :
    Complex.exp (2 * Real.pi * Complex.I / l) ^ t - Complex.exp (2 * Real.pi * Complex.I / l) ^ (l - t)
      = 2 * Complex.I * (Real.sin (2 * Real.pi * t / l) : ℂ) := by
  have hl' : (l : ℂ) ≠ 0 := by exact_mod_cast hl.ne'
  have h1 : Complex.exp (2 * Real.pi * Complex.I / l) ^ t = Complex.exp ((2 * Real.pi * t / l : ℝ) * Complex.I) := by
    rw [← Complex.exp_nat_mul]; congr 1; push_cast; field_simp
  have h2 : Complex.exp (2 * Real.pi * Complex.I / l) ^ (l - t)
      = Complex.exp (-((2 * Real.pi * t / l : ℝ) * Complex.I)) := by
    rw [← Complex.exp_nat_mul, Complex.exp_eq_exp_iff_exists_int]
    refine ⟨1, ?_⟩
    rw [Nat.cast_sub ht]; push_cast; field_simp; ring
  rw [h1, h2, Complex.ofReal_sin]
  set θ : ℝ := 2 * Real.pi * t / l
  rw [Complex.sin, neg_mul]
  have : Complex.I * Complex.I = -1 := Complex.I_mul_I
  linear_combination (Complex.exp (θ * Complex.I) - Complex.exp (-(θ * Complex.I))) * this

/-- A nonzero integer combination `c + b sin(2 pi t / l)` is bounded below by its norm. -/
theorem sin_form_lower {l t : ℕ} (h4 : 4 ∣ l) (hl : 0 < l) (ht : t ≤ l) (c b : ℤ) (hb : b ≠ 0)
    (hne : (c : ℝ) + b * Real.sin (2 * Real.pi * t / l) ≠ 0) :
    1 ≤ (2 * |(c : ℝ)| + 2 * |(b : ℝ)|) ^ l * (2 * |(c : ℝ) + b * Real.sin (2 * Real.pi * t / l)|) := by
  set ζ : ℂ := Complex.exp (2 * Real.pi * Complex.I / l) with hζ
  have hprim : IsPrimitiveRoot ζ l := Complex.isPrimitiveRoot_exp l hl.ne'
  have hζl : ζ ^ l = 1 := hprim.pow_eq_one
  have hint : IsIntegral ℚ ζ := (hprim.isIntegral hl).tower_top
  have : FiniteDimensional ℚ ℚ⟮ζ⟯ := adjoin.finiteDimensional hint
  obtain ⟨n, hn⟩ := h4
  -- the fourth root of unity
  have hI : ζ ^ n = Complex.I := by
    have hl' : (l : ℂ) ≠ 0 := by exact_mod_cast hl.ne'
    have h0 : (n : ℂ) ≠ 0 := by
      have : n ≠ 0 := by rintro rfl; omega
      exact_mod_cast this
    have harg : (n : ℂ) * (2 * Real.pi * Complex.I / l) = Real.pi / 2 * Complex.I := by
      rw [hn]; push_cast; field_simp; norm_num
    rw [hζ, ← Complex.exp_nat_mul, harg, Complex.exp_pi_div_two_mul_I]
  let z : ℚ⟮ζ⟯ := AdjoinSimple.gen ℚ ζ
  have hz : (z : ℂ) = ζ := AdjoinSimple.coe_gen ℚ ζ
  let β : ℚ⟮ζ⟯ := ((2 * c : ℤ) : ℚ⟮ζ⟯) * z ^ n + (b : ℚ⟮ζ⟯) * (z ^ t - z ^ (l - t))
  have hβ : (β : ℂ) = 2 * Complex.I * ((c : ℝ) + b * Real.sin (2 * Real.pi * t / l) : ℝ) := by
    have : (β : ℂ) = ((2 * c : ℤ) : ℂ) * ζ ^ n + (b : ℂ) * (ζ ^ t - ζ ^ (l - t)) := by
      have hval : ℚ⟮ζ⟯.val z = ζ := hz
      have : ℚ⟮ζ⟯.val β = ((2 * c : ℤ) : ℂ) * ζ ^ n + (b : ℂ) * (ζ ^ t - ζ ^ (l - t)) := by
        simp only [β, map_add, map_mul, map_sub, map_pow, map_intCast, hval]
      exact this
    rw [this, hI, hζ, root_pow_sub l t hl ht]
    push_cast; ring
  have hβ0 : β ≠ 0 := by
    intro h
    apply hne
    have h' : (β : ℂ) = 0 := by rw [h]; rfl
    rw [hβ] at h'
    have h'' := (mul_eq_zero.mp h').resolve_left (by simp)
    exact Complex.ofReal_eq_zero.mp h''
  have hzint : IsIntegral ℤ z := by
    have : IsIntegral ℤ (algebraMap ℚ⟮ζ⟯ ℂ z) := by
      rw [show algebraMap ℚ⟮ζ⟯ ℂ z = ζ from hz]; exact hprim.isIntegral hl
    exact (isIntegral_algebraMap_iff (algebraMap ℚ⟮ζ⟯ ℂ).injective).mp this
  have hβint : IsIntegral ℤ β := by
    refine IsIntegral.add (IsIntegral.mul ?_ (hzint.pow _))
      (IsIntegral.mul ?_ (IsIntegral.sub (hzint.pow _) (hzint.pow _)))
    · exact_mod_cast isIntegral_algebraMap (R := ℤ) (A := ℚ⟮ζ⟯) (x := 2 * c)
    · exact_mod_cast isIntegral_algebraMap (R := ℤ) (A := ℚ⟮ζ⟯) (x := b)
  obtain ⟨k, hk⟩ := IsIntegrallyClosed.isIntegral_iff.mp (Algebra.isIntegral_norm ℚ hβint)
  have hk0 : k ≠ 0 := by
    rintro rfl
    have : Algebra.norm ℚ β = 0 := by rw [← hk]; simp
    exact hβ0 (Algebra.norm_eq_zero_iff.mp this)
  have hprod := Algebra.norm_eq_prod_embeddings ℚ ℂ β
  rw [← hk] at hprod
  -- every conjugate is bounded
  set M : ℝ := 2 * |(c : ℝ)| + 2 * |(b : ℝ)| with hM
  have hM1 : 1 ≤ M := by
    have : (1 : ℝ) ≤ |(b : ℝ)| := by exact_mod_cast Int.one_le_abs hb
    have := abs_nonneg (c : ℝ)
    rw [hM]; linarith
  have hσ : ∀ σ : ℚ⟮ζ⟯ →ₐ[ℚ] ℂ, ‖σ β‖ ≤ M := by
    intro σ
    have hzl : z ^ l = 1 := by
      apply Subtype.val_injective
      push_cast
      rw [hz]; exact hζl
    have h1 : ‖σ z‖ = 1 := by
      apply Complex.norm_eq_one_of_pow_eq_one (n := l) _ hl.ne'
      rw [← map_pow, hzl, map_one]
    have e : σ β = ((2 * c : ℤ) : ℂ) * (σ z) ^ n + (b : ℂ) * ((σ z) ^ t - (σ z) ^ (l - t)) := by
      simp only [β, map_add, map_mul, map_sub, map_pow, map_intCast]
    rw [e]
    refine (norm_add_le _ _).trans ?_
    have h2 : ‖(σ z) ^ t - (σ z) ^ (l - t)‖ ≤ 2 := by
      refine (norm_sub_le _ _).trans ?_
      rw [norm_pow, norm_pow, h1]; norm_num
    rw [norm_mul, norm_mul, norm_pow, h1, one_pow, mul_one, Complex.norm_intCast, Complex.norm_intCast, hM]
    push_cast
    rw [abs_mul, abs_two]
    nlinarith [abs_nonneg (b : ℝ)]
  -- the number of conjugates
  have hcard : Fintype.card (ℚ⟮ζ⟯ →ₐ[ℚ] ℂ) ≤ l := by
    rw [AlgHom.card, adjoin.finrank hint]
    have hdvd : minpoly ℚ ζ ∣ Polynomial.X ^ l - 1 := minpoly.dvd ℚ ζ (by simp [hζl])
    have hX : (Polynomial.X ^ l - 1 : Polynomial ℚ) ≠ 0 := Polynomial.X_pow_sub_C_ne_zero hl 1
    refine (Polynomial.natDegree_le_of_dvd hdvd hX).trans ?_
    rw [show (1 : Polynomial ℚ) = Polynomial.C 1 by simp, Polynomial.natDegree_X_pow_sub_C]
  have hnorm : (1 : ℝ) ≤ ∏ σ : ℚ⟮ζ⟯ →ₐ[ℚ] ℂ, ‖σ β‖ := by
    rw [← norm_prod, ← hprod]
    simp only [eq_intCast, map_intCast, Complex.norm_intCast]
    exact_mod_cast Int.one_le_abs hk0
  let σ₀ : ℚ⟮ζ⟯ →ₐ[ℚ] ℂ := ℚ⟮ζ⟯.val
  have hσ₀ : ‖σ₀ β‖ = 2 * |(c : ℝ) + b * Real.sin (2 * Real.pi * t / l)| := by
    rw [show σ₀ β = (β : ℂ) from rfl, hβ, norm_mul, norm_mul, Complex.norm_I, Complex.norm_real, RCLike.norm_ofNat,
      Real.norm_eq_abs, mul_one]
  classical
  rw [← Finset.mul_prod_erase univ _ (mem_univ σ₀), hσ₀] at hnorm
  have hrest : ∏ σ ∈ univ.erase σ₀, ‖σ β‖ ≤ M ^ l := by
    calc ∏ σ ∈ univ.erase σ₀, ‖σ β‖ ≤ ∏ σ ∈ univ.erase σ₀, M :=
          prod_le_prod (fun σ _ => norm_nonneg _) (fun σ _ => hσ σ)
      _ = M ^ (univ.erase σ₀).card := prod_const _
      _ ≤ M ^ l := pow_le_pow_right₀ hM1 ((card_erase_le).trans hcard)
  calc (1 : ℝ) ≤ 2 * |(c : ℝ) + b * Real.sin (2 * Real.pi * t / l)| * ∏ σ ∈ univ.erase σ₀, ‖σ β‖ := hnorm
    _ ≤ 2 * |(c : ℝ) + b * Real.sin (2 * Real.pi * t / l)| * M ^ l := by gcongr
    _ = _ := by ring

/-- The sine of an angle strictly between 0 and `pi / 2`, a rational multiple of `pi` with no factor 3, is
irrational: an integer combination with it vanishes only trivially (Niven). -/
theorem sin_form_ne_zero {n t : ℕ} (h3 : ¬ 3 ∣ n) (h0 : 0 < t) (ht : t < n) (c b : ℤ) (hb : b ≠ 0) :
    (c : ℝ) + b * Real.sin (Real.pi / 2 * t / n) ≠ 0 := by
  intro h
  have hb' : (b : ℝ) ≠ 0 := by exact_mod_cast hb
  have hn' : (0 : ℝ) < n := by exact_mod_cast (h0.trans ht)
  have ht' : (0 : ℝ) < t := by exact_mod_cast h0
  have htn : (t : ℝ) < n := by exact_mod_cast ht
  have hs : Real.sin (Real.pi / 2 * t / n) = ((-c / b : ℚ) : ℝ) := by
    push_cast
    rw [eq_div_iff hb']
    linarith
  have hpi := Real.pi_pos
  have hlt : Real.pi / 2 * t / n < Real.pi / 2 := by
    rw [div_lt_iff₀ hn']
    exact mul_lt_mul_of_pos_left htn (by positivity)
  have hpos : 0 < Real.pi / 2 * t / n := by positivity
  have hmem := niven_sin (θ := Real.pi / 2 * t / n) ⟨(t / (2 * n) : ℚ), by push_cast; field_simp⟩ ⟨_, hs⟩
  have hsin0 : 0 < Real.sin (Real.pi / 2 * t / n) := Real.sin_pos_of_pos_of_lt_pi hpos (by linarith)
  have hsin1 : Real.sin (Real.pi / 2 * t / n) < 1 := by
    rw [← Real.sin_pi_div_two]
    exact Real.strictMonoOn_sin ⟨by linarith, by linarith⟩ ⟨by linarith, le_rfl⟩ hlt
  simp only [Set.mem_insert_iff, Set.mem_singleton_iff] at hmem
  rcases hmem with h | h | h | h | h
  · linarith
  · linarith
  · linarith
  · rw [← Real.sin_pi_div_six] at h
    have hinj := Real.injOn_sin ⟨by linarith, by linarith⟩ ⟨by linarith, by linarith⟩ h
    have : (3 * t : ℝ) = n := by
      field_simp at hinj
      linarith
    exact h3 ⟨t, by exact_mod_cast this.symm⟩
  · linarith

/-- An integer multiple of `2^(a / q)`, `0 < a < q`, keeps away from the integers. -/
theorem pow_form_lower {a q : ℕ} (h0 : 0 < a) (ha : a < q) (c m : ℕ) (hc : 0 < c) :
    1 ≤ q * (2 * c + m : ℝ) ^ q * |(c : ℝ) * (2 : ℝ) ^ ((a : ℝ) / q) - m| := by
  have hq : 0 < q := h0.trans ha
  set y : ℝ := (2 : ℝ) ^ ((a : ℝ) / q) with hy
  have hq' : (q : ℝ) ≠ 0 := by exact_mod_cast hq.ne'
  have hyq : y ^ q = 2 ^ a := by
    rw [hy, ← Real.rpow_natCast, ← Real.rpow_mul (by norm_num), div_mul_cancel₀ _ hq', Real.rpow_natCast]
  have hy0 : 0 ≤ y := by positivity
  have hy2 : y ≤ 2 := by
    have : (a : ℝ) / q ≤ 1 := by
      rw [div_le_one (by positivity)]; exact_mod_cast ha.le
    calc y ≤ (2 : ℝ) ^ (1 : ℝ) := Real.rpow_le_rpow_of_exponent_le (by norm_num) this
      _ = 2 := Real.rpow_one 2
  -- the two powers are different integers
  have hne : c ^ q * 2 ^ a ≠ m ^ q := by
    intro h
    have hm : m ≠ 0 := by
      rintro rfl
      rw [zero_pow hq.ne'] at h
      have : 0 < c ^ q * 2 ^ a := by positivity
      omega
    have hv := congrArg (padicValNat 2) h
    have : Fact (Nat.Prime 2) := ⟨Nat.prime_two⟩
    rw [padicValNat.mul (by positivity) (by positivity), padicValNat.pow, padicValNat.prime_pow,
      padicValNat.pow] at hv
    have hd : q ∣ a := by
      have h1 : q ∣ q * padicValNat 2 c + a := by rw [hv]; exact dvd_mul_right _ _
      exact (Nat.dvd_add_right (dvd_mul_right _ _)).mp h1
    exact absurd (Nat.le_of_dvd h0 hd) (by omega)
  have hdiff : (1 : ℝ) ≤ |((c : ℝ) * y) ^ q - (m : ℝ) ^ q| := by
    rw [mul_pow, hyq]
    have : (1 : ℤ) ≤ |((c : ℤ) ^ q * 2 ^ a) - (m : ℤ) ^ q| := by
      apply Int.one_le_abs
      intro h
      apply hne
      have := sub_eq_zero.mp h
      exact_mod_cast this
    exact_mod_cast this
  have hfac : |((c : ℝ) * y) ^ q - (m : ℝ) ^ q|
      ≤ |(c : ℝ) * y - m| * (q * (2 * c + m : ℝ) ^ (q - 1)) := by
    rw [← (Commute.all ((c : ℝ) * y) (m : ℝ)).mul_geom_sum₂, abs_mul]
    apply mul_le_mul_of_nonneg_left _ (abs_nonneg _)
    have hX : (c : ℝ) * y ≤ 2 * c + m := by nlinarith [Nat.cast_nonneg (α := ℝ) c, Nat.cast_nonneg (α := ℝ) m]
    have hm' : (m : ℝ) ≤ 2 * c + m := by nlinarith [Nat.cast_nonneg (α := ℝ) c]
    refine (abs_sum_le_sum_abs _ _).trans ?_
    calc ∑ i ∈ range q, |((c : ℝ) * y) ^ i * (m : ℝ) ^ (q - 1 - i)|
        ≤ ∑ i ∈ range q, (2 * c + m : ℝ) ^ (q - 1) := by
          apply sum_le_sum
          intro i hi
          rw [abs_of_nonneg (by positivity), show q - 1 = i + (q - 1 - i) by have := mem_range.mp hi; omega, pow_add,
            Nat.add_sub_cancel_left]
          gcongr
      _ = q * (2 * c + m : ℝ) ^ (q - 1) := by rw [sum_const, card_range, nsmul_eq_mul]
  have h1 : (1 : ℝ) ≤ 2 * c + m := by
    have : (1 : ℝ) ≤ c := by exact_mod_cast hc
    have := Nat.cast_nonneg (α := ℝ) m
    linarith
  calc (1 : ℝ) ≤ |(c : ℝ) * y - m| * (q * (2 * c + m : ℝ) ^ (q - 1)) := hdiff.trans hfac
    _ ≤ |(c : ℝ) * y - m| * (q * (2 * c + m : ℝ) ^ q) := by
        gcongr
        · omega
    _ = _ := by ring

end Sys2Proof.Machine.Exact
end

