-- ==== Sys2Proof/Laws/ExactSeries.lean ====
section
/-! SUPPORT. The integer series of Machine/Exact.lean approximate `2^p` times the reals they stand for, within the
error bound `err p`. -/

namespace Sys2Proof.Machine.Exact

open Finset

theorem fact_eq (n : ℕ) : fact n = n.factorial := by
  induction n with
  | zero => rfl
  | succ n ih => rw [fact, ih, Nat.factorial_succ]

theorem sgn_eq (n : ℕ) : ((sgn n : ℤ) : ℝ) = (-1) ^ n := by
  unfold sgn
  rcases Nat.even_or_odd n with h | h
  · rw [if_pos (Nat.even_iff.mp h), h.neg_one_pow]; simp
  · rw [if_neg (by rw [Nat.odd_iff.mp h]; decide), h.neg_one_pow]; simp

/-- A rounded-down quotient is within 1 of the quotient. -/
theorem natDiv_err (a b : ℕ) : |((a / b : ℕ) : ℝ) - a / b| ≤ 1 := by
  rcases Nat.eq_zero_or_pos b with h | h
  · simp [h]
  have hb : (0 : ℝ) < b := by exact_mod_cast h
  have h1 : ((a / b : ℕ) : ℝ) ≤ a / b := Nat.cast_div_le
  have h2 : (a : ℝ) / b < (a / b : ℕ) + 1 := by
    rw [div_lt_iff₀ hb]
    exact_mod_cast Nat.lt_div_mul_add h |>.trans_eq (by ring)
  rw [abs_le]; constructor <;> linarith

/-- `n` terms of the arctangent series of `1 / m`. -/
noncomputable def atanSum (m n : ℕ) : ℝ := ∑ j ∈ range n, (-1) ^ j * (1 / ((2 * j + 1) * (m : ℝ) ^ (2 * j + 1)))

theorem atanSeries_err (p m n : ℕ) : |(atanSeries p m n : ℝ) - 2 ^ p * atanSum m n| ≤ n := by
  induction n with
  | zero => simp [atanSeries, atanSum]
  | succ n ih =>
    have h := natDiv_err (2 ^ p) ((2 * n + 1) * m ^ (2 * n + 1))
    have e : (atanSeries p m (n + 1) : ℝ) - 2 ^ p * atanSum m (n + 1)
        = (atanSeries p m n - 2 ^ p * atanSum m n)
          + (-1) ^ n * (((2 ^ p / ((2 * n + 1) * m ^ (2 * n + 1)) : ℕ) : ℝ)
            - (2 ^ p : ℕ) / ((2 * n + 1) * m ^ (2 * n + 1) : ℕ)) := by
      rw [atanSeries, atanSum, sum_range_succ, ← atanSum]
      generalize 2 ^ p / ((2 * n + 1) * m ^ (2 * n + 1)) = k
      push_cast [sgn_eq]
      ring
    rw [e]
    refine (abs_add_le _ _).trans ?_
    rw [abs_mul, abs_pow, abs_neg, abs_one, one_pow, one_mul]
    push_cast at h ⊢
    linarith

theorem atanSum_err {m : ℕ} (hm : 2 ≤ m) (n : ℕ) :
    |Real.arctan (1 / m) - atanSum m n| ≤ 1 / ((2 * n + 1) * (m : ℝ) ^ (2 * n + 1)) := by
  have hm' : (2 : ℝ) ≤ m := by exact_mod_cast hm
  have hx : ‖(1 / (m : ℝ))‖ < 1 := by
    rw [Real.norm_of_nonneg (by positivity), div_lt_one (by positivity)]; linarith
  have hs := Real.hasSum_arctan hx
  let f : ℕ → ℝ := fun j => 1 / ((2 * j + 1) * (m : ℝ) ^ (2 * j + 1))
  have hfe : ∀ j : ℕ, (-1) ^ j * (1 / (m : ℝ)) ^ (2 * j + 1) / ((2 * j + 1 : ℕ) : ℝ) = (-1) ^ j * f j := by
    intro j
    simp only [f]
    push_cast
    rw [div_pow, one_pow]
    field_simp
  have hs' : HasSum (fun j => (-1 : ℝ) ^ j * f j) (Real.arctan (1 / m)) := by
    simpa only [hfe] using hs
  have hanti : Antitone f := by
    refine antitone_nat_of_succ_le fun j => ?_
    simp only [f]
    apply one_div_le_one_div_of_le (by positivity)
    have : (m : ℝ) ^ (2 * j + 1) ≤ (m : ℝ) ^ (2 * (j + 1) + 1) := pow_le_pow_right₀ (by linarith) (by omega)
    push_cast
    apply mul_le_mul (by linarith) this (by positivity) (by positivity)
  have hsum : Summable f := by
    have := hs'.summable.abs
    refine this.congr fun j => ?_
    rw [abs_mul, abs_pow, abs_neg, abs_one, one_pow, one_mul, abs_of_nonneg]
    simp only [f]; positivity
  have := alternating_series_error_bound f hanti hsum n
  rw [hs'.tsum_eq] at this
  exact this

/-- The pi approximation is within `5 p + 40` of `2^p * pi`. -/
theorem piApprox_err (p : ℕ) : |(piApprox p : ℝ) - 2 ^ p * Real.pi| ≤ 5 * p + 40 := by
  set n := p / 4 + 1 with hn
  have mach := Real.four_mul_arctan_inv_5_sub_arctan_inv_239
  have hpow : ∀ m : ℕ, 5 ≤ m → (2 : ℝ) ^ p * (1 / ((2 * n + 1) * (m : ℝ) ^ (2 * n + 1))) ≤ 1 := by
    intro m hm
    have h1 : (2 : ℝ) ^ p ≤ (m : ℝ) ^ (2 * n + 1) := by
      have ha : (2 : ℝ) ^ p ≤ (4 : ℝ) ^ (2 * n + 1) := by
        rw [show (4 : ℝ) = 2 ^ 2 by norm_num, ← pow_mul]
        exact pow_le_pow_right₀ (by norm_num) (by omega)
      refine ha.trans (pow_le_pow_left₀ (by norm_num) ?_ _)
      have : (5 : ℝ) ≤ m := by exact_mod_cast hm
      linarith
    have h2 : (0 : ℝ) < (m : ℝ) ^ (2 * n + 1) := lt_of_lt_of_le (by positivity) h1
    rw [mul_one_div, div_le_one (by positivity)]
    have : (1 : ℝ) ≤ 2 * n + 1 := by have : (0 : ℝ) ≤ n := by positivity
                                     linarith
    nlinarith
  have one : ∀ m : ℕ, 5 ≤ m → |(atanSeries p m n : ℝ) - 2 ^ p * Real.arctan (1 / m)| ≤ n + 1 := by
    intro m hm
    have h1 := atanSeries_err p m n
    have h2 := atanSum_err (show 2 ≤ m by omega) n
    have h3 := hpow m hm
    have e : (atanSeries p m n : ℝ) - 2 ^ p * Real.arctan (1 / m)
        = (atanSeries p m n - 2 ^ p * atanSum m n) - 2 ^ p * (Real.arctan (1 / m) - atanSum m n) := by ring
    rw [e]
    refine (abs_sub _ _).trans ?_
    rw [abs_mul, abs_of_nonneg (show (0 : ℝ) ≤ 2 ^ p by positivity)]
    have : (2 : ℝ) ^ p * |Real.arctan (1 / m) - atanSum m n| ≤ 1 :=
      (mul_le_mul_of_nonneg_left h2 (by positivity)).trans h3
    linarith
  have h5 := one 5 (by norm_num)
  have h239 := one 239 (by norm_num)
  have e : (piApprox p : ℝ) - 2 ^ p * Real.pi
      = 16 * (atanSeries p 5 n - 2 ^ p * Real.arctan (1 / (5 : ℕ)))
        - 4 * (atanSeries p 239 n - 2 ^ p * Real.arctan (1 / (239 : ℕ))) := by
    have : Real.pi = 4 * (4 * Real.arctan (5 : ℝ)⁻¹ - Real.arctan (239 : ℝ)⁻¹) := by rw [mach]; ring
    rw [this, piApprox, ← hn]
    push_cast
    simp only [one_div]
    ring
  rw [e]
  refine (abs_sub _ _).trans ?_
  rw [abs_mul, abs_mul]
  have hnp : (n : ℝ) ≤ p / 4 + 1 := by
    rw [hn]; push_cast
    have : ((p / 4 : ℕ) : ℝ) ≤ p / 4 := by exact_mod_cast Nat.cast_div_le (α := ℝ) (m := p) (n := 4)
    linarith
  norm_num
  norm_num at h5 h239
  linarith

/-- `n` terms of the sine series. -/
noncomputable def sinSum (y : ℝ) (n : ℕ) : ℝ := ∑ j ∈ range n, (-1) ^ j * (y ^ (2 * j + 1) / (2 * j + 1).factorial)

theorem sinSeries_err (p x n : ℕ) : |(sinSeries p x n : ℝ) - 2 ^ p * sinSum (x / 2 ^ p) n| ≤ n := by
  induction n with
  | zero => simp [sinSeries, sinSum]
  | succ n ih =>
    have h := natDiv_err (x ^ (2 * n + 1)) (2 ^ (2 * p * n) * fact (2 * n + 1))
    have e : (sinSeries p x (n + 1) : ℝ) - 2 ^ p * sinSum (x / 2 ^ p) (n + 1)
        = (sinSeries p x n - 2 ^ p * sinSum (x / 2 ^ p) n)
          + (-1) ^ n * (((x ^ (2 * n + 1) / (2 ^ (2 * p * n) * fact (2 * n + 1)) : ℕ) : ℝ)
            - (x ^ (2 * n + 1) : ℕ) / (2 ^ (2 * p * n) * fact (2 * n + 1) : ℕ)) := by
      rw [sinSeries, sinSum, sum_range_succ, ← sinSum]
      generalize x ^ (2 * n + 1) / (2 ^ (2 * p * n) * fact (2 * n + 1)) = k
      push_cast [sgn_eq, fact_eq]
      have hp : ((2 : ℝ) ^ p) ^ (2 * n + 1) = 2 ^ p * 2 ^ (2 * p * n) := by ring
      rw [div_pow, hp]
      have hf : ((2 * n + 1).factorial : ℝ) ≠ 0 := by positivity
      field_simp
      ring
    rw [e]
    refine (abs_add_le _ _).trans ?_
    rw [abs_mul, abs_pow, abs_neg, abs_one, one_pow, one_mul]
    push_cast at h ⊢
    linarith

/-- The even-and-odd exponential sum of `i y` has the sine sum as imaginary part. -/
theorem expSum_im (y : ℝ) (n : ℕ) :
    (∑ m ∈ range (2 * n), (y * Complex.I) ^ m / (m.factorial : ℂ)).im = sinSum y n := by
  induction n with
  | zero => simp [sinSum]
  | succ n ih =>
    rw [show 2 * (n + 1) = 2 * n + 1 + 1 by ring, sum_range_succ, sum_range_succ, Complex.add_im, Complex.add_im, ih,
      sinSum, sinSum, sum_range_succ]
    have h1 : ((y * Complex.I) ^ (2 * n) / ((2 * n).factorial : ℂ)).im = 0 := by
      rw [mul_pow, pow_mul Complex.I, Complex.I_sq,
        show (y : ℂ) ^ (2 * n) * (-1) ^ n / ((2 * n).factorial : ℂ)
          = ((y ^ (2 * n) * (-1) ^ n / (2 * n).factorial : ℝ) : ℂ) by push_cast; ring]
      exact Complex.ofReal_im _
    have h2 : ((y * Complex.I) ^ (2 * n + 1) / ((2 * n + 1).factorial : ℂ)).im
        = (-1) ^ n * (y ^ (2 * n + 1) / (2 * n + 1).factorial) := by
      rw [mul_pow, pow_succ Complex.I, pow_mul Complex.I, Complex.I_sq,
        show (y : ℂ) ^ (2 * n + 1) * ((-1) ^ n * Complex.I) / ((2 * n + 1).factorial : ℂ)
          = (((-1) ^ n * (y ^ (2 * n + 1) / (2 * n + 1).factorial) : ℝ) : ℂ) * Complex.I by push_cast; ring]
      rw [Complex.im_ofReal_mul, Complex.I_im, mul_one]
    rw [h1, h2, add_zero]

theorem sinSum_err {y : ℝ} (h0 : 0 ≤ y) (h2 : y ≤ 2) {n : ℕ} (hn : 2 ≤ n) :
    |Real.sin y - sinSum y n| ≤ 2 ^ (2 * n) / (2 * n).factorial * 2 := by
  have hnorm : ‖(y * Complex.I : ℂ)‖ = y := by
    rw [norm_mul, Complex.norm_I, mul_one, Complex.norm_real, Real.norm_of_nonneg h0]
  have hb := Complex.exp_bound' (x := y * Complex.I) (n := 2 * n) (by
    rw [hnorm, div_le_iff₀ (by positivity)]
    have : (2 : ℝ) ≤ n := by exact_mod_cast hn
    push_cast
    linarith)
  rw [hnorm] at hb
  have him : (Complex.exp (y * Complex.I)).im = Real.sin y := Complex.exp_ofReal_mul_I_im y
  have := (Complex.abs_im_le_norm _).trans hb
  rw [Complex.sub_im, him, expSum_im] at this
  refine this.trans ?_
  have : y ^ (2 * n) ≤ 2 ^ (2 * n) := pow_le_pow_left₀ h0 h2 _
  gcongr

/-- The factorial outgrows the powers that the sine tail needs. -/
theorem pow_le_factorial {n : ℕ} (hn : 8 ≤ n) : 2 * 16 ^ n ≤ (2 * n).factorial := by
  induction n, hn using Nat.le_induction with
  | base => decide
  | succ n hn ih =>
    rw [show 2 * (n + 1) = 2 * n + 1 + 1 by ring, Nat.factorial_succ, Nat.factorial_succ, pow_succ]
    have : 16 ≤ (2 * n + 1 + 1) * (2 * n + 1) := by nlinarith
    nlinarith

/-- `sinApprox` is within `err p` of `2^p * sin (pi / 2 * t / n)`. -/
theorem sinApprox_err {p t n : ℕ} (hp : 64 ≤ p) (he : p % 2 = 0) (hn : 0 < n) (ht : t ≤ n) :
    |(sinApprox p t n : ℝ) - 2 ^ p * Real.sin (Real.pi / 2 * t / n)| ≤ err p := by
  have hP := piApprox_err p
  have hn' : (0 : ℝ) < n := by exact_mod_cast hn
  have ht' : (t : ℝ) ≤ n := by exact_mod_cast ht
  have hp' : (64 : ℝ) ≤ p := by exact_mod_cast hp
  have h2p : (100 : ℝ) * (5 * p + 40) ≤ 2 ^ p := by
    have : ∀ q : ℕ, 64 ≤ q → 100 * (5 * q + 40) ≤ 2 ^ q := by
      intro q hq
      induction q, hq using Nat.le_induction with
      | base => norm_num
      | succ q hq ih => rw [pow_succ]; omega
    exact_mod_cast this p hp
  rw [abs_le] at hP
  have hpos : (0 : ℝ) ≤ piApprox p := by
    have : (2 : ℝ) ^ p * 3 ≤ 2 ^ p * Real.pi := by
      apply mul_le_mul_of_nonneg_left Real.pi_gt_three.le (by positivity)
    nlinarith [hP.1]
  have hcast : (((piApprox p).toNat : ℕ) : ℝ) = piApprox p := by
    have : 0 ≤ piApprox p := by exact_mod_cast hpos
    exact_mod_cast Int.toNat_of_nonneg this
  set X := t * (piApprox p).toNat / (2 * n) with hX
  have hXe := natDiv_err (t * (piApprox p).toNat) (2 * n)
  rw [← hX] at hXe
  push_cast at hXe
  rw [hcast] at hXe
  have hfrac : (t : ℝ) / n ≤ 1 := by rw [div_le_one hn']; exact ht'
  have hfrac0 : (0 : ℝ) ≤ (t : ℝ) / n := by positivity
  -- the angle
  have hang : |(X : ℝ) - 2 ^ p * (Real.pi / 2 * t / n)| ≤ 1 + (5 * p + 40) / 2 := by
    have e : (X : ℝ) - 2 ^ p * (Real.pi / 2 * t / n)
        = ((X : ℝ) - t * piApprox p / (2 * n)) + (t / n) * ((piApprox p - 2 ^ p * Real.pi) / 2) := by
      field_simp
      ring
    rw [e]
    refine (abs_add_le _ _).trans ?_
    rw [abs_mul, abs_of_nonneg hfrac0, abs_div]
    have h3 : |(piApprox p : ℝ) - 2 ^ p * Real.pi| ≤ 5 * p + 40 := abs_le.mpr hP
    have : (t : ℝ) / n * (|(piApprox p : ℝ) - 2 ^ p * Real.pi| / |2|) ≤ 1 * ((5 * p + 40) / 2) := by
      apply mul_le_mul hfrac _ (by positivity) (by norm_num)
      rw [abs_two]; linarith
    linarith
  -- the angle lies in [0, 2]
  have hXle : (X : ℝ) / 2 ^ p ≤ 2 := by
    rw [div_le_iff₀ (by positivity)]
    have hub := (abs_le.mp hang).2
    have h1 : (2 : ℝ) ^ p * (Real.pi / 2 * t / n) ≤ 2 ^ p * 1.6 := by
      apply mul_le_mul_of_nonneg_left _ (by positivity)
      have h4 : Real.pi / 2 * t / n = Real.pi / 2 * (t / n) := by ring
      rw [h4]
      have h5 : Real.pi / 2 * (t / n) ≤ Real.pi / 2 * 1 :=
        mul_le_mul_of_nonneg_left hfrac (by positivity)
      have := Real.pi_lt_d2
      linarith
    linarith
  -- the series
  have hhalf : 2 * (p / 2) = p := by omega
  have hs1 := sinSeries_err p X (p / 2)
  have hs2 := sinSum_err (y := X / 2 ^ p) (by positivity) hXle (n := p / 2) (by omega)
  have htail : (2 : ℝ) ^ p * (2 ^ (2 * (p / 2)) / (2 * (p / 2)).factorial * 2) ≤ 1 := by
    have h8 : 8 ≤ p / 2 := by omega
    have hf := pow_le_factorial h8
    have hf' : (2 : ℝ) * 16 ^ (p / 2) ≤ ((2 * (p / 2)).factorial : ℝ) := by exact_mod_cast hf
    have h16 : (16 : ℝ) ^ (p / 2) = 2 ^ p * 2 ^ p := by
      rw [show (16 : ℝ) = 2 ^ 4 by norm_num, ← pow_mul, ← pow_add]
      congr 1; omega
    rw [hhalf] at hf' ⊢
    rw [h16] at hf'
    have hfp : (0 : ℝ) < (p.factorial : ℝ) := by positivity
    rw [show (2 : ℝ) ^ p * (2 ^ p / p.factorial * 2) = 2 * (2 ^ p * 2 ^ p) / p.factorial by ring,
      div_le_one hfp]
    exact hf'
  have hlip := Real.abs_sin_sub_sin_le (X / 2 ^ p) (Real.pi / 2 * t / n)
  have e : (sinApprox p t n : ℝ) - 2 ^ p * Real.sin (Real.pi / 2 * t / n)
      = (sinSeries p X (p / 2) - 2 ^ p * sinSum (X / 2 ^ p) (p / 2))
        - 2 ^ p * (Real.sin (X / 2 ^ p) - sinSum (X / 2 ^ p) (p / 2))
        + 2 ^ p * (Real.sin (X / 2 ^ p) - Real.sin (Real.pi / 2 * t / n)) := by
    rw [sinApprox, ← hX]; ring
  rw [e]
  refine (abs_add_le _ _).trans ?_
  refine (add_le_add (abs_sub _ _) le_rfl).trans ?_
  rw [abs_mul, abs_mul, abs_of_nonneg (show (0 : ℝ) ≤ 2 ^ p by positivity)]
  have hA : (2 : ℝ) ^ p * |Real.sin (X / 2 ^ p) - sinSum (X / 2 ^ p) (p / 2)| ≤ 1 :=
    (mul_le_mul_of_nonneg_left hs2 (by positivity)).trans htail
  have hB : (2 : ℝ) ^ p * |Real.sin (X / 2 ^ p) - Real.sin (Real.pi / 2 * t / n)| ≤ 1 + (5 * p + 40) / 2 := by
    refine (mul_le_mul_of_nonneg_left hlip (by positivity)).trans ?_
    have : (2 : ℝ) ^ p * |(X : ℝ) / 2 ^ p - Real.pi / 2 * t / n| = |(X : ℝ) - 2 ^ p * (Real.pi / 2 * t / n)| := by
      rw [← abs_of_nonneg (show (0 : ℝ) ≤ 2 ^ p by positivity), ← abs_mul,
        abs_of_nonneg (show (0 : ℝ) ≤ 2 ^ p by positivity)]
      congr 1
      field_simp
    rw [this]; exact hang
  have hC : ((p / 2 : ℕ) : ℝ) ≤ p / 2 := by exact_mod_cast Nat.cast_div_le (α := ℝ) (m := p) (n := 2)
  unfold err
  push_cast
  linarith

/-- `logTwoSeries p p` is at most `2^p * log 2`, and within `p + 1` of it. -/
theorem logTwoSeries_bounds (p : ℕ) :
    (logTwoSeries p p : ℝ) ≤ 2 ^ p * Real.log 2 ∧ 2 ^ p * Real.log 2 - (p + 1) ≤ logTwoSeries p p := by
  have key : ∀ n : ℕ, (logTwoSeries p n : ℝ) ≤ 2 ^ p * ∑ i ∈ range n, (1 / 2 : ℝ) ^ (i + 1) / (i + 1) ∧
      2 ^ p * (∑ i ∈ range n, (1 / 2 : ℝ) ^ (i + 1) / (i + 1)) - n ≤ logTwoSeries p n := by
    intro n
    induction n with
    | zero => simp [logTwoSeries]
    | succ n ih =>
      have hle : ((2 ^ p / ((n + 1) * 2 ^ (n + 1)) : ℕ) : ℝ) ≤ (2 ^ p : ℕ) / ((n + 1) * 2 ^ (n + 1) : ℕ) :=
        Nat.cast_div_le
      have hge := natDiv_err (2 ^ p) ((n + 1) * 2 ^ (n + 1))
      rw [logTwoSeries, sum_range_succ]
      generalize 2 ^ p / ((n + 1) * 2 ^ (n + 1)) = k at hle hge ⊢
      have e : (2 : ℝ) ^ p * ((1 / 2) ^ (n + 1) / (n + 1)) = 2 ^ p / ((n + 1) * 2 ^ (n + 1)) := by
        rw [div_pow, one_pow]; field_simp
      push_cast at hle hge ⊢
      rw [mul_add, e]
      rw [abs_le] at hge
      constructor <;> linarith [ih.1, ih.2, hge.1, hge.2]
  have hlog : Real.log (1 - 1 / 2) = -Real.log 2 := by
    rw [show (1 - 1 / 2 : ℝ) = 2⁻¹ by norm_num, Real.log_inv]
  have htail := Real.abs_log_sub_add_sum_range_le (x := 1 / 2) (by norm_num [abs_of_pos]) p
  rw [hlog, show |(1 / 2 : ℝ)| = 1 / 2 by norm_num [abs_of_pos]] at htail
  have hpos : ∑ i ∈ range p, (1 / 2 : ℝ) ^ (i + 1) / (i + 1) ≤ Real.log 2 := by
    have hs := Real.hasSum_pow_div_log_of_abs_lt_one (x := 1 / 2) (by norm_num [abs_of_pos])
    rw [hlog, neg_neg] at hs
    exact sum_le_hasSum _ (fun i _ => by positivity) hs
  have h1 : (1 / 2 : ℝ) ^ (p + 1) / (1 - 1 / 2) = 1 / 2 ^ p := by
    rw [pow_succ, one_div_pow]; norm_num
  rw [h1, abs_le] at htail
  have h2p : (0 : ℝ) < 2 ^ p := by positivity
  have h3 : (2 : ℝ) ^ p * (1 / 2 ^ p) = 1 := by field_simp
  have := key p
  constructor
  · nlinarith [this.1]
  · have : (2 : ℝ) ^ p * Real.log 2 ≤ 2 ^ p * (∑ i ∈ range p, (1 / 2 : ℝ) ^ (i + 1) / (i + 1)) + 1 := by
      have h4 : Real.log 2 - ∑ i ∈ range p, (1 / 2 : ℝ) ^ (i + 1) / (i + 1) ≤ 1 / 2 ^ p := by linarith [htail.1]
      have h5 := mul_le_mul_of_nonneg_left h4 h2p.le
      rw [h3, mul_sub] at h5
      linarith
    linarith [(key p).2]

theorem expSeries_err (p x n : ℕ) :
    |(expSeries p x n : ℝ) - 2 ^ p * ∑ m ∈ range n, (x / 2 ^ p : ℝ) ^ m / m.factorial| ≤ n := by
  induction n with
  | zero => simp [expSeries]
  | succ n ih =>
    have h := natDiv_err (x ^ n * 2 ^ p) (2 ^ (p * n) * fact n)
    rw [expSeries, sum_range_succ]
    generalize x ^ n * 2 ^ p / (2 ^ (p * n) * fact n) = k at h ⊢
    have e : (2 : ℝ) ^ p * ((x / 2 ^ p) ^ n / n.factorial) = x ^ n * 2 ^ p / (2 ^ (p * n) * n.factorial) := by
      rw [div_pow, ← pow_mul]; field_simp
    push_cast [fact_eq] at h ⊢
    rw [mul_add, e]
    rw [abs_le] at h ih ⊢
    constructor <;> linarith [h.1, h.2, ih.1, ih.2]

theorem two_pow_le_factorial {n : ℕ} (hn : 5 ≤ n) : 2 * 2 ^ n ≤ n.factorial := by
  induction n, hn using Nat.le_induction with
  | base => decide
  | succ n hn ih => rw [Nat.factorial_succ, pow_succ]; nlinarith

/-- `powTwoApprox` is within `err p` of `2^p * 2^(a / q)`. -/
theorem powTwoApprox_err {p a q : ℕ} (hp : 64 ≤ p) (hq : 0 < q) (ha : a ≤ q) :
    |(powTwoApprox p a q : ℝ) - 2 ^ p * (2 : ℝ) ^ ((a : ℝ) / q)| ≤ err p := by
  obtain ⟨hL1, hL2⟩ := logTwoSeries_bounds p
  have hq' : (0 : ℝ) < q := by exact_mod_cast hq
  have ha' : (a : ℝ) ≤ q := by exact_mod_cast ha
  have hfrac : (a : ℝ) / q ≤ 1 := by rw [div_le_one hq']; exact ha'
  have hfrac0 : (0 : ℝ) ≤ (a : ℝ) / q := by positivity
  have h2p : (0 : ℝ) < 2 ^ p := by positivity
  set X := a * logTwoSeries p p / q with hX
  have hXle : (X : ℝ) ≤ (a * logTwoSeries p p : ℕ) / q := by rw [hX]; exact Nat.cast_div_le
  have hXe := natDiv_err (a * logTwoSeries p p) q
  rw [← hX, abs_le] at hXe
  push_cast at hXle hXe
  have hu : (X : ℝ) / 2 ^ p ≤ a / q * Real.log 2 := by
    rw [div_le_iff₀ h2p]
    have : (a : ℝ) * logTwoSeries p p / q = a / q * logTwoSeries p p := by ring
    rw [this] at hXle
    have := mul_le_mul_of_nonneg_left hL1 hfrac0
    nlinarith
  have hl : a / q * Real.log 2 - (X : ℝ) / 2 ^ p ≤ (p + 2) / 2 ^ p := by
    rw [sub_le_iff_le_add, ← add_div, le_div_iff₀ h2p]
    have e : (a : ℝ) * logTwoSeries p p / q = a / q * logTwoSeries p p := by ring
    have h1 : a / q * ((2 : ℝ) ^ p * Real.log 2 - (p + 1)) ≤ a / q * logTwoSeries p p :=
      mul_le_mul_of_nonneg_left hL2 hfrac0
    have h2 : (a : ℝ) / q * (p + 1) ≤ 1 * (p + 1) := mul_le_mul_of_nonneg_right hfrac (by positivity)
    rw [e] at hXe
    nlinarith [hXe.1]
  have hlog1 : Real.log 2 ≤ 1 := by linarith [Real.log_two_lt_d9]
  have hv : a / q * Real.log 2 ≤ Real.log 2 := by
    have := mul_le_mul_of_nonneg_right hfrac (Real.log_nonneg (by norm_num : (1 : ℝ) ≤ 2))
    linarith
  have hpow : (2 : ℝ) ^ ((a : ℝ) / q) = Real.exp (a / q * Real.log 2) := by
    rw [Real.rpow_def_of_pos (by norm_num), mul_comm]
  have hexpv : Real.exp (a / q * Real.log 2) ≤ 2 := by
    calc Real.exp (a / q * Real.log 2) ≤ Real.exp (Real.log 2) := Real.exp_le_exp.mpr hv
      _ = 2 := Real.exp_log (by norm_num)
  have hu0 : (0 : ℝ) ≤ X / 2 ^ p := by positivity
  have hu1 : |(X : ℝ) / 2 ^ p| ≤ 1 := by rw [abs_of_nonneg hu0]; linarith
  -- the exponential of the approximate exponent
  have hE := expSeries_err p X p
  have hB := Real.exp_bound hu1 (n := p) (by omega)
  have hB' : (2 : ℝ) ^ p * |Real.exp (X / 2 ^ p) - ∑ m ∈ range p, (X / 2 ^ p : ℝ) ^ m / m.factorial| ≤ 1 := by
    refine (mul_le_mul_of_nonneg_left hB h2p.le).trans ?_
    have hpw : |(X : ℝ) / 2 ^ p| ^ p ≤ 1 := pow_le_one₀ (abs_nonneg _) hu1
    have hp' : (64 : ℝ) ≤ p := by exact_mod_cast hp
    have hf : (2 : ℝ) * 2 ^ p ≤ p.factorial := by exact_mod_cast two_pow_le_factorial (show 5 ≤ p by omega)
    have hfp : (0 : ℝ) < p.factorial := by positivity
    have h1 : ((p.succ : ℕ) : ℝ) / (p.factorial * p) ≤ 2 / p.factorial := by
      rw [div_le_div_iff₀ (by positivity) hfp]
      push_cast
      nlinarith
    calc (2 : ℝ) ^ p * (|(X : ℝ) / 2 ^ p| ^ p * (((p.succ : ℕ) : ℝ) / (p.factorial * p)))
        ≤ 2 ^ p * (1 * (2 / p.factorial)) := by gcongr
      _ = 2 * 2 ^ p / p.factorial := by ring
      _ ≤ 1 := by rw [div_le_one hfp]; exact hf
  -- the exponential is 2-Lipschitz below log 2
  have hLip : (2 : ℝ) ^ p * |Real.exp (X / 2 ^ p) - Real.exp (a / q * Real.log 2)| ≤ 2 * (p + 2) := by
    have h1 : Real.exp (X / 2 ^ p) ≤ Real.exp (a / q * Real.log 2) := Real.exp_le_exp.mpr hu
    have h2 : Real.exp (a / q * Real.log 2) * (1 + ((X : ℝ) / 2 ^ p - a / q * Real.log 2)) ≤ Real.exp (X / 2 ^ p) := by
      have := Real.add_one_le_exp ((X : ℝ) / 2 ^ p - a / q * Real.log 2)
      calc Real.exp (a / q * Real.log 2) * (1 + ((X : ℝ) / 2 ^ p - a / q * Real.log 2))
          ≤ Real.exp (a / q * Real.log 2) * Real.exp ((X : ℝ) / 2 ^ p - a / q * Real.log 2) := by
            apply mul_le_mul_of_nonneg_left _ (Real.exp_pos _).le
            linarith
        _ = Real.exp (X / 2 ^ p) := by rw [← Real.exp_add]; congr 1; ring
    rw [abs_sub_comm, abs_of_nonneg (by linarith)]
    have h3 : Real.exp (a / q * Real.log 2) - Real.exp (X / 2 ^ p)
        ≤ Real.exp (a / q * Real.log 2) * (a / q * Real.log 2 - (X : ℝ) / 2 ^ p) := by linarith
    have h4 : Real.exp (a / q * Real.log 2) * (a / q * Real.log 2 - (X : ℝ) / 2 ^ p) ≤ 2 * ((p + 2) / 2 ^ p) :=
      mul_le_mul hexpv hl (by linarith) (by norm_num)
    have h5 := mul_le_mul_of_nonneg_left (h3.trans h4) h2p.le
    have h6 : (2 : ℝ) ^ p * (2 * ((p + 2) / 2 ^ p)) = 2 * (p + 2) := by field_simp
    linarith
  have e : (powTwoApprox p a q : ℝ) - 2 ^ p * (2 : ℝ) ^ ((a : ℝ) / q)
      = ((expSeries p X p : ℝ) - 2 ^ p * ∑ m ∈ range p, (X / 2 ^ p : ℝ) ^ m / m.factorial)
        - 2 ^ p * (Real.exp (X / 2 ^ p) - ∑ m ∈ range p, (X / 2 ^ p : ℝ) ^ m / m.factorial)
        + 2 ^ p * (Real.exp (X / 2 ^ p) - Real.exp (a / q * Real.log 2)) := by
    rw [powTwoApprox, ← hX, hpow]; push_cast; ring
  rw [e]
  refine (abs_add_le _ _).trans ?_
  refine (add_le_add (abs_sub _ _) le_rfl).trans ?_
  rw [abs_mul, abs_mul, abs_of_nonneg h2p.le]
  unfold err
  push_cast
  linarith

end Sys2Proof.Machine.Exact
end

