-- ==== Sys2Proof/Laws/ExactFloor.lean ====
section
/-! SUPPORT. Machine/Exact.lean computes the floors it says: its enclosures contain the exact value, and the last round
of `refine` is beyond the separation bound of Laws/ExactSeparation.lean, so that the two ends agree in some round. -/

namespace Sys2Proof.Machine.Exact

/-- Integer division by a positive number is the floor of the real quotient. -/
theorem ediv_eq_floor (z : ℤ) (n : ℕ) : z / (n : ℤ) = ⌊(z : ℝ) / n⌋ := by
  rw [Int.floor_div_natCast, Int.floor_intCast]

theorem natDiv_eq_floor (a b : ℕ) : ((a / b : ℕ) : ℤ) = ⌊(a : ℝ) / b⌋ := by
  rw [Int.natCast_ediv, ediv_eq_floor, Int.cast_natCast]

/-- The scaled affine form and its approximation. -/
theorem affine_err {a b : ℤ} {p : ℕ} {v : ℤ} {y : ℝ} (hv : |(v : ℝ) - 2 ^ p * y| ≤ err p) :
    |((a * 2 ^ p + b * v : ℤ) : ℝ) - 2 ^ p * (a + b * y)| ≤ (b.natAbs * err p : ℕ) := by
  have e : ((a * 2 ^ p + b * v : ℤ) : ℝ) - 2 ^ p * (a + b * y) = b * (v - 2 ^ p * y) := by push_cast; ring
  rw [e, abs_mul]
  push_cast
  rw [Nat.cast_natAbs, Int.cast_abs]
  exact mul_le_mul_of_nonneg_left hv (abs_nonneg _)

/-- The enclosure: the floors of its two ends surround the exact floor. -/
theorem affineFloors_enclose {a b : ℤ} {d p : ℕ} {v : ℤ} {y : ℝ} (hd : 0 < d)
    (hv : |(v : ℝ) - 2 ^ p * y| ≤ err p) :
    (affineFloors a b d p v).1 ≤ ⌊((a : ℝ) + b * y) / d⌋ ∧ ⌊((a : ℝ) + b * y) / d⌋ ≤ (affineFloors a b d p v).2 := by
  have h := abs_le.mp (affine_err (a := a) (b := b) hv)
  have hd' : (0 : ℝ) < d := by exact_mod_cast hd
  have h2 : (0 : ℝ) < 2 ^ p := by positivity
  have hD : ((d * 2 ^ p : ℕ) : ℝ) = d * 2 ^ p := by push_cast; ring
  have hval : ((a : ℝ) + b * y) / d = (2 ^ p * (a + b * y)) / (d * 2 ^ p) := by field_simp
  have habs : ((b.natAbs : ℕ) : ℝ) = |(b : ℝ)| := by rw [Nat.cast_natAbs, Int.cast_abs]
  push_cast [habs] at h
  unfold affineFloors
  simp only []
  rw [ediv_eq_floor, ediv_eq_floor, hD, hval]
  constructor <;> apply Int.floor_le_floor <;> gcongr <;> push_cast <;> linarith [h.1, h.2]

/-- If the two ends have different floors, a multiple of `d` lies within twice the error of the exact value. -/
theorem affineFloors_gap {a b : ℤ} {d p : ℕ} {v : ℤ} {y : ℝ} (hd : 0 < d) (hv : |(v : ℝ) - 2 ^ p * y| ≤ err p)
    (hne : (affineFloors a b d p v).1 ≠ (affineFloors a b d p v).2) :
    ∃ m : ℤ, 2 ^ p * |((a - m * d : ℤ) : ℝ) + b * y| ≤ 2 * |(b : ℝ)| * err p := by
  set N : ℤ := a * 2 ^ p + b * v with hN
  set e : ℤ := ((b.natAbs * err p : ℕ) : ℤ) with he
  set D : ℕ := d * 2 ^ p with hD
  have hDpos : (0 : ℤ) < D := by rw [hD]; exact_mod_cast Nat.mul_pos hd (by positivity)
  have h12 : (N - e) / (D : ℤ) < (N + e) / (D : ℤ) := by
    refine lt_of_le_of_ne (Int.ediv_le_ediv hDpos ?_) hne
    have : 0 ≤ e := by rw [he]; positivity
    omega
  refine ⟨(N + e) / D, ?_⟩
  set m := (N + e) / (D : ℤ) with hm
  have hlow : N - e < m * D := (Int.ediv_lt_iff_lt_mul hDpos).mp h12
  have hhigh : m * D ≤ N + e := Int.ediv_mul_le _ hDpos.ne'
  have hlow' : (N : ℝ) - e < m * D := by exact_mod_cast hlow
  have hhigh' : (m : ℝ) * D ≤ N + e := by exact_mod_cast hhigh
  have haff := affine_err (a := a) (b := b) hv
  rw [← hN] at haff
  have haff' : |(N : ℝ) - 2 ^ p * (a + b * y)| ≤ e := by rw [he]; exact_mod_cast haff
  have heq : (e : ℝ) = |(b : ℝ)| * err p := by
    rw [he]; push_cast; rfl
  have hDr : (D : ℝ) = d * 2 ^ p := by rw [hD]; push_cast; ring
  rw [abs_le] at haff'
  have e2 : (2 : ℝ) ^ p * |((a - m * d : ℤ) : ℝ) + b * y| = |2 ^ p * (a + b * y) - m * D| := by
    rw [← abs_of_nonneg (show (0 : ℝ) ≤ 2 ^ p by positivity), ← abs_mul,
      abs_of_nonneg (show (0 : ℝ) ≤ 2 ^ p by positivity), hDr]
    congr 1; push_cast; ring
  rw [e2, abs_le]
  constructor <;> linarith [haff'.1, haff'.2]

/-- `refine` answers the exact value if every enclosure surrounds it and the last one has one floor. -/
theorem refine_eq {enc : ℕ → ℤ × ℤ} {x : ℤ} (henc : ∀ p, 64 ≤ p → p % 2 = 0 → (enc p).1 ≤ x ∧ x ≤ (enc p).2) :
    ∀ k p, 64 ≤ p → p % 2 = 0 → (enc (2 ^ k * p)).1 = (enc (2 ^ k * p)).2 → refine enc k p = x := by
  intro k
  induction k with
  | zero =>
    intro p hp h2 heq
    rw [pow_zero, one_mul] at heq
    have := henc p hp h2
    rw [refine]; omega
  | succ k ih =>
    intro p hp h2 heq
    rw [refine]
    split_ifs with h
    · have := henc p hp h2; omega
    · exact ih (2 * p) (by omega) (by omega) (by rwa [pow_succ, mul_assoc] at heq)

/-- The precision of the last round, and its error bound. -/
theorem lastPrecision :
    ∃ P, P = 2 ^ rounds * firstPrecision ∧ 64 ≤ P ∧ P % 2 = 0 ∧ 2 ^ 38 ≤ P ∧ (err P : ℝ) ≤ 2 ^ 42 := by
  have h : 2 ^ rounds * firstPrecision = 549755813888 := by unfold rounds firstPrecision; norm_num
  refine ⟨_, rfl, ?_, ?_, ?_, ?_⟩ <;> rw [h]
  · norm_num
  · norm_num
  · have : err 549755813888 ≤ 2 ^ 42 := by unfold err; norm_num
    exact_mod_cast this

/-- Powers of two, compared by their exponents. -/
theorem two_pow_lt {m n : ℕ} (h : m < n) : (2 : ℝ) ^ m < 2 ^ n := pow_lt_pow_right₀ (by norm_num) h

theorem floorSinQuarter_eq {a b : ℤ} {d t n : ℕ} (hd : 0 < d) (hn : 0 < n) (ht : t ≤ n) (h3 : ¬ 3 ∣ n)
    (hb : |b| ≤ 2 ^ 75) (hn' : n ≤ 2 ^ 23) :
    floorSinQuarter a b d t n = ⌊((a : ℝ) + b * Real.sin (Real.pi / 2 * t / n)) / d⌋ := by
  have hnr : (n : ℝ) ≠ 0 := by exact_mod_cast hn.ne'
  unfold floorSinQuarter
  split_ifs with h0 h1
  · rw [ediv_eq_floor, h0]; simp
  · rw [ediv_eq_floor, h1, mul_div_assoc, div_self hnr, mul_one, Real.sin_pi_div_two]
    push_cast; rw [mul_one]
  have ht0 : 0 < t := Nat.pos_of_ne_zero h0
  have htn : t < n := lt_of_le_of_ne ht h1
  refine refine_eq (fun p hp h2 => affineFloors_enclose hd (sinApprox_err hp h2 hn ht)) _ _ (by decide) (by decide) ?_
  obtain ⟨P, hPdef, hP64, hP2, hPbig, herr⟩ := lastPrecision
  rw [← hPdef]
  have hS := sinApprox_err (p := P) hP64 hP2 hn ht
  generalize hv : sinApprox P t n = v at hS ⊢
  by_contra hne
  obtain ⟨m, hm⟩ := affineFloors_gap hd hS hne
  set c : ℤ := a - m * d with hc
  have hb0 : b ≠ 0 := by
    rintro rfl
    apply hne
    unfold affineFloors
    simp
  set s := Real.sin (Real.pi / 2 * t / n) with hs
  have hang : Real.pi / 2 * t / n = 2 * Real.pi * t / (4 * n : ℕ) := by push_cast; field_simp; norm_num
  have hnz := sin_form_ne_zero h3 ht0 htn c b hb0
  have hlow := sin_form_lower (l := 4 * n) (t := t) ⟨n, rfl⟩ (by omega) (by omega) c b hb0 (by rw [← hang]; exact hnz)
  rw [← hang, ← hs] at hlow
  -- sizes
  have hbr : |(b : ℝ)| ≤ 2 ^ 75 := by exact_mod_cast hb
  have hb1 : (1 : ℝ) ≤ |(b : ℝ)| := by exact_mod_cast Int.one_le_abs hb0
  set F := |(c : ℝ) + b * s| with hF
  have hP : (0 : ℝ) < 2 ^ P := by positivity
  have hFsmall : 2 ^ P * F ≤ 2 ^ 118 := by
    refine hm.trans ?_
    calc 2 * |(b : ℝ)| * err P ≤ 2 * 2 ^ 75 * 2 ^ 42 := by
          gcongr
      _ = 2 ^ 118 := by norm_num
  have hF1 : F ≤ 1 := by
    by_contra h
    push Not at h
    have : (2 : ℝ) ^ P < 2 ^ P * F := by nlinarith
    have := two_pow_lt (m := 118) (n := P) (by omega)
    linarith
  have hcle : |(c : ℝ)| ≤ |(b : ℝ)| + 1 := by
    have hs1 : |s| ≤ 1 := Real.abs_sin_le_one _
    have h1 : |(b : ℝ) * s| ≤ |(b : ℝ)| := by
      rw [abs_mul]
      exact mul_le_of_le_one_right (abs_nonneg _) hs1
    have : (c : ℝ) = (c + b * s) - b * s := by ring
    calc |(c : ℝ)| = |(c + b * s) - b * s| := by rw [← this]
      _ ≤ F + |(b : ℝ) * s| := abs_sub _ _
      _ ≤ |(b : ℝ)| + 1 := by linarith
  have hM : 2 * |(c : ℝ)| + 2 * |(b : ℝ)| ≤ 2 ^ 78 := by
    have : (2 : ℝ) ^ 78 = 8 * 2 ^ 75 := by norm_num
    linarith
  obtain ⟨E, hE⟩ : ∃ E : ℕ, E = 2617245696 := ⟨_, rfl⟩
  have hpow : (2 * |(c : ℝ)| + 2 * |(b : ℝ)|) ^ (4 * n) ≤ 2 ^ E := by
    calc (2 * |(c : ℝ)| + 2 * |(b : ℝ)|) ^ (4 * n) ≤ ((2 : ℝ) ^ 78) ^ (4 * n) := by gcongr
      _ = 2 ^ (78 * (4 * n)) := by rw [← pow_mul]
      _ ≤ 2 ^ E := pow_le_pow_right₀ (by norm_num) (by omega)
  have h5 : (1 : ℝ) ≤ 2 ^ E * (2 * F) := hlow.trans (by gcongr)
  have h6 : (2 : ℝ) ^ P ≤ 2 ^ E * 2 ^ 119 := by
    calc (2 : ℝ) ^ P = 2 ^ P * 1 := (mul_one _).symm
      _ ≤ 2 ^ P * (2 ^ E * (2 * F)) := by gcongr
      _ = 2 ^ E * (2 * (2 ^ P * F)) := by ring
      _ ≤ 2 ^ E * (2 * 2 ^ 118) := by gcongr
      _ = 2 ^ E * 2 ^ 119 := by rw [← pow_succ']
  rw [← pow_add] at h6
  exact absurd h6 (not_le.mpr (two_pow_lt (by omega)))

/-- A sine by the quarter of the period its angle falls in. -/
theorem sin_quarter (k n : ℕ) (hn : 0 < n) :
    Real.sin (2 * Real.pi * k / n)
      = (if 4 * (k % n) / n < 2 then 1 else -1)
        * Real.sin (Real.pi / 2 * (if 4 * (k % n) / n % 2 = 0 then 4 * (k % n) % n else n - 4 * (k % n) % n : ℕ) / n) := by
  have hnr : (n : ℝ) ≠ 0 := by exact_mod_cast hn.ne'
  set r := k % n with hr
  have hrn : r < n := Nat.mod_lt _ hn
  set q := 4 * r / n with hq
  set w := 4 * r % n with hw
  have hqw : 4 * r = n * q + w := (Nat.div_add_mod _ _).symm
  have hwn : w < n := Nat.mod_lt _ hn
  have hq4 : q < 4 := by
    rw [hq, Nat.div_lt_iff_lt_mul hn]; omega
  have hk : k = n * (k / n) + r := (Nat.div_add_mod _ _).symm
  have hred : Real.sin (2 * Real.pi * k / n) = Real.sin (Real.pi / 2 * q + Real.pi / 2 * w / n) := by
    have h4r : (4 * r : ℝ) = n * q + w := by exact_mod_cast hqw
    have hkr : (k : ℝ) = n * (k / n : ℕ) + r := by exact_mod_cast hk
    have : 2 * Real.pi * k / n = (Real.pi / 2 * q + Real.pi / 2 * w / n) + (k / n : ℕ) * (2 * Real.pi) := by
      rw [hkr]
      field_simp
      linear_combination h4r
    rw [this, Real.sin_add_nat_mul_two_pi]
  have hsub : ((n - w : ℕ) : ℝ) = n - w := by rw [Nat.cast_sub hwn.le]
  have hcos : ∀ x : ℝ, Real.cos x = Real.sin (Real.pi / 2 - x) := fun x => (Real.sin_pi_div_two_sub x).symm
  have hflip : Real.sin (Real.pi / 2 * (n - w : ℕ) / n) = Real.cos (Real.pi / 2 * w / n) := by
    rw [hcos, hsub]; congr 1; field_simp
  rw [hred]
  interval_cases q
  · simp
  · rw [if_pos (by norm_num), if_neg (by norm_num), hflip, one_mul, Nat.cast_one, mul_one, add_comm,
      Real.sin_add_pi_div_two]
  · rw [if_neg (by norm_num), if_pos (by norm_num)]
    rw [show Real.pi / 2 * (2 : ℕ) + Real.pi / 2 * w / n = Real.pi / 2 * w / n + Real.pi by push_cast; ring,
      Real.sin_add_pi]
    ring
  · rw [if_neg (by norm_num), if_neg (by norm_num), hflip]
    rw [show Real.pi / 2 * (3 : ℕ) + Real.pi / 2 * w / n = Real.pi / 2 * w / n + Real.pi / 2 + Real.pi by
      push_cast; ring, Real.sin_add_pi, Real.sin_add_pi_div_two]
    ring

/-- `floorSin` is the floor of the exact real, for the sizes the voice unit uses. -/
theorem floorSin_eq {a b : ℤ} {d n : ℕ} (k : ℕ) (hd : 0 < d) (hn : 0 < n) (h3 : ¬ 3 ∣ n) (hb : |b| ≤ 2 ^ 75)
    (hn' : n ≤ 2 ^ 23) :
    floorSin a b d k n = ⌊((a : ℝ) + b * Real.sin (2 * Real.pi * k / n)) / d⌋ := by
  have hw : 4 * (k % n) % n < n := Nat.mod_lt _ hn
  unfold floorSin
  simp only []
  rw [floorSinQuarter_eq hd hn (by split_ifs <;> omega) h3 (by split_ifs <;> simpa using hb) hn', sin_quarter k n hn]
  congr 2
  split_ifs <;> push_cast <;> ring

/-- The case of a positive exponent below 1. -/
theorem refinePow_eq {c d a q : ℕ} (hd : 0 < d) (h0 : 0 < a) (ha : a < q) (hc : c ≤ 2 ^ 57) (hq : q ≤ 2 ^ 18) :
    refine (fun p => affineFloors 0 c d p (powTwoApprox p a q)) rounds firstPrecision
      = ⌊((c : ℝ) * (2 : ℝ) ^ ((a : ℝ) / q)) / d⌋ := by
  have hq0 : 0 < q := h0.trans ha
  have henc := fun p (hp : 64 ≤ p) (_ : p % 2 = 0) =>
    affineFloors_enclose (a := 0) (b := (c : ℤ)) hd (powTwoApprox_err hp hq0 ha.le)
  simp only [Int.cast_zero, zero_add, Int.cast_natCast] at henc
  refine refine_eq henc _ _ (by decide) (by decide) ?_
  obtain ⟨P, hPdef, hP64, hP2, hPbig, herr⟩ := lastPrecision
  rw [← hPdef]
  have hS := powTwoApprox_err (p := P) hP64 hq0 ha.le
  generalize powTwoApprox P a q = v at hS ⊢
  by_contra hne
  obtain ⟨m, hm⟩ := affineFloors_gap hd hS hne
  set y := (2 : ℝ) ^ ((a : ℝ) / q) with hy
  have hc0 : c ≠ 0 := by
    rintro rfl
    apply hne
    unfold affineFloors
    simp
  have hc1 : (1 : ℝ) ≤ c := by exact_mod_cast Nat.one_le_iff_ne_zero.mpr hc0
  have hcr : (c : ℝ) ≤ 2 ^ 57 := by exact_mod_cast hc
  have hy1 : 1 ≤ y := Real.one_le_rpow (by norm_num) (by positivity)
  have hy2 : y ≤ 2 := by
    have : (a : ℝ) / q ≤ 1 := by
      rw [div_le_one (by positivity)]; exact_mod_cast ha.le
    calc y ≤ (2 : ℝ) ^ (1 : ℝ) := Real.rpow_le_rpow_of_exponent_le (by norm_num) this
      _ = 2 := Real.rpow_one 2
  have hP : (0 : ℝ) < 2 ^ P := by positivity
  push_cast at hm
  rw [zero_sub, abs_of_nonneg (show (0 : ℝ) ≤ c by positivity)] at hm
  have hform : |-((m : ℝ) * d) + c * y| = |(c : ℝ) * y - m * d| := by congr 1; ring
  rw [hform] at hm
  have hsmall : 2 ^ P * |(c : ℝ) * y - m * d| ≤ 2 ^ 100 := by
    refine hm.trans ?_
    calc 2 * (c : ℝ) * err P ≤ 2 * 2 ^ 57 * 2 ^ 42 := by
          gcongr
      _ = 2 ^ 100 := by norm_num
  have hF1 : |(c : ℝ) * y - m * d| < 1 := by
    by_contra h
    push Not at h
    have : (2 : ℝ) ^ P ≤ 2 ^ P * |(c : ℝ) * y - m * d| := by nlinarith
    have := two_pow_lt (m := 100) (n := P) (by omega)
    linarith
  -- the integer is a natural number
  have hmd0 : 0 ≤ m * d := by
    have h1 := (abs_lt.mp hF1).2
    have : (-1 : ℝ) < ((m * d : ℤ) : ℝ) := by push_cast; nlinarith
    have : (-1 : ℤ) < m * d := by exact_mod_cast this
    omega
  obtain ⟨u, hu⟩ := Int.eq_ofNat_of_zero_le hmd0
  have hur : (m : ℝ) * d = u := by exact_mod_cast hu
  rw [hur] at hsmall hF1
  have hule : (u : ℝ) ≤ 2 * c + 1 := by
    have := (abs_lt.mp hF1).1
    nlinarith
  have hlow := pow_form_lower h0 ha c u (Nat.pos_of_ne_zero hc0)
  rw [← hy] at hlow
  have hX : (2 * c + u : ℝ) ≤ 2 ^ 60 := by
    have : (2 : ℝ) ^ 60 = 8 * 2 ^ 57 := by norm_num
    linarith
  obtain ⟨E, hE⟩ : ∃ E : ℕ, E = 15728640 := ⟨_, rfl⟩
  have hpow : (2 * c + u : ℝ) ^ q ≤ 2 ^ E := by
    calc (2 * c + u : ℝ) ^ q ≤ ((2 : ℝ) ^ 60) ^ q := by gcongr
      _ = 2 ^ (60 * q) := by rw [← pow_mul]
      _ ≤ 2 ^ E := pow_le_pow_right₀ (by norm_num) (by omega)
  have hqr : (q : ℝ) ≤ 2 ^ 18 := by exact_mod_cast hq
  set F := |(c : ℝ) * y - u| with hF
  have h5 : (1 : ℝ) ≤ 2 ^ 18 * 2 ^ E * F := hlow.trans (by gcongr)
  have h6 : (2 : ℝ) ^ P ≤ 2 ^ 18 * 2 ^ E * 2 ^ 100 := by
    calc (2 : ℝ) ^ P = 2 ^ P * 1 := (mul_one _).symm
      _ ≤ 2 ^ P * (2 ^ 18 * 2 ^ E * F) := by gcongr
      _ = 2 ^ 18 * 2 ^ E * (2 ^ P * F) := by ring
      _ ≤ 2 ^ 18 * 2 ^ E * 2 ^ 100 := by gcongr
  rw [← pow_add, ← pow_add] at h6
  exact absurd h6 (not_le.mpr (two_pow_lt (by omega)))

/-- `floorPowTwo` is the floor of the exact real, for the sizes the voice unit uses. -/
theorem floorPowTwo_eq {c d q : ℕ} {a : ℤ} (hd : 0 < d) (h0 : a ≠ 0) (hlo : -q < a) (hhi : a < q) (hc : c ≤ 2 ^ 57)
    (hq : q ≤ 2 ^ 18) : floorPowTwo c d a q = ⌊((c : ℝ) * (2 : ℝ) ^ ((a : ℝ) / q)) / d⌋ := by
  have hq0 : (0 : ℝ) < q := by
    have : (0 : ℤ) < q := by omega
    exact_mod_cast this
  unfold floorPowTwo
  split_ifs with h
  · rw [refinePow_eq hd (by omega) (by omega) hc hq]
    have : ((a.toNat : ℕ) : ℝ) = a := by exact_mod_cast Int.toNat_of_nonneg h
    rw [this]
  · rw [refinePow_eq (by omega) (by omega) (by omega) hc hq]
    have : (((a + q).toNat : ℕ) : ℝ) = a + q := by
      have : 0 ≤ a + q := by omega
      exact_mod_cast Int.toNat_of_nonneg this
    rw [this, add_div, div_self hq0.ne', Real.rpow_add (by norm_num), Real.rpow_one]
    push_cast
    congr 1
    rw [div_eq_div_iff (by positivity) (by positivity)]
    ring

end Sys2Proof.Machine.Exact
end

