-- ==== Sys2Proof/Laws/Audio.lean ====
section
/-! SUPPORT. The integer arithmetic of the audio tick is the floor of the exact real formulas (41_voice.md R163-R174),
and its values stay in the ranges R174 states. -/

namespace Sys2Proof.Machine

open Sys2Proof.Reference

theorem natDiv_floor (a b : ℕ) : ((a / b : ℕ) : ℤ) = ⌊(a : ℝ) / b⌋ := Exact.natDiv_eq_floor a b

/-- The increment (R164) is one floor of the exact product, for every 32-bit frequency and 16-bit modulation value. -/
theorem phaseInc_eq (tg : Target) (mv e f : ℕ) (hf : f < 2 ^ 32) (hmv : mv < 2 ^ 16) :
    phaseInc tg mv e f = ⌊(f : ℝ) * 2 ^ 24 * incMult tg mv e / 20000⌋ := by
  have plain : ((f * 2 ^ 24 / 20000 : ℕ) : ℤ) = ⌊(f : ℝ) * 2 ^ 24 * 1 / 20000⌋ := by
    rw [natDiv_floor]; norm_num
  have hc : f * 2 ^ 24 ≤ 2 ^ 56 := by
    have := Nat.mul_le_mul_right (2 ^ 24) hf.le
    norm_num at this ⊢; omega
  cases tg
  case filterMod =>
    have hb : |((f * 2 ^ 24 * mv : ℕ) : ℤ)| ≤ 2 ^ 75 := by
      rw [abs_of_nonneg (by positivity)]
      have : f * 2 ^ 24 * mv ≤ 2 ^ 56 * 2 ^ 16 := Nat.mul_le_mul hc hmv.le
      exact_mod_cast this.trans (by norm_num)
    simp only [phaseInc, Config.phaseFracBits, Config.fmDepthDen, Config.fmDepthDiv, Config.sampleRate, Config.lfoHz]
    rw [Exact.floorSin_eq _ (by norm_num) (by norm_num) (by norm_num) hb (by norm_num)]
    congr 1
    rw [incMult]
    push_cast
    rw [show 2 * Real.pi * (20 * (e : ℝ)) / 20000 = 2 * Real.pi * 20 * e / 20000 by ring]
    field_simp
    ring
  case pitchBend =>
    simp only [phaseInc, Config.phaseFracBits, Config.sampleRate, Config.pbDiv, Config.pbExpDen]
    push_cast
    rw [Exact.floorPowTwo_eq (by norm_num) (by omega) (by push_cast; omega) (by push_cast; omega)
      (by norm_num at hc ⊢; omega) (by norm_num), incMult]
    have hexp : ((2 * (mv : ℤ) - 32767 : ℤ) : ℝ) / (196602 : ℕ) = ((mv : ℝ) / 32767 - 1 / 2) * (2 * 2) / 12 := by
      push_cast; field_simp; ring
    rw [hexp]
    congr 1
    push_cast
    ring
  all_goals simpa only [phaseInc, incMult, Config.phaseFracBits, Config.sampleRate] using plain

/-- The amplitude factor lies in [0, 1] (R174). -/
theorem amp_range (tg : Target) (mv e f idx : ℕ) (hmv : mv < 2 ^ 16) :
    0 ≤ amp tg mv e f idx ∧ amp tg mv e f idx ≤ 1 := by
  have hm : (mv : ℝ) ≤ 65535 := by
    have : mv ≤ 65535 := by omega
    exact_mod_cast this
  have hm0 : (0 : ℝ) ≤ mv := by positivity
  cases tg
  case cutoff => simp only [amp]; split_ifs <;> norm_num
  case attackEnvelope =>
    simp only [amp]
    have : (0 : ℝ) ≤ e * 4 / max 4 mv := by positivity
    exact ⟨le_min (by norm_num) this, min_le_left _ _⟩
  case envelopeWave =>
    simp only [amp]
    set S := |Real.sin (Real.pi * e / 20000)| with hS
    have h0 : 0 ≤ S := abs_nonneg _
    have h1 : S ≤ 1 := Real.abs_sin_le_one _
    constructor
    · have : 0 ≤ 1 - S := by linarith
      positivity
    · rw [div_le_one (by norm_num)]
      nlinarith
  case filterSweep =>
    simp only [amp]
    set S := Real.sin (2 * Real.pi * f * e / (256 * 20000)) with hS
    have h0 : -1 ≤ S := Real.neg_one_le_sin _
    have h1 : S ≤ 1 := Real.sin_le_one _
    set d : ℝ := mv / 65535 with hd
    have hd0 : 0 ≤ d := by positivity
    have hd1 : d ≤ 1 := by rw [hd, div_le_one (by norm_num)]; exact hm
    constructor <;> nlinarith
  all_goals simp [amp]

/-- The sample out of the modulation and the master volume (R167-R171, R174) is one floor of the exact product. -/
theorem sampleOut_eq (tg : Target) (mv e f idx x : ℕ) (hmv : mv < 2 ^ 16) (hx : x < 2 ^ 16) :
    sampleOut tg mv e f idx x = ⌊(x : ℝ) * amp tg mv e f idx * (1 / 2)⌋ := by
  have half : ((x / 2 : ℕ) : ℤ) = ⌊(x : ℝ) * 1 * (1 / 2)⌋ := by
    rw [natDiv_floor]; congr 1; push_cast; ring
  have hxm : x * mv ≤ 2 ^ 16 * 2 ^ 16 := Nat.mul_le_mul hx.le hmv.le
  cases tg
  case cutoff =>
    have hcut : (cutoffIndex mv f : ℤ) = ⌊(f : ℝ) * mv / (256 * 20000)⌋ := by
      simp only [cutoffIndex, Config.freqUnit, Config.sampleRate]
      rw [natDiv_floor]; norm_num
    simp only [sampleOut, amp, ← hcut]
    have hgt : ((idx : ℤ) > (cutoffIndex mv f : ℤ)) ↔ idx > cutoffIndex mv f := by omega
    simp only [hgt]
    split_ifs
    · simp only [Config.cutoffNum, Config.cutoffDen, Config.masterDiv]
      rw [natDiv_floor]; congr 1; push_cast; ring
    · exact half
  case attackEnvelope =>
    simp only [sampleOut, amp, Config.attackDiv, Config.masterDiv]
    rw [natDiv_floor]
    congr 1
    push_cast
    have hM : (0 : ℝ) < max 4 (mv : ℝ) := by positivity
    rcases le_total (max (4 : ℝ) mv) (e * 4) with h | h
    · rw [min_eq_left h, min_eq_left (by rw [le_div_iff₀ hM]; linarith)]
      field_simp
    · rw [min_eq_right h, min_eq_right (by rw [div_le_one hM]; exact h)]
      field_simp
  case envelopeWave =>
    simp only [sampleOut, amp, Config.envDepthDiv, Config.masterDiv, Config.sampleRate]
    rw [Exact.floorSin_eq _ (by norm_num) (by norm_num) (by norm_num)
      (by rw [abs_neg, abs_of_nonneg (by positivity)]; norm_num at hxm ⊢; omega) (by norm_num)]
    have hsin : |Real.sin (Real.pi * e / 20000)| = Real.sin (2 * Real.pi * (e % 20000 : ℕ) / (2 * 20000 : ℕ)) := by
      have he : (e : ℝ) = 20000 * (e / 20000 : ℕ) + (e % 20000 : ℕ) := by exact_mod_cast (Nat.div_add_mod e 20000).symm
      have hr : ((e % 20000 : ℕ) : ℝ) ≤ 20000 := by
        exact_mod_cast (Nat.mod_lt e (by norm_num : 0 < 20000)).le
      have hang : 2 * Real.pi * (e % 20000 : ℕ) / (2 * 20000 : ℕ) = Real.pi * (e % 20000 : ℕ) / 20000 := by
        push_cast; field_simp; ring
      rw [hang, he, show Real.pi * (20000 * ((e / 20000 : ℕ) : ℝ) + ((e % 20000 : ℕ) : ℝ)) / 20000
        = Real.pi * (e % 20000 : ℕ) / 20000 + (e / 20000 : ℕ) * Real.pi by field_simp; ring, Real.sin_add_nat_mul_pi,
        abs_mul, abs_pow, abs_neg, abs_one, one_pow, one_mul]
      apply abs_of_nonneg
      apply Real.sin_nonneg_of_nonneg_of_le_pi (by positivity)
      rw [div_le_iff₀ (by norm_num)]
      exact mul_le_mul_of_nonneg_left hr Real.pi_pos.le
    rw [hsin]
    congr 1
    push_cast
    ring
  case filterSweep =>
    have hle : mv ≤ 131070 := by omega
    have hB : |((x * mv : ℕ) : ℤ)| ≤ 2 ^ 75 := by
      rw [abs_of_nonneg (by positivity)]; norm_num at hxm ⊢; omega
    simp only [sampleOut, amp, Config.envDepthDiv, Config.masterDiv, Config.freqUnit, Config.sampleRate]
    rw [Exact.floorSin_eq _ (by norm_num) (by norm_num) (by norm_num) hB (by norm_num)]
    congr 1
    have : ((2 * 65535 - mv : ℕ) : ℝ) = 131070 - mv := by rw [Nat.cast_sub (by omega)]; push_cast; ring
    push_cast at this ⊢
    rw [this, show 2 * Real.pi * (f : ℝ) * e / (256 * 20000) = 2 * Real.pi * (f * e) / 5120000 by ring]
    ring
  all_goals simpa only [sampleOut, amp, Config.masterDiv] using half

/-- The sample out is a natural number at most 32767: the clamp of R174 never acts. -/
theorem sampleOut_range (tg : Target) (mv e f idx x : ℕ) (hmv : mv < 2 ^ 16) (hx : x < 2 ^ 16) :
    0 ≤ sampleOut tg mv e f idx x ∧ sampleOut tg mv e f idx x ≤ 32767 := by
  rw [sampleOut_eq tg mv e f idx x hmv hx]
  obtain ⟨h0, h1⟩ := amp_range tg mv e f idx hmv
  have hx' : (x : ℝ) ≤ 65535 := by
    have : x ≤ 65535 := by omega
    exact_mod_cast this
  have hx0 : (0 : ℝ) ≤ x := by positivity
  constructor
  · apply Int.floor_nonneg.mpr; positivity
  · have : (x : ℝ) * amp tg mv e f idx * (1 / 2) < 32768 := by nlinarith
    have := Int.floor_lt.mpr (show (x : ℝ) * amp tg mv e f idx * (1 / 2) < ((32768 : ℤ) : ℝ) by push_cast; exact this)
    omega

/-- Every entry of the ROM is an unsigned 16-bit value (40_wavetable.md R135). -/
theorem table_lt (w : Wave) : ∀ x ∈ Wave.table w, x < 2 ^ 16 := by
  cases w <;> simp only [Wave.table, sineTable, squareTable, triangleTable, sawtoothTable, List.forall_mem_append] <;>
    decide

theorem rom_lt (w : Wave) (i : BitVec 8) : rom w i < 2 ^ 16 := by
  unfold rom
  rcases Nat.lt_or_ge i.toNat (Wave.table w).length with h | h
  · rw [List.getD_eq_getElem _ _ h]
    exact table_lt w _ (List.getElem_mem h)
  · rw [List.getD_eq_default _ _ h]
    norm_num

/-- The duty word of a generating tick is the sample out itself. -/
theorem dutyOf_toNat {v : ℤ} (h0 : 0 ≤ v) (h1 : v ≤ 32767) : ((dutyOf v).toNat : ℤ) = v := by
  have : clamp v 0 65535 = v := by unfold clamp; omega
  rw [dutyOf, this, BitVec.toNat_ofInt]
  norm_num
  omega

theorem dutyOf_le (tg : Target) (mv e f idx x : ℕ) (hmv : mv < 2 ^ 16) (hx : x < 2 ^ 16) :
    (dutyOf (sampleOut tg mv e f idx x)).toNat ≤ 32767 := by
  obtain ⟨h0, h1⟩ := sampleOut_range tg mv e f idx x hmv hx
  have := dutyOf_toNat h0 h1
  omega

end Sys2Proof.Machine
end

