-- ==== Sys2Proof/Laws/Arith.lean ====
section
/-! SUPPORT. The operand arithmetic and `round_even` in closed form. -/

namespace Sys2Proof.Machine

open Sys2Proof.Reference

/-- `OctaveApply` is the floor of the exact product (41_voice.md R151). -/
theorem octaveApply_eq (x : ℕ) (k : Int) : ((octaveApply x k : ℕ) : ℤ) = ⌊(x : ℝ) * (2 : ℝ) ^ k⌋ := by
  unfold octaveApply
  split
  · next h =>
    obtain ⟨n, rfl⟩ := Int.eq_ofNat_of_zero_le h
    simp
    exact_mod_cast (Int.floor_natCast (R := ℝ) (x * 2 ^ n)).symm
  · next h =>
    obtain ⟨n, hn⟩ := Int.eq_ofNat_of_zero_le (show 0 ≤ -k by omega)
    have : k = -(n : ℤ) := by omega
    subst this
    simp only [neg_neg, Int.toNat_natCast, zpow_neg, zpow_natCast]
    rw [← div_eq_mul_inv]
    exact_mod_cast Sys2Proof.Machine.Exact.natDiv_eq_floor x (2 ^ n)

/-- A shifted frequency fits 27 bits (10_state.md R41). -/
theorem octaveApply_lt (x : ℕ) (k : Int) (hk : k ≤ 3) (hx : x < 2 ^ 24) : octaveApply x k < 2 ^ 27 := by
  unfold octaveApply
  split
  · have : k.toNat ≤ 3 := by omega
    calc x * 2 ^ k.toNat ≤ x * 2 ^ 3 := Nat.mul_le_mul_left _ (Nat.pow_le_pow_right (by norm_num) this)
      _ < _ := by omega
  · exact lt_of_le_of_lt (Nat.div_le_self _ _) (by omega)

/-- The modulation sum as an integer (41_voice.md R157). -/
theorem modSum_toNat (m : BitVec 16) (x : Int) : ((modSum m x).toNat : Int) = min 100 (max 1 ((m.toNat : Int) + x)) :=
    by
  unfold modSum clamp
  simp only [Config.modMin, Config.modMax, BitVec.toNat_ofInt]
  omega

/-- A concatenation as a number. -/
theorem append_toNat {m n : ℕ} (a : BitVec m) (b : BitVec n) : (a ++ b).toNat = a.toNat * 2 ^ n + b.toNat := by
  rw [BitVec.toNat_append, ← Nat.shiftLeft_add_eq_or_of_lt b.isLt, Nat.shiftLeft_eq]

theorem ofBool_toNat (b : Bool) : (BitVec.ofBool b).toNat = b.toNat := by cases b <;> rfl

/-- `round_even` of a quotient of naturals, by its remainder (00_scope.md R8). -/
theorem roundEven_div (n d : ℕ) (hd : 0 < d) : roundEven ((n : ℝ) / d) =
    ((if 2 * (n % d) < d then n / d else if d < 2 * (n % d) then n / d + 1
      else if n / d % 2 = 0 then n / d else n / d + 1 : ℕ) : ℤ) := by
  have hf : ⌊(n : ℝ) / d⌋ = ((n / d : ℕ) : ℤ) := (natDiv_floor n d).symm
  have hdr : (0 : ℝ) < d := by exact_mod_cast hd
  have hfr : (n : ℝ) / d - ((n / d : ℕ) : ℤ) = ((n % d : ℕ) : ℝ) / d := by
    have h2 : (n : ℝ) = d * (n / d : ℕ) + (n % d : ℕ) := by exact_mod_cast (Nat.div_add_mod n d).symm
    rw [eq_div_iff hdr.ne', sub_mul, div_mul_cancel₀ _ hdr.ne']
    generalize n / d = q at *
    generalize n % d = r at *
    rw [h2]; push_cast; ring
  unfold roundEven
  rw [hf, hfr]
  have c1 : ((n % d : ℕ) : ℝ) / d < 1 / 2 ↔ 2 * (n % d) < d := by
    rw [div_lt_div_iff₀ hdr (by norm_num)]
    constructor
    · intro h; have : ((n % d : ℕ) : ℝ) * 2 < (d : ℝ) := by linarith
      have : (n % d) * 2 < d := by exact_mod_cast this
      omega
    · intro h; have : ((2 * (n % d) : ℕ) : ℝ) < (d : ℝ) := by exact_mod_cast h
      push_cast at this; linarith
  have c2 : 1 / 2 < ((n % d : ℕ) : ℝ) / d ↔ d < 2 * (n % d) := by
    rw [div_lt_div_iff₀ (by norm_num) hdr]
    constructor
    · intro h; have : (d : ℝ) < ((n % d : ℕ) : ℝ) * 2 := by linarith
      have : d < (n % d) * 2 := by exact_mod_cast this
      omega
    · intro h; have : (d : ℝ) < ((2 * (n % d) : ℕ) : ℝ) := by exact_mod_cast h
      push_cast at this; linarith
  by_cases h1 : 2 * (n % d) < d
  · rw [if_pos (c1.mpr h1), if_pos h1]
  · rw [if_neg (fun h => h1 (c1.mp h)), if_neg h1]
    by_cases h2 : d < 2 * (n % d)
    · rw [if_pos (c2.mpr h2), if_pos h2]; push_cast; rfl
    · rw [if_neg (fun h => h2 (c2.mp h)), if_neg h2]
      by_cases h3 : n / d % 2 = 0
      · rw [if_pos h3, if_pos (by omega)]
      · rw [if_neg h3, if_neg (by omega)]; push_cast; rfl

/-- `round_even` is the floor of `x + 1/2` where `x + 1/2` is no integer, which a finer floor shows. -/
theorem roundEven_eq_of_not_tie (x : ℝ) (f : ℤ) (h1 : ⌊x + 1 / 2⌋ = f) (h2 : ⌊1000 * (x + 1 / 2)⌋ ≠ 1000 * f) :
    roundEven x = f := by
  have hne : x + 1 / 2 ≠ f := by
    intro h; apply h2; rw [h]
    have : (1000 * (f : ℝ)) = ((1000 * f : ℤ) : ℝ) := by push_cast; ring
    rw [this, Int.floor_intCast]
  have hx := Int.floor_le x
  have hx2 := Int.lt_floor_add_one x
  obtain ⟨g1, g2⟩ := Int.floor_eq_iff.mp h1
  unfold roundEven
  by_cases c1 : x - ⌊x⌋ < 1 / 2
  · rw [if_pos c1]
    rw [← h1]; symm; rw [Int.floor_eq_iff]; constructor <;> linarith
  · rw [if_neg c1]
    by_cases c2 : 1 / 2 < x - ⌊x⌋
    · rw [if_pos c2, ← h1]; symm; rw [Int.floor_eq_iff]; push_cast; constructor <;> linarith
    · exfalso
      have he : x + 1 / 2 = ((⌊x⌋ + 1 : ℤ) : ℝ) := by push_cast; linarith
      apply hne
      rw [he] at h1 ⊢
      rw [Int.floor_intCast] at h1
      rw [h1]

end Sys2Proof.Machine
end

