-- ==== Sys2Proof/Laws/Decode.lean ====
section
/-! SUPPORT. Small facts about the opcode map and the fields of a command word (30_encoding.md R100-R106): the codes
and their inverses, the opcode byte and the operand area of an encoded word. -/

namespace Sys2Proof

/-! ## Codes and their inverses -/

@[simp] theorem Wave.ofCode_code (w : Wave) : Wave.ofCode w.code = w := by cases w <;> rfl

@[simp] theorem Wave.code_ofCode (c : BitVec 2) : (Wave.ofCode c).code = c := by
  revert c; decide

@[simp] theorem Target.ofCode?_code (t : Target) : Target.ofCode? t.code = some t := by cases t <;> rfl

theorem Target.ofCode?_eq_none (c : BitVec 3) : Target.ofCode? c = none ↔ c = 7 := by
  revert c; decide

theorem Target.code_of_ofCode? {c : BitVec 3} {t : Target} (h : Target.ofCode? c = some t) : t.code = c := by
  revert h; revert t c; decide

@[simp] theorem ClockMode.ofCode?_code (m : ClockMode) : ClockMode.ofCode? m.code = some m := by cases m <;> rfl

theorem ClockMode.ofCode?_eq_none (c : BitVec 2) : ClockMode.ofCode? c = Option.none ↔ c = 3 := by
  revert c; decide

theorem ClockMode.code_of_ofCode? {c : BitVec 2} {m : ClockMode} (h : ClockMode.ofCode? c = some m) : m.code = c := by
  revert h; revert m c; decide

@[simp] theorem Opc.ofCode?_code (o : Opc) : Opc.ofCode? o.code = some o := by cases o <;> rfl

/-- The row found for an opcode byte has that byte. -/
theorem Opc.code_of_ofCode? {c : BitVec 8} {o : Opc} (h : Opc.ofCode? c = some o) : o.code = c := by
  revert o c; decide

theorem Opc.code_inj {o o' : Opc} (h : o.code = o'.code) : o = o' := by
  have := congrArg Opc.ofCode? h
  simpa using this

theorem Opc.mem_all (o : Opc) : o ∈ Opc.all := by cases o <;> decide

/-! ## Fields of a word -/

theorem opcodeOf_toNat (w : Word) : (opcodeOf w).toNat = w.toNat / 2 ^ 24 := by
  have := w.isLt
  simp only [opcodeOf, BitVec.extractLsb'_toNat, Nat.shiftRight_eq_div_pow]
  omega

/-- The bits of a word above its operand field and below its opcode are 0. -/
theorem reservedBits_eq_zero (f : Format) (w : Word) : reservedBits f w = 0 ↔ w.toNat % 2 ^ 24 < 2 ^ f.width := by
  unfold reservedBits
  exact Nat.div_eq_zero_iff_lt (Nat.two_pow_pos _)

theorem encode_toNat (i : Instr) : (encode i).toNat = i.opc.code.toNat * 2 ^ 24 + (operandArea i).toNat := by
  unfold encode
  rw [BitVec.toNat_append, ← Nat.shiftLeft_add_eq_or_of_lt (operandArea i).isLt, Nat.shiftLeft_eq]

/-- The opcode byte of an encoded command is its row's. -/
@[simp] theorem opcodeOf_encode (i : Instr) : opcodeOf (encode i) = i.opc.code := by
  apply BitVec.eq_of_toNat_eq
  have := (operandArea i).isLt
  rw [opcodeOf_toNat, encode_toNat]
  omega

theorem encode_mod (i : Instr) : (encode i).toNat % 2 ^ 24 = (operandArea i).toNat := by
  have := (operandArea i).isLt
  rw [encode_toNat]
  omega

/-- The low bits of an encoded command are its operand area's. -/
theorem extract_encode (i : Instr) (n : Nat) (hn : n ≤ 24) :
    (encode i).extractLsb' 0 n = (operandArea i).extractLsb' 0 n := by
  apply BitVec.eq_of_toNat_eq
  simp only [BitVec.extractLsb'_toNat, Nat.shiftRight_zero]
  rw [← encode_mod, Nat.mod_mod_of_dvd _ (Nat.pow_dvd_pow 2 hn)]

/-- What the decoder answers, read off the row and the reserved bits. -/
theorem decode_eq_ok {w : Word} {i : Instr} :
    decode w = .ok i ↔
      ∃ o, Opc.ofCode? (opcodeOf w) = some o ∧ reservedBits o.format w = 0 ∧ operandOf o w = i := by
  unfold decode
  cases h : Opc.ofCode? (opcodeOf w) with
  | none => simp
  | some o =>
    simp only [Option.some.injEq, exists_eq_left']
    split
    · next hr => simp [hr]
    · next hr => simp [hr]

/-- The command read from a word has the row its opcode byte selects. -/
@[simp] theorem operandOf_opc (o : Opc) (w : Word) : (operandOf o w).opc = o := by cases o <;> rfl

theorem decode_opc {w : Word} {i : Instr} (h : decode w = .ok i) : i.opc.code = opcodeOf w := by
  obtain ⟨o, ho, -, rfl⟩ := decode_eq_ok.mp h
  rw [operandOf_opc]
  exact Opc.code_of_ofCode? ho

end Sys2Proof
end

