-- ==== Sys2Proof/Laws/State.lean ====
section
/-! SUPPORT. One lemma per field of `State` for each operation that changes the state without a case distinction, true
by `rfl`: later proofs rewrite with these and unfold no record update. Operations with cases: Laws/Ops.lean. -/

namespace Sys2Proof.Machine

/-- Two states with the same fields are the same state. -/
theorem State.ext_of_fields {s t : State} (prog : s.prog = t.prog) (rt : s.rt = t.rt) (voice : s.voice = t.voice)
    (ifc : s.ifc = t.ifc) (cycle : s.cycle = t.cycle) (now : s.now = t.now) (history : s.history = t.history)
    (pending : s.pending = t.pending) (readData : s.readData = t.readData) : s = t := by
  cases s; cases t; simp_all

/-! ## Events, interrupt bits, errors -/

@[simp] theorem emit_prog (e : Event) (s : State) : (emit e s).prog = s.prog := rfl
@[simp] theorem emit_rt (e : Event) (s : State) : (emit e s).rt = s.rt := rfl
@[simp] theorem emit_voice (e : Event) (s : State) : (emit e s).voice = s.voice := rfl
@[simp] theorem emit_ifc (e : Event) (s : State) : (emit e s).ifc = s.ifc := rfl
@[simp] theorem emit_cycle (e : Event) (s : State) : (emit e s).cycle = s.cycle := rfl
@[simp] theorem emit_now (e : Event) (s : State) : (emit e s).now = s.now := rfl
@[simp] theorem emit_history (e : Event) (s : State) : (emit e s).history = (s.now, e) :: s.history := rfl
@[simp] theorem emit_pending (e : Event) (s : State) : (emit e s).pending = s.pending := rfl
@[simp] theorem emit_readData (e : Event) (s : State) : (emit e s).readData = s.readData := rfl

@[simp] theorem pend_prog (bit : BitVec 4) (s : State) : (pend bit s).prog = s.prog := rfl
@[simp] theorem pend_rt (bit : BitVec 4) (s : State) : (pend bit s).rt = s.rt := rfl
@[simp] theorem pend_voice (bit : BitVec 4) (s : State) : (pend bit s).voice = s.voice := rfl
@[simp] theorem pend_ifc (bit : BitVec 4) (s : State) : (pend bit s).ifc = { s.ifc with irqPend := s.ifc.irqPend ||| bit } := rfl
@[simp] theorem pend_cycle (bit : BitVec 4) (s : State) : (pend bit s).cycle = s.cycle := rfl
@[simp] theorem pend_now (bit : BitVec 4) (s : State) : (pend bit s).now = s.now := rfl
@[simp] theorem pend_history (bit : BitVec 4) (s : State) : (pend bit s).history = s.history := rfl
@[simp] theorem pend_pending (bit : BitVec 4) (s : State) : (pend bit s).pending = s.pending := rfl
@[simp] theorem pend_readData (bit : BitVec 4) (s : State) : (pend bit s).readData = s.readData := rfl

@[simp] theorem raise_prog (c : ErrCode) (opc : BitVec 8) (s : State) : (raise c opc s).prog = s.prog := rfl
@[simp] theorem raise_rt (c : ErrCode) (opc : BitVec 8) (s : State) : (raise c opc s).rt = s.rt := rfl
@[simp] theorem raise_voice (c : ErrCode) (opc : BitVec 8) (s : State) : (raise c opc s).voice = s.voice := rfl
@[simp] theorem raise_ifc (c : ErrCode) (opc : BitVec 8) (s : State) : (raise c opc s).ifc = { s.ifc with err := s.ifc.err ||| c.sticky, lastCode := c.code, lastOpc := opc, irqPend := s.ifc.irqPend ||| irqErr } := rfl
@[simp] theorem raise_cycle (c : ErrCode) (opc : BitVec 8) (s : State) : (raise c opc s).cycle = s.cycle := rfl
@[simp] theorem raise_now (c : ErrCode) (opc : BitVec 8) (s : State) : (raise c opc s).now = s.now := rfl
@[simp] theorem raise_history (c : ErrCode) (opc : BitVec 8) (s : State) : (raise c opc s).history = (s.now, .errlog c opc) :: s.history := rfl
@[simp] theorem raise_pending (c : ErrCode) (opc : BitVec 8) (s : State) : (raise c opc s).pending = s.pending := rfl
@[simp] theorem raise_readData (c : ErrCode) (opc : BitVec 8) (s : State) : (raise c opc s).readData = s.readData := rfl

@[simp] theorem busError_prog (s : State) : (busError s).prog = s.prog := rfl
@[simp] theorem busError_rt (s : State) : (busError s).rt = s.rt := rfl
@[simp] theorem busError_voice (s : State) : (busError s).voice = s.voice := rfl
@[simp] theorem busError_ifc (s : State) : (busError s).ifc = (raise .bus regOpc s).ifc := rfl
@[simp] theorem busError_cycle (s : State) : (busError s).cycle = s.cycle := rfl
@[simp] theorem busError_now (s : State) : (busError s).now = s.now := rfl
@[simp] theorem busError_history (s : State) : (busError s).history = (s.now, .errlog .bus regOpc) :: s.history := rfl
@[simp] theorem busError_pending (s : State) : (busError s).pending = s.pending := rfl
@[simp] theorem busError_readData (s : State) : (busError s).readData = s.readData := rfl

/-! ## Ports -/

@[simp] theorem play_prog (folder : BitVec 8) (n : BitVec 8) (s : State) : (play folder n s).prog = s.prog := rfl
@[simp] theorem play_rt (folder : BitVec 8) (n : BitVec 8) (s : State) : (play folder n s).rt = s.rt := rfl
@[simp] theorem play_voice (folder : BitVec 8) (n : BitVec 8) (s : State) : (play folder n s).voice = s.voice := rfl
@[simp] theorem play_ifc (folder : BitVec 8) (n : BitVec 8) (s : State) : (play folder n s).ifc = { s.ifc with playLast := { kind := .play, folder := folder, arg := n }, playCount := s.ifc.playCount + 1 } := rfl
@[simp] theorem play_cycle (folder : BitVec 8) (n : BitVec 8) (s : State) : (play folder n s).cycle = s.cycle := rfl
@[simp] theorem play_now (folder : BitVec 8) (n : BitVec 8) (s : State) : (play folder n s).now = s.now := rfl
@[simp] theorem play_history (folder : BitVec 8) (n : BitVec 8) (s : State) : (play folder n s).history = (s.now, .play folder n) :: s.history := rfl
@[simp] theorem play_pending (folder : BitVec 8) (n : BitVec 8) (s : State) : (play folder n s).pending = s.pending := rfl
@[simp] theorem play_readData (folder : BitVec 8) (n : BitVec 8) (s : State) : (play folder n s).readData = s.readData := rfl

@[simp] theorem volumeRequest_prog (level : BitVec 8) (s : State) : (volumeRequest level s).prog = s.prog := rfl
@[simp] theorem volumeRequest_rt (level : BitVec 8) (s : State) : (volumeRequest level s).rt = s.rt := rfl
@[simp] theorem volumeRequest_voice (level : BitVec 8) (s : State) : (volumeRequest level s).voice = s.voice := rfl
@[simp] theorem volumeRequest_ifc (level : BitVec 8) (s : State) : (volumeRequest level s).ifc = { s.ifc with playLast := { kind := .volume, folder := 0, arg := level } } := rfl
@[simp] theorem volumeRequest_cycle (level : BitVec 8) (s : State) : (volumeRequest level s).cycle = s.cycle := rfl
@[simp] theorem volumeRequest_now (level : BitVec 8) (s : State) : (volumeRequest level s).now = s.now := rfl
@[simp] theorem volumeRequest_history (level : BitVec 8) (s : State) : (volumeRequest level s).history = (s.now, .volume level) :: s.history := rfl
@[simp] theorem volumeRequest_pending (level : BitVec 8) (s : State) : (volumeRequest level s).pending = s.pending := rfl
@[simp] theorem volumeRequest_readData (level : BitVec 8) (s : State) : (volumeRequest level s).readData = s.readData := rfl

/-! ## The voice -/

@[simp] theorem startNote_prog (x : Nat) (s : State) : (startNote x s).prog = s.prog := rfl
@[simp] theorem startNote_rt (x : Nat) (s : State) : (startNote x s).rt = s.rt := rfl
@[simp] theorem startNote_voice (x : Nat) (s : State) : (startNote x s).voice = { s.voice with freq := BitVec.ofNat 32 (octaveApply x s.prog.octave.toInt), acc := 0, inc := 0, elapsed := 0, active := true, busy := true } := rfl
@[simp] theorem startNote_ifc (x : Nat) (s : State) : (startNote x s).ifc = s.ifc := rfl
@[simp] theorem startNote_cycle (x : Nat) (s : State) : (startNote x s).cycle = s.cycle := rfl
@[simp] theorem startNote_now (x : Nat) (s : State) : (startNote x s).now = s.now := rfl
@[simp] theorem startNote_history (x : Nat) (s : State) : (startNote x s).history = s.history := rfl
@[simp] theorem startNote_pending (x : Nat) (s : State) : (startNote x s).pending = s.pending := rfl
@[simp] theorem startNote_readData (x : Nat) (s : State) : (startNote x s).readData = s.readData := rfl

@[simp] theorem drainTick_prog (s : State) : (drainTick s).prog = s.prog := rfl
@[simp] theorem drainTick_rt (s : State) : (drainTick s).rt = s.rt := rfl
@[simp] theorem drainTick_voice (s : State) : (drainTick s).voice = { s.voice with duty := 0, busy := false } := rfl
@[simp] theorem drainTick_ifc (s : State) : (drainTick s).ifc = { s.ifc with cmdReady := true, irqPend := s.ifc.irqPend ||| irqJoin } := rfl
@[simp] theorem drainTick_cycle (s : State) : (drainTick s).cycle = s.cycle := rfl
@[simp] theorem drainTick_now (s : State) : (drainTick s).now = s.now := rfl
@[simp] theorem drainTick_history (s : State) : (drainTick s).history = (s.now, .pwm 0) :: s.history := rfl
@[simp] theorem drainTick_pending (s : State) : (drainTick s).pending = s.pending := rfl
@[simp] theorem drainTick_readData (s : State) : (drainTick s).readData = s.readData := rfl

@[simp] theorem generateTick_prog (s : State) : (generateTick s).prog = s.prog := rfl
@[simp] theorem generateTick_rt (s : State) : (generateTick s).rt = s.rt := rfl
@[simp] theorem generateTick_ifc (s : State) : (generateTick s).ifc = s.ifc := rfl
@[simp] theorem generateTick_cycle (s : State) : (generateTick s).cycle = s.cycle := rfl
@[simp] theorem generateTick_now (s : State) : (generateTick s).now = s.now := rfl
@[simp] theorem generateTick_history (s : State) : (generateTick s).history = (s.now, .pwm (generateTick s).voice.duty) :: s.history := rfl
@[simp] theorem generateTick_pending (s : State) : (generateTick s).pending = s.pending := rfl
@[simp] theorem generateTick_readData (s : State) : (generateTick s).readData = s.readData := rfl

/-! ## The sequencer -/

@[simp] theorem blinkReset_prog (s : State) : (blinkReset s).prog = s.prog := rfl
@[simp] theorem blinkReset_rt (s : State) : (blinkReset s).rt = { s.rt with blinkOn := true, blinkCnt := 0 } := rfl
@[simp] theorem blinkReset_voice (s : State) : (blinkReset s).voice = s.voice := rfl
@[simp] theorem blinkReset_ifc (s : State) : (blinkReset s).ifc = s.ifc := rfl
@[simp] theorem blinkReset_cycle (s : State) : (blinkReset s).cycle = s.cycle := rfl
@[simp] theorem blinkReset_now (s : State) : (blinkReset s).now = s.now := rfl
@[simp] theorem blinkReset_history (s : State) : (blinkReset s).history = s.history := rfl
@[simp] theorem blinkReset_pending (s : State) : (blinkReset s).pending = s.pending := rfl
@[simp] theorem blinkReset_readData (s : State) : (blinkReset s).readData = s.readData := rfl

@[simp] theorem clockRestart_prog (s : State) : (clockRestart s).prog = s.prog := rfl
@[simp] theorem clockRestart_rt (s : State) : (clockRestart s).rt = { s.rt with clkAcc := 0, pulse := 0 } := rfl
@[simp] theorem clockRestart_voice (s : State) : (clockRestart s).voice = s.voice := rfl
@[simp] theorem clockRestart_ifc (s : State) : (clockRestart s).ifc = s.ifc := rfl
@[simp] theorem clockRestart_cycle (s : State) : (clockRestart s).cycle = s.cycle := rfl
@[simp] theorem clockRestart_now (s : State) : (clockRestart s).now = s.now := rfl
@[simp] theorem clockRestart_history (s : State) : (clockRestart s).history = s.history := rfl
@[simp] theorem clockRestart_pending (s : State) : (clockRestart s).pending = s.pending := rfl
@[simp] theorem clockRestart_readData (s : State) : (clockRestart s).readData = s.readData := rfl

@[simp] theorem setCur_prog (i : BitVec 4) (s : State) : (setCur i s).prog = s.prog := rfl
@[simp] theorem setCur_rt (i : BitVec 4) (s : State) : (setCur i s).rt = { s.rt with cur := i } := rfl
@[simp] theorem setCur_voice (i : BitVec 4) (s : State) : (setCur i s).voice = s.voice := rfl
@[simp] theorem setCur_ifc (i : BitVec 4) (s : State) : (setCur i s).ifc = s.ifc := rfl
@[simp] theorem setCur_cycle (i : BitVec 4) (s : State) : (setCur i s).cycle = s.cycle := rfl
@[simp] theorem setCur_now (i : BitVec 4) (s : State) : (setCur i s).now = s.now := rfl
@[simp] theorem setCur_history (i : BitVec 4) (s : State) : (setCur i s).history = s.history := rfl
@[simp] theorem setCur_pending (i : BitVec 4) (s : State) : (setCur i s).pending = s.pending := rfl
@[simp] theorem setCur_readData (i : BitVec 4) (s : State) : (setCur i s).readData = s.readData := rfl

@[simp] theorem writeSlot_prog (i : BitVec 4) (x : Slot) (s : State) : (writeSlot i x s).prog = s.prog.setSlot i x := rfl
@[simp] theorem writeSlot_rt (i : BitVec 4) (x : Slot) (s : State) : (writeSlot i x s).rt = s.rt := rfl
@[simp] theorem writeSlot_voice (i : BitVec 4) (x : Slot) (s : State) : (writeSlot i x s).voice = s.voice := rfl
@[simp] theorem writeSlot_ifc (i : BitVec 4) (x : Slot) (s : State) : (writeSlot i x s).ifc = s.ifc := rfl
@[simp] theorem writeSlot_cycle (i : BitVec 4) (x : Slot) (s : State) : (writeSlot i x s).cycle = s.cycle := rfl
@[simp] theorem writeSlot_now (i : BitVec 4) (x : Slot) (s : State) : (writeSlot i x s).now = s.now := rfl
@[simp] theorem writeSlot_history (i : BitVec 4) (x : Slot) (s : State) : (writeSlot i x s).history = s.history := rfl
@[simp] theorem writeSlot_pending (i : BitVec 4) (x : Slot) (s : State) : (writeSlot i x s).pending = s.pending := rfl
@[simp] theorem writeSlot_readData (i : BitVec 4) (x : Slot) (s : State) : (writeSlot i x s).readData = s.readData := rfl

@[simp] theorem clearSlots_prog (s : State) : (clearSlots s).prog = { s.prog with seq := Vector.replicate 16 Slot.empty } := rfl
@[simp] theorem clearSlots_rt (s : State) : (clearSlots s).rt = s.rt := rfl
@[simp] theorem clearSlots_voice (s : State) : (clearSlots s).voice = s.voice := rfl
@[simp] theorem clearSlots_ifc (s : State) : (clearSlots s).ifc = s.ifc := rfl
@[simp] theorem clearSlots_cycle (s : State) : (clearSlots s).cycle = s.cycle := rfl
@[simp] theorem clearSlots_now (s : State) : (clearSlots s).now = s.now := rfl
@[simp] theorem clearSlots_history (s : State) : (clearSlots s).history = s.history := rfl
@[simp] theorem clearSlots_pending (s : State) : (clearSlots s).pending = s.pending := rfl
@[simp] theorem clearSlots_readData (s : State) : (clearSlots s).readData = s.readData := rfl

@[simp] theorem updateModval_prog (x : Int) (s : State) : (updateModval x s).prog = { s.prog with modval := modSum s.prog.modval x } := rfl
@[simp] theorem updateModval_rt (x : Int) (s : State) : (updateModval x s).rt = s.rt := rfl
@[simp] theorem updateModval_voice (x : Int) (s : State) : (updateModval x s).voice = s.voice := rfl
@[simp] theorem updateModval_ifc (x : Int) (s : State) : (updateModval x s).ifc = { s.ifc with irqPend := s.ifc.irqPend ||| irqDirty } := rfl
@[simp] theorem updateModval_cycle (x : Int) (s : State) : (updateModval x s).cycle = s.cycle := rfl
@[simp] theorem updateModval_now (x : Int) (s : State) : (updateModval x s).now = s.now := rfl
@[simp] theorem updateModval_history (x : Int) (s : State) : (updateModval x s).history = s.history := rfl
@[simp] theorem updateModval_pending (x : Int) (s : State) : (updateModval x s).pending = s.pending := rfl
@[simp] theorem updateModval_readData (x : Int) (s : State) : (updateModval x s).readData = s.readData := rfl

@[simp] theorem assignStep_prog (k : BitVec 4) (s : State) : (assignStep k s).prog = s.prog.setSlot s.rt.cur { valid := true, index := Config.keySampleMap k } := rfl
@[simp] theorem assignStep_rt (k : BitVec 4) (s : State) : (assignStep k s).rt = s.rt := rfl
@[simp] theorem assignStep_voice (k : BitVec 4) (s : State) : (assignStep k s).voice = s.voice := rfl
@[simp] theorem assignStep_ifc (k : BitVec 4) (s : State) : (assignStep k s).ifc = { s.ifc with irqPend := s.ifc.irqPend ||| irqDirty, playLast := { kind := .play, folder := s.prog.folder, arg := Config.keySampleMap k }, playCount := s.ifc.playCount + 1 } := rfl
@[simp] theorem assignStep_cycle (k : BitVec 4) (s : State) : (assignStep k s).cycle = s.cycle := rfl
@[simp] theorem assignStep_now (k : BitVec 4) (s : State) : (assignStep k s).now = s.now := rfl
@[simp] theorem assignStep_history (k : BitVec 4) (s : State) : (assignStep k s).history = (s.now, .play s.prog.folder (Config.keySampleMap k)) :: s.history := rfl
@[simp] theorem assignStep_pending (k : BitVec 4) (s : State) : (assignStep k s).pending = s.pending := rfl
@[simp] theorem assignStep_readData (k : BitVec 4) (s : State) : (assignStep k s).readData = s.readData := rfl

/-! ## The cycle -/

@[simp] theorem beginCycle_prog (s : State) : (beginCycle s).prog = s.prog := rfl
@[simp] theorem beginCycle_rt (s : State) : (beginCycle s).rt = s.rt := rfl
@[simp] theorem beginCycle_voice (s : State) : (beginCycle s).voice = s.voice := rfl
@[simp] theorem beginCycle_ifc (s : State) : (beginCycle s).ifc = s.ifc := rfl
@[simp] theorem beginCycle_cycle (s : State) : (beginCycle s).cycle = s.cycle := rfl
@[simp] theorem beginCycle_now (s : State) : (beginCycle s).now = s.now := rfl
@[simp] theorem beginCycle_history (s : State) : (beginCycle s).history = s.history := rfl
@[simp] theorem beginCycle_pending (s : State) : (beginCycle s).pending = s.pending.tail := rfl
@[simp] theorem beginCycle_readData (s : State) : (beginCycle s).readData = none := rfl

/-! ## The pattern's slots -/

@[simp] theorem setSlot_slot_same (p : Program) (i : BitVec 4) (x : Slot) : (p.setSlot i x).slot i = x := by
  simp [Program.setSlot, Program.slot]

theorem setSlot_slot (p : Program) (i j : BitVec 4) (x : Slot) :
    (p.setSlot i x).slot j = if j = i then x else p.slot j := by
  by_cases h : j = i
  · subst h; simp
  · have hn : i.toNat ≠ j.toNat := fun e => h (BitVec.eq_of_toNat_eq e.symm)
    simp [Program.setSlot, Program.slot, h, hn]

@[simp] theorem clearSlots_slot (s : State) (j : BitVec 4) : (clearSlots s).prog.slot j = Slot.empty := by
  simp [clearSlots, Program.slot]

@[simp] theorem setKeyFreq_keyFreq_same (p : Program) (k : BitVec 4) (x : BitVec 24) :
    (p.setKeyFreq k x).keyFreq k = x := by
  simp [Program.setKeyFreq, Program.keyFreq]

theorem setKeyFreq_keyFreq (p : Program) (k j : BitVec 4) (x : BitVec 24) :
    (p.setKeyFreq k x).keyFreq j = if j = k then x else p.keyFreq j := by
  by_cases h : j = k
  · subst h; simp
  · have hn : k.toNat ≠ j.toNat := fun e => h (BitVec.eq_of_toNat_eq e.symm)
    simp [Program.setKeyFreq, Program.keyFreq, h, hn]

@[simp] theorem setSlot_folder (p : Program) (i : BitVec 4) (x : Slot) : (p.setSlot i x).folder = p.folder := rfl
@[simp] theorem setSlot_tempo (p : Program) (i : BitVec 4) (x : Slot) : (p.setSlot i x).tempo = p.tempo := rfl
@[simp] theorem setSlot_wave (p : Program) (i : BitVec 4) (x : Slot) : (p.setSlot i x).wave = p.wave := rfl
@[simp] theorem setSlot_target (p : Program) (i : BitVec 4) (x : Slot) : (p.setSlot i x).target = p.target := rfl
@[simp] theorem setSlot_modval (p : Program) (i : BitVec 4) (x : Slot) : (p.setSlot i x).modval = p.modval := rfl
@[simp] theorem setSlot_octave (p : Program) (i : BitVec 4) (x : Slot) : (p.setSlot i x).octave = p.octave := rfl
@[simp] theorem setSlot_clock (p : Program) (i : BitVec 4) (x : Slot) : (p.setSlot i x).clock = p.clock := rfl
@[simp] theorem setSlot_keyfreq (p : Program) (i : BitVec 4) (x : Slot) : (p.setSlot i x).keyfreq = p.keyfreq := rfl
@[simp] theorem setKeyFreq_folder (p : Program) (k : BitVec 4) (x : BitVec 24) : (p.setKeyFreq k x).folder = p.folder := rfl
@[simp] theorem setKeyFreq_tempo (p : Program) (k : BitVec 4) (x : BitVec 24) : (p.setKeyFreq k x).tempo = p.tempo := rfl
@[simp] theorem setKeyFreq_wave (p : Program) (k : BitVec 4) (x : BitVec 24) : (p.setKeyFreq k x).wave = p.wave := rfl
@[simp] theorem setKeyFreq_target (p : Program) (k : BitVec 4) (x : BitVec 24) : (p.setKeyFreq k x).target = p.target := rfl
@[simp] theorem setKeyFreq_modval (p : Program) (k : BitVec 4) (x : BitVec 24) : (p.setKeyFreq k x).modval = p.modval := rfl
@[simp] theorem setKeyFreq_octave (p : Program) (k : BitVec 4) (x : BitVec 24) : (p.setKeyFreq k x).octave = p.octave := rfl
@[simp] theorem setKeyFreq_clock (p : Program) (k : BitVec 4) (x : BitVec 24) : (p.setKeyFreq k x).clock = p.clock := rfl
@[simp] theorem setKeyFreq_seq (p : Program) (k : BitVec 4) (x : BitVec 24) : (p.setKeyFreq k x).seq = p.seq := rfl

@[simp] theorem setSlot_keyFreq (p : Program) (i k : BitVec 4) (x : Slot) : (p.setSlot i x).keyFreq k = p.keyFreq k := rfl

@[simp] theorem setKeyFreq_slot (p : Program) (i k : BitVec 4) (x : BitVec 24) : (p.setKeyFreq k x).slot i = p.slot i := rfl

end Sys2Proof.Machine
end

