-- ==== Sys2Proof/Laws/Ops.lean ====
section
/-! SUPPORT. What each shared operation with cases can do: which fields it never touches (tagged `@[simp]`), and one
closed form for each field it may change. Later proofs cite these and do not unfold the operations. -/

namespace Sys2Proof.Machine

/-! ## Command acceptance (30_encoding.md R103) -/

/-- `accept` always answers a next state. -/
theorem accept_eq (o : Opc) (s t : State) :
    accept o s t = .next (if s.ifc.cmdReady = false then raise .overrun o.code s
      else if needsView o = true ∧ s.rt.view = false then raise .state o.code s else t) := by
  unfold accept
  split
  · rfl
  · split <;> rfl

/-- With the join done and the view open, a command's rule runs. -/
@[simp] theorem accept_open {o : Opc} {s t : State} (hr : s.ifc.cmdReady = true) (hv : s.rt.view = true) :
    accept o s t = .next t := by
  simp [accept, hr, hv]

theorem accept_next {o : Opc} {s t u : State} (h : accept o s t = .next u) :
    (u = raise .overrun o.code s ∧ s.ifc.cmdReady = false)
      ∨ (u = raise .state o.code s ∧ s.ifc.cmdReady = true ∧ needsView o = true ∧ s.rt.view = false)
      ∨ (u = t ∧ s.ifc.cmdReady = true ∧ (needsView o = true → s.rt.view = true)) := by
  rw [accept_eq] at h
  injection h with h
  subst h
  cases hr : s.ifc.cmdReady <;> cases hv : s.rt.view <;> cases hn : needsView o <;> simp

/-! ## Operand checks -/

theorem tempoLegal_iff (bpm : Nat) : tempoLegal bpm = true ↔ 60 ≤ bpm ∧ bpm ≤ 140 := decide_eq_true_iff

theorem tempoLegal_eq_false (bpm : Nat) : tempoLegal bpm = false ↔ bpm < 60 ∨ 140 < bpm := by
  rw [← Bool.not_eq_true, tempoLegal_iff]
  omega

theorem sounding_iff (s : State) : sounding s = true ↔ s.voice.active = true ∨ s.voice.busy = true := Bool.or_eq_true_iff

/-! ## Stopping the voice (41_voice.md R152) -/

@[simp] theorem stopVoice_prog (s : State) : (stopVoice s).prog = s.prog := by
  cases ha : s.voice.active <;> cases hb : s.voice.busy <;> simp [stopVoice, ha, hb]
@[simp] theorem stopVoice_cycle (s : State) : (stopVoice s).cycle = s.cycle := by
  cases ha : s.voice.active <;> cases hb : s.voice.busy <;> simp [stopVoice, ha, hb]
@[simp] theorem stopVoice_now (s : State) : (stopVoice s).now = s.now := by
  cases ha : s.voice.active <;> cases hb : s.voice.busy <;> simp [stopVoice, ha, hb]
@[simp] theorem stopVoice_pending (s : State) : (stopVoice s).pending = s.pending := by
  cases ha : s.voice.active <;> cases hb : s.voice.busy <;> simp [stopVoice, ha, hb]
@[simp] theorem stopVoice_readData (s : State) : (stopVoice s).readData = s.readData := by
  cases ha : s.voice.active <;> cases hb : s.voice.busy <;> simp [stopVoice, ha, hb]

@[simp] theorem stopVoice_rt (s : State) : (stopVoice s).rt = { s.rt with heldValid := false, heldKey := 0 } := by
  cases ha : s.voice.active <;> cases hb : s.voice.busy <;> simp [stopVoice, ha, hb]

theorem stopVoice_voice (s : State) : (stopVoice s).voice =
    if s.voice.active then { s.voice with active := false }
    else if s.voice.busy then s.voice else { s.voice with duty := 0 } := by
  cases ha : s.voice.active <;> cases hb : s.voice.busy <;> simp [stopVoice, ha, hb]

theorem stopVoice_ifc (s : State) : (stopVoice s).ifc =
    if s.voice.active then { s.ifc with cmdReady := false } else s.ifc := by
  cases ha : s.voice.active <;> cases hb : s.voice.busy <;> simp [stopVoice, ha, hb]

theorem stopVoice_history (s : State) : (stopVoice s).history =
    if sounding s then s.history else (s.now, .pwm 0) :: s.history := by
  cases ha : s.voice.active <;> cases hb : s.voice.busy <;> simp [sounding, stopVoice, ha, hb]

/-! ## Clock pulses and steps (42_sequencer.md R201-R203) -/

@[simp] theorem pulseEvent_prog (s : State) : (pulseEvent s).prog = s.prog := by
  cases h : s.prog.clock <;> simp [pulseEvent, h]
@[simp] theorem pulseEvent_rt (s : State) : (pulseEvent s).rt = s.rt := by
  cases h : s.prog.clock <;> simp [pulseEvent, h]
@[simp] theorem pulseEvent_voice (s : State) : (pulseEvent s).voice = s.voice := by
  cases h : s.prog.clock <;> simp [pulseEvent, h]
@[simp] theorem pulseEvent_cycle (s : State) : (pulseEvent s).cycle = s.cycle := by
  cases h : s.prog.clock <;> simp [pulseEvent, h]
@[simp] theorem pulseEvent_now (s : State) : (pulseEvent s).now = s.now := by
  cases h : s.prog.clock <;> simp [pulseEvent, h]
@[simp] theorem pulseEvent_pending (s : State) : (pulseEvent s).pending = s.pending := by
  cases h : s.prog.clock <;> simp [pulseEvent, h]
@[simp] theorem pulseEvent_readData (s : State) : (pulseEvent s).readData = s.readData := by
  cases h : s.prog.clock <;> simp [pulseEvent, h]

theorem pulseEvent_ifc (s : State) : (pulseEvent s).ifc =
    if s.prog.clock = .midiClock then { s.ifc with midiCount := s.ifc.midiCount + 1 } else s.ifc := by
  cases h : s.prog.clock <;> simp [pulseEvent, h]

theorem pulseEvent_history (s : State) : (pulseEvent s).history =
    if s.prog.clock = .midiClock then (s.now, .midi Config.midiClockByte) :: s.history else s.history := by
  cases h : s.prog.clock <;> simp [pulseEvent, h]

@[simp] theorem syncStart_prog (s : State) : (syncStart s).prog = s.prog := by
  cases h : s.prog.clock <;> simp [syncStart, h]
@[simp] theorem syncStart_voice (s : State) : (syncStart s).voice = s.voice := by
  cases h : s.prog.clock <;> simp [syncStart, h]
@[simp] theorem syncStart_cycle (s : State) : (syncStart s).cycle = s.cycle := by
  cases h : s.prog.clock <;> simp [syncStart, h]
@[simp] theorem syncStart_now (s : State) : (syncStart s).now = s.now := by
  cases h : s.prog.clock <;> simp [syncStart, h]
@[simp] theorem syncStart_history (s : State) : (syncStart s).history = s.history := by
  cases h : s.prog.clock <;> simp [syncStart, h]
@[simp] theorem syncStart_pending (s : State) : (syncStart s).pending = s.pending := by
  cases h : s.prog.clock <;> simp [syncStart, h]
@[simp] theorem syncStart_readData (s : State) : (syncStart s).readData = s.readData := by
  cases h : s.prog.clock <;> simp [syncStart, h]

theorem syncStart_rt (s : State) : (syncStart s).rt =
    if s.prog.clock = .syncPulse then { s.rt with syncLevel := true, syncCnt := BitVec.ofNat 32 Config.syncWidthTb }
    else s.rt := by
  cases h : s.prog.clock <;> simp [syncStart, h]

theorem syncStart_ifc (s : State) : (syncStart s).ifc =
    if s.prog.clock = .syncPulse then { s.ifc with syncCount := s.ifc.syncCount + 1 } else s.ifc := by
  cases h : s.prog.clock <;> simp [syncStart, h]

@[simp] theorem triggerStep_prog (s : State) : (triggerStep s).prog = s.prog := by
  cases h : (s.prog.slot s.rt.cur).valid <;> simp [triggerStep, h]
@[simp] theorem triggerStep_rt (s : State) : (triggerStep s).rt = s.rt := by
  cases h : (s.prog.slot s.rt.cur).valid <;> simp [triggerStep, h]
@[simp] theorem triggerStep_voice (s : State) : (triggerStep s).voice = s.voice := by
  cases h : (s.prog.slot s.rt.cur).valid <;> simp [triggerStep, h]
@[simp] theorem triggerStep_cycle (s : State) : (triggerStep s).cycle = s.cycle := by
  cases h : (s.prog.slot s.rt.cur).valid <;> simp [triggerStep, h]
@[simp] theorem triggerStep_now (s : State) : (triggerStep s).now = s.now := by
  cases h : (s.prog.slot s.rt.cur).valid <;> simp [triggerStep, h]
@[simp] theorem triggerStep_pending (s : State) : (triggerStep s).pending = s.pending := by
  cases h : (s.prog.slot s.rt.cur).valid <;> simp [triggerStep, h]
@[simp] theorem triggerStep_readData (s : State) : (triggerStep s).readData = s.readData := by
  cases h : (s.prog.slot s.rt.cur).valid <;> simp [triggerStep, h]

theorem triggerStep_ifc (s : State) : (triggerStep s).ifc =
    if (s.prog.slot s.rt.cur).valid then (play s.prog.folder (s.prog.slot s.rt.cur).index s).ifc else s.ifc := by
  cases h : (s.prog.slot s.rt.cur).valid <;> simp [triggerStep, h]

theorem triggerStep_history (s : State) : (triggerStep s).history =
    if (s.prog.slot s.rt.cur).valid then (s.now, .play s.prog.folder (s.prog.slot s.rt.cur).index) :: s.history
    else s.history := by
  cases h : (s.prog.slot s.rt.cur).valid <;> simp [triggerStep, h]

@[simp] theorem fireStep_prog (s : State) : (fireStep s).prog = s.prog := by
  simp [fireStep]
@[simp] theorem fireStep_voice (s : State) : (fireStep s).voice = s.voice := by
  simp [fireStep]
@[simp] theorem fireStep_cycle (s : State) : (fireStep s).cycle = s.cycle := by
  simp [fireStep]
@[simp] theorem fireStep_now (s : State) : (fireStep s).now = s.now := by
  simp [fireStep]
@[simp] theorem fireStep_pending (s : State) : (fireStep s).pending = s.pending := by
  simp [fireStep]
@[simp] theorem fireStep_readData (s : State) : (fireStep s).readData = s.readData := by
  simp [fireStep]

@[simp] theorem fireStep_rt (s : State) : (fireStep s).rt = (syncStart s).rt := by
  simp [fireStep, syncStart_rt]

/-- A step event's interface effects, each from the state before it. -/
theorem fireStep_ifc (s : State) : (fireStep s).ifc =
    { s.ifc with
      midiCount := (if s.prog.clock = .midiClock then s.ifc.midiCount + 1 else s.ifc.midiCount),
      syncCount := (if s.prog.clock = .syncPulse then s.ifc.syncCount + 1 else s.ifc.syncCount),
      playLast := (if (s.prog.slot s.rt.cur).valid then
        { kind := .play, folder := s.prog.folder, arg := (s.prog.slot s.rt.cur).index } else s.ifc.playLast),
      playCount := (if (s.prog.slot s.rt.cur).valid then s.ifc.playCount + 1 else s.ifc.playCount),
      irqPend := s.ifc.irqPend ||| irqStep } := by
  have hrt : (syncStart (pulseEvent s)).rt.cur = s.rt.cur := by
    rw [syncStart_rt]; split <;> simp
  simp only [fireStep, pend_ifc, triggerStep_ifc, syncStart_prog, pulseEvent_prog, hrt, play_ifc, syncStart_ifc,
    pulseEvent_ifc]
  cases s.prog.clock <;> cases (s.prog.slot s.rt.cur).valid <;> simp

/-- A step event's output events: the clock byte, then the sample trigger. -/
theorem fireStep_history (s : State) : (fireStep s).history =
    (if (s.prog.slot s.rt.cur).valid then [(s.now, .play s.prog.folder (s.prog.slot s.rt.cur).index)] else [])
      ++ (if s.prog.clock = .midiClock then [(s.now, .midi Config.midiClockByte)] else []) ++ s.history := by
  have hrt : (syncStart (pulseEvent s)).rt.cur = s.rt.cur := by
    rw [syncStart_rt]; split <;> simp
  simp only [fireStep, pend_history, triggerStep_history, syncStart_prog, pulseEvent_prog, hrt, syncStart_history,
    pulseEvent_history, syncStart_now, pulseEvent_now]
  cases s.prog.clock <;> cases (s.prog.slot s.rt.cur).valid <;> simp

@[simp] theorem earlyAdvance_prog (s : State) : (earlyAdvance s).prog = s.prog := by
  simp [earlyAdvance]
@[simp] theorem earlyAdvance_voice (s : State) : (earlyAdvance s).voice = s.voice := by
  simp [earlyAdvance]
@[simp] theorem earlyAdvance_cycle (s : State) : (earlyAdvance s).cycle = s.cycle := by
  simp [earlyAdvance]
@[simp] theorem earlyAdvance_now (s : State) : (earlyAdvance s).now = s.now := by
  simp [earlyAdvance]
@[simp] theorem earlyAdvance_pending (s : State) : (earlyAdvance s).pending = s.pending := by
  simp [earlyAdvance]
@[simp] theorem earlyAdvance_readData (s : State) : (earlyAdvance s).readData = s.readData := by
  simp [earlyAdvance]

/-! ## Stopping the run (42_sequencer.md R204) -/

@[simp] theorem stopSeq_prog (s : State) : (stopSeq s).prog = s.prog := by
  cases h : s.rt.running <;> simp [stopSeq, h]
@[simp] theorem stopSeq_voice (s : State) : (stopSeq s).voice = s.voice := by
  cases h : s.rt.running <;> simp [stopSeq, h]
@[simp] theorem stopSeq_ifc (s : State) : (stopSeq s).ifc = s.ifc := by
  cases h : s.rt.running <;> simp [stopSeq, h]
@[simp] theorem stopSeq_cycle (s : State) : (stopSeq s).cycle = s.cycle := by
  cases h : s.rt.running <;> simp [stopSeq, h]
@[simp] theorem stopSeq_now (s : State) : (stopSeq s).now = s.now := by
  cases h : s.rt.running <;> simp [stopSeq, h]
@[simp] theorem stopSeq_history (s : State) : (stopSeq s).history = s.history := by
  cases h : s.rt.running <;> simp [stopSeq, h]
@[simp] theorem stopSeq_pending (s : State) : (stopSeq s).pending = s.pending := by
  cases h : s.rt.running <;> simp [stopSeq, h]
@[simp] theorem stopSeq_readData (s : State) : (stopSeq s).readData = s.readData := by
  cases h : s.rt.running <;> simp [stopSeq, h]

theorem stopSeq_rt (s : State) : (stopSeq s).rt =
    if s.rt.running then
      { s.rt with
        running := false, blinkOn := true, blinkCnt := 0, syncLevel := false, syncCnt := 0, clkAcc := 0, pulse := 0,
        guard := 0 }
    else s.rt := by
  cases h : s.rt.running <;> simp [stopSeq, h]

/-! ## The timebase tick (42_sequencer.md R230-R234) -/

@[simp] theorem syncCountdown_prog (s : State) : (syncCountdown s).prog = s.prog := by
  unfold syncCountdown; split
  · dsimp only; split <;> rfl
  · rfl
@[simp] theorem syncCountdown_voice (s : State) : (syncCountdown s).voice = s.voice := by
  unfold syncCountdown; split
  · dsimp only; split <;> rfl
  · rfl
@[simp] theorem syncCountdown_ifc (s : State) : (syncCountdown s).ifc = s.ifc := by
  unfold syncCountdown; split
  · dsimp only; split <;> rfl
  · rfl
@[simp] theorem syncCountdown_cycle (s : State) : (syncCountdown s).cycle = s.cycle := by
  unfold syncCountdown; split
  · dsimp only; split <;> rfl
  · rfl
@[simp] theorem syncCountdown_now (s : State) : (syncCountdown s).now = s.now := by
  unfold syncCountdown; split
  · dsimp only; split <;> rfl
  · rfl
@[simp] theorem syncCountdown_history (s : State) : (syncCountdown s).history = s.history := by
  unfold syncCountdown; split
  · dsimp only; split <;> rfl
  · rfl
@[simp] theorem syncCountdown_pending (s : State) : (syncCountdown s).pending = s.pending := by
  unfold syncCountdown; split
  · dsimp only; split <;> rfl
  · rfl
@[simp] theorem syncCountdown_readData (s : State) : (syncCountdown s).readData = s.readData := by
  unfold syncCountdown; split
  · dsimp only; split <;> rfl
  · rfl

@[simp] theorem blinkTimer_prog (s : State) : (blinkTimer s).prog = s.prog := by
  unfold blinkTimer; dsimp only; split
  · rfl
  · split <;> rfl
@[simp] theorem blinkTimer_voice (s : State) : (blinkTimer s).voice = s.voice := by
  unfold blinkTimer; dsimp only; split
  · rfl
  · split <;> rfl
@[simp] theorem blinkTimer_ifc (s : State) : (blinkTimer s).ifc = s.ifc := by
  unfold blinkTimer; dsimp only; split
  · rfl
  · split <;> rfl
@[simp] theorem blinkTimer_cycle (s : State) : (blinkTimer s).cycle = s.cycle := by
  unfold blinkTimer; dsimp only; split
  · rfl
  · split <;> rfl
@[simp] theorem blinkTimer_now (s : State) : (blinkTimer s).now = s.now := by
  unfold blinkTimer; dsimp only; split
  · rfl
  · split <;> rfl
@[simp] theorem blinkTimer_history (s : State) : (blinkTimer s).history = s.history := by
  unfold blinkTimer; dsimp only; split
  · rfl
  · split <;> rfl
@[simp] theorem blinkTimer_pending (s : State) : (blinkTimer s).pending = s.pending := by
  unfold blinkTimer; dsimp only; split
  · rfl
  · split <;> rfl
@[simp] theorem blinkTimer_readData (s : State) : (blinkTimer s).readData = s.readData := by
  unfold blinkTimer; dsimp only; split
  · rfl
  · split <;> rfl

@[simp] theorem guardCountdown_prog (s : State) : (guardCountdown s).prog = s.prog := by
  unfold guardCountdown; split <;> rfl
@[simp] theorem guardCountdown_voice (s : State) : (guardCountdown s).voice = s.voice := by
  unfold guardCountdown; split <;> rfl
@[simp] theorem guardCountdown_ifc (s : State) : (guardCountdown s).ifc = s.ifc := by
  unfold guardCountdown; split <;> rfl
@[simp] theorem guardCountdown_cycle (s : State) : (guardCountdown s).cycle = s.cycle := by
  unfold guardCountdown; split <;> rfl
@[simp] theorem guardCountdown_now (s : State) : (guardCountdown s).now = s.now := by
  unfold guardCountdown; split <;> rfl
@[simp] theorem guardCountdown_history (s : State) : (guardCountdown s).history = s.history := by
  unfold guardCountdown; split <;> rfl
@[simp] theorem guardCountdown_pending (s : State) : (guardCountdown s).pending = s.pending := by
  unfold guardCountdown; split <;> rfl
@[simp] theorem guardCountdown_readData (s : State) : (guardCountdown s).readData = s.readData := by
  unfold guardCountdown; split <;> rfl

@[simp] theorem clockPulse_prog (s : State) : (clockPulse s).prog = s.prog := by
  unfold clockPulse; split <;> simp
@[simp] theorem clockPulse_voice (s : State) : (clockPulse s).voice = s.voice := by
  unfold clockPulse; split <;> simp
@[simp] theorem clockPulse_cycle (s : State) : (clockPulse s).cycle = s.cycle := by
  unfold clockPulse; split <;> simp
@[simp] theorem clockPulse_now (s : State) : (clockPulse s).now = s.now := by
  unfold clockPulse; split <;> simp
@[simp] theorem clockPulse_pending (s : State) : (clockPulse s).pending = s.pending := by
  unfold clockPulse; split <;> simp
@[simp] theorem clockPulse_readData (s : State) : (clockPulse s).readData = s.readData := by
  unfold clockPulse; split <;> simp

@[simp] theorem clockAccumulate_prog (s : State) : (clockAccumulate s).prog = s.prog := by
  unfold clockAccumulate; dsimp only; split <;> simp
@[simp] theorem clockAccumulate_voice (s : State) : (clockAccumulate s).voice = s.voice := by
  unfold clockAccumulate; dsimp only; split <;> simp
@[simp] theorem clockAccumulate_cycle (s : State) : (clockAccumulate s).cycle = s.cycle := by
  unfold clockAccumulate; dsimp only; split <;> simp
@[simp] theorem clockAccumulate_now (s : State) : (clockAccumulate s).now = s.now := by
  unfold clockAccumulate; dsimp only; split <;> simp
@[simp] theorem clockAccumulate_pending (s : State) : (clockAccumulate s).pending = s.pending := by
  unfold clockAccumulate; dsimp only; split <;> simp
@[simp] theorem clockAccumulate_readData (s : State) : (clockAccumulate s).readData = s.readData := by
  unfold clockAccumulate; dsimp only; split <;> simp

@[simp] theorem runOrBlink_prog (s : State) : (runOrBlink s).prog = s.prog := by
  unfold runOrBlink; split
  · simp
  · split <;> simp
@[simp] theorem runOrBlink_voice (s : State) : (runOrBlink s).voice = s.voice := by
  unfold runOrBlink; split
  · simp
  · split <;> simp
@[simp] theorem runOrBlink_cycle (s : State) : (runOrBlink s).cycle = s.cycle := by
  unfold runOrBlink; split
  · simp
  · split <;> simp
@[simp] theorem runOrBlink_now (s : State) : (runOrBlink s).now = s.now := by
  unfold runOrBlink; split
  · simp
  · split <;> simp
@[simp] theorem runOrBlink_pending (s : State) : (runOrBlink s).pending = s.pending := by
  unfold runOrBlink; split
  · simp
  · split <;> simp
@[simp] theorem runOrBlink_readData (s : State) : (runOrBlink s).readData = s.readData := by
  unfold runOrBlink; split
  · simp
  · split <;> simp

@[simp] theorem timebaseTick_prog (s : State) : (timebaseTick s).prog = s.prog := by
  unfold timebaseTick; split <;> simp
@[simp] theorem timebaseTick_voice (s : State) : (timebaseTick s).voice = s.voice := by
  unfold timebaseTick; split <;> simp
@[simp] theorem timebaseTick_cycle (s : State) : (timebaseTick s).cycle = s.cycle := by
  unfold timebaseTick; split <;> simp
@[simp] theorem timebaseTick_now (s : State) : (timebaseTick s).now = s.now := by
  unfold timebaseTick; split <;> simp
@[simp] theorem timebaseTick_pending (s : State) : (timebaseTick s).pending = s.pending := by
  unfold timebaseTick; split <;> simp
@[simp] theorem timebaseTick_readData (s : State) : (timebaseTick s).readData = s.readData := by
  unfold timebaseTick; split <;> simp

/-! ## The audio tick (41_voice.md R160) -/

@[simp] theorem audioTick_prog (s : State) : (audioTick s).prog = s.prog := by
  unfold audioTick; split
  · simp
  · split <;> simp
@[simp] theorem audioTick_rt (s : State) : (audioTick s).rt = s.rt := by
  unfold audioTick; split
  · simp
  · split <;> simp
@[simp] theorem audioTick_cycle (s : State) : (audioTick s).cycle = s.cycle := by
  unfold audioTick; split
  · simp
  · split <;> simp
@[simp] theorem audioTick_now (s : State) : (audioTick s).now = s.now := by
  unfold audioTick; split
  · simp
  · split <;> simp
@[simp] theorem audioTick_pending (s : State) : (audioTick s).pending = s.pending := by
  unfold audioTick; split
  · simp
  · split <;> simp
@[simp] theorem audioTick_readData (s : State) : (audioTick s).readData = s.readData := by
  unfold audioTick; split
  · simp
  · split <;> simp

/-! ## The cycle (00_scope.md R15) -/

@[simp] theorem timebasePhase_prog (s : State) : (timebasePhase s).prog = s.prog := by
  unfold timebasePhase; split <;> simp
@[simp] theorem timebasePhase_voice (s : State) : (timebasePhase s).voice = s.voice := by
  unfold timebasePhase; split <;> simp
@[simp] theorem timebasePhase_cycle (s : State) : (timebasePhase s).cycle = s.cycle := by
  unfold timebasePhase; split <;> simp
@[simp] theorem timebasePhase_now (s : State) : (timebasePhase s).now = s.now := by
  unfold timebasePhase; split <;> simp
@[simp] theorem timebasePhase_pending (s : State) : (timebasePhase s).pending = s.pending := by
  unfold timebasePhase; split <;> simp
@[simp] theorem timebasePhase_readData (s : State) : (timebasePhase s).readData = s.readData := by
  unfold timebasePhase; split <;> simp

@[simp] theorem audioPhase_prog (s : State) : (audioPhase s).prog = s.prog := by
  unfold audioPhase; split <;> simp
@[simp] theorem audioPhase_rt (s : State) : (audioPhase s).rt = s.rt := by
  unfold audioPhase; split <;> simp
@[simp] theorem audioPhase_cycle (s : State) : (audioPhase s).cycle = s.cycle := by
  unfold audioPhase; split <;> simp
@[simp] theorem audioPhase_now (s : State) : (audioPhase s).now = s.now := by
  unfold audioPhase; split <;> simp
@[simp] theorem audioPhase_pending (s : State) : (audioPhase s).pending = s.pending := by
  unfold audioPhase; split <;> simp
@[simp] theorem audioPhase_readData (s : State) : (audioPhase s).readData = s.readData := by
  unfold audioPhase; split <;> simp

@[simp] theorem endCycle_prog (before : BitVec 16) (s : State) : (endCycle before s).prog = s.prog := by
  unfold endCycle; split <;> rfl
@[simp] theorem endCycle_rt (before : BitVec 16) (s : State) : (endCycle before s).rt = s.rt := by
  unfold endCycle; split <;> rfl
@[simp] theorem endCycle_voice (before : BitVec 16) (s : State) : (endCycle before s).voice = s.voice := by
  unfold endCycle; split <;> rfl
@[simp] theorem endCycle_ifc (before : BitVec 16) (s : State) : (endCycle before s).ifc = s.ifc := by
  unfold endCycle; split <;> rfl
@[simp] theorem endCycle_pending (before : BitVec 16) (s : State) : (endCycle before s).pending = s.pending := by
  unfold endCycle; split <;> rfl
@[simp] theorem endCycle_readData (before : BitVec 16) (s : State) : (endCycle before s).readData = s.readData := by
  unfold endCycle; split <;> rfl
@[simp] theorem endCycle_cycle (before : BitVec 16) (s : State) : (endCycle before s).cycle = s.cycle + 1 := by
  unfold endCycle; split <;> rfl
@[simp] theorem endCycle_now (before : BitVec 16) (s : State) : (endCycle before s).now = s.now + 1 := by
  unfold endCycle; split <;> rfl
theorem endCycle_history (before : BitVec 16) (s : State) : (endCycle before s).history =
    if grid s = before then s.history else (s.now, .disp (grid s)) :: s.history := by
  unfold endCycle; split <;> rfl

end Sys2Proof.Machine
end

