-- ==== Sys2Proof/Laws/Exec.lean ====
section
/-! SUPPORT. Every command is the acceptance checks of 30_encoding.md R103 around its own rule, and always answers a
next state. Later proofs about all commands reason about `rule` through these. -/

namespace Sys2Proof.Machine

/-- The state a command's own rule leaves, once it is accepted. -/
def rule (i : Instr) (s : State) : State :=
  match i with
  | .nop => s
  | .noteOn freq => if sounding s then s else startNote freq s
  | .noteOff => stopVoice s
  | .setWave wave =>
    if sounding s then raise .hazard Opc.setWave.code s
    else pend irqDirty { s with prog := { s.prog with wave := wave } }
  | .setTarget code =>
    match Target.ofCode? code with
    | none => raise .range Opc.setTarget.code s
    | some .disabled => pend irqDirty { s with prog := { s.prog with target := .disabled, modval := 0 } }
    | some t => pend irqDirty { s with prog := { s.prog with target := t } }
  | .modUpdate delta => updateModval delta s
  | .setOctave shift => pend irqDirty { s with prog := { s.prog with octave := octaveOf shift } }
  | .seqOpen =>
    if s.rt.view then raise .state Opc.seqOpen.code s
    else { s with rt := { Runtime.reset with view := true }, voice := Voice.reset }
  | .seqExit =>
    let t := stopSeq s
    let u := stopVoice { t with rt := { t.rt with dual := false } }
    { u with rt := { u.rt with view := false } }
  | .run => runSeq Config.dualDuringRun s
  | .stop => stopSeq s
  | .toggleDual => toggleDual Config.dualDuringRun s
  | .assign key => if s.rt.dual then raise .state Opc.assign.code s else assignStep key s
  | .clearStep =>
    let t := pend irqDirty (writeSlot s.rt.cur Slot.empty s)
    if s.rt.running then earlyAdvance t else t
  | .clearPattern =>
    let t := pend irqDirty (clearSlots s)
    if s.rt.running then earlyAdvance t else t
  | .cursorNext => moveCursor .cursorNext (s.rt.cur + 1) s
  | .cursorPrev => moveCursor .cursorPrev (s.rt.cur - 1) s
  | .cursorSet step => moveCursor .cursorSet step s
  | .setTempo bpm =>
    if tempoLegal bpm then pend irqDirty { s with prog := { s.prog with tempo := BitVec.ofNat 8 bpm } }
    else raise .range Opc.setTempo.code s
  | .setClock code =>
    match ClockMode.ofCode? code with
    | none => raise .range Opc.setClock.code s
    | some c => pend irqDirty { s with prog := { s.prog with clock := c } }
  | .keyPress key => if s.rt.dual then liveKey key s else assignStep key s
  | .keyRelease key => if s.rt.heldValid = true ∧ s.rt.heldKey = key then stopVoice s else s
  | .encoder steps => if s.rt.dual then updateModval steps s else s
  | .setVolume level =>
    if level > Config.volumeMax then raise .range Opc.setVolume.code s else volumeRequest (BitVec.ofNat 8 level) s

/-- A command is its rule behind the acceptance checks. -/
theorem exec_eq_accept (i : Instr) (s : State) : exec i s = accept i.opc s (rule i s) := by
  cases i <;> rfl

/-- The three ways a command ends: refused for a pending join, refused for the closed view, or by its own rule. -/
theorem exec_next {i : Instr} {s t : State} (h : exec i s = .next t) :
    (t = raise .overrun i.opc.code s ∧ s.ifc.cmdReady = false)
      ∨ (t = raise .state i.opc.code s ∧ s.ifc.cmdReady = true ∧ needsView i.opc = true ∧ s.rt.view = false)
      ∨ (t = rule i s ∧ s.ifc.cmdReady = true ∧ (needsView i.opc = true → s.rt.view = true)) :=
  accept_next (exec_eq_accept i s ▸ h)

theorem exec_open (i : Instr) {s : State} (hr : s.ifc.cmdReady = true) (hv : s.rt.view = true) :
    exec i s = .next (rule i s) := by
  rw [exec_eq_accept, accept_open hr hv]

end Sys2Proof.Machine
end

