-- ==== Sys2Proof/Laws/Cycle.lean ====
section
/-! SUPPORT. What one host access and one cycle can do: which of the model's own fields they touch, and that the event
history only grows, by events of the current cycle. -/

namespace Sys2Proof.Machine

/-- The rules touch none of the fields that are the model's own but for the history. -/
theorem rule_own (i : Instr) (s : State) : (rule i s).cycle = s.cycle ∧ (rule i s).now = s.now ∧
    (rule i s).pending = s.pending ∧ (rule i s).readData = s.readData := by
  cases i <;> simp only [rule, runSeq, toggleDual, flipDual, moveCursor, liveKey]
  case setTarget x => cases h : Target.ofCode? x with
     | none => simp
     | some t => cases t <;> simp
  case setClock x => cases h : ClockMode.ofCode? x with
     | none => simp
     | some t => simp
  all_goals (try split_ifs)
  all_goals (simp [earlyAdvance])

/-- A command touches none of the fields that are the model's own but for the history. -/
theorem exec_own {i : Instr} {s t : State} (h : exec i s = .next t) : t.cycle = s.cycle ∧ t.now = s.now ∧
    t.pending = s.pending ∧ t.readData = s.readData := by
  rcases exec_next h with ⟨rfl, -⟩ | ⟨rfl, -⟩ | ⟨rfl, -⟩
  · simp
  · simp
  · exact rule_own i s

/-- What the event of an operation carries: R323, R174, R281; the display event is the cycle's, not an operation's. -/
def EventOk : Event → Prop
  | .midi b => b = Config.midiClockByte
  | .pwm d => d.toNat ≤ 32767
  | .volume l => l.toNat ≤ 30
  | .disp _ => False
  | .play _ _ => True
  | .errlog _ _ => True
/-- `t` adds to the history of `s` only events of the current cycle (00_scope.md R13). -/
def Grows (s t : State) : Prop := ∃ new, t.history = new ++ s.history ∧ ∀ x ∈ new, x.1 = s.now ∧ EventOk x.2

theorem Grows.refl (s : State) : Grows s s := ⟨[], rfl, by simp⟩
theorem Grows.of_eq {s t : State} (h : t.history = s.history) : Grows s t := ⟨[], by simp [h], by simp⟩
theorem Grows.one {s t : State} {e : Event} (h : t.history = (s.now, e) :: s.history) (he : EventOk e) : Grows s t :=
    ⟨[(s.now, e)], by simp [h], by simpa using he⟩
theorem Grows.trans {s t u : State} (hn : t.now = s.now) : Grows s t → Grows t u → Grows s u := by
  rintro ⟨a, ha, hA⟩ ⟨b, hb, hB⟩
  refine ⟨b ++ a, by rw [hb, ha]; simp, ?_⟩
  intro x hx
  rcases List.mem_append.mp hx with h | h
  · rw [← hn]; exact hB x h
  · exact hA x h

theorem grows_raise (c o s) : Grows s (raise c o s) := .one rfl trivial
theorem grows_stopVoice (s) : Grows s (stopVoice s) := by
  rcases h : sounding s with _ | _
  · exact .one (by rw [stopVoice_history, h]; rfl) (by simp [EventOk])
  · exact .of_eq (by rw [stopVoice_history, h]; rfl)
theorem grows_fireStep (s) : Grows s (fireStep s) := by
  refine ⟨_, fireStep_history s, ?_⟩
  intro x hx
  rw [List.mem_append] at hx
  rcases hx with hx | hx <;> split at hx <;> simp at hx <;> subst hx <;> simp [EventOk]

theorem Grows.congr_left {s u t : State} (h : Grows u t) (h1 : u.history = s.history) (h2 : u.now = s.now) :
    Grows s t := by
  obtain ⟨n, a, b⟩ := h
  exact ⟨n, by rw [a, h1], by rw [← h2]; exact b⟩
theorem Grows.congr_right {s u t : State} (h : Grows s u) (h1 : t.history = u.history) : Grows s t := by
  obtain ⟨n, a, b⟩ := h
  exact ⟨n, by rw [h1, a], b⟩

theorem grows_rule (i : Instr) (s : State) : Grows s (rule i s) := by
  cases i <;> simp only [rule, runSeq, toggleDual, flipDual, moveCursor, liveKey]
  case setTarget x => cases h : Target.ofCode? x with
     | none => exact grows_raise _ _ _
     | some t => cases t <;> exact .of_eq (by simp)
  case setClock x => cases h : ClockMode.ofCode? x with
     | none => exact grows_raise _ _ _
     | some t => exact .of_eq (by simp)
  case seqExit => exact Grows.congr_right (Grows.congr_left (grows_stopVoice _) (by simp) (by simp)) rfl
  case noteOff => exact grows_stopVoice _
  case setVolume l =>
    by_cases h : l > Config.volumeMax
    · rw [if_pos h]; exact grows_raise _ _ _
    · rw [if_neg h]; refine Grows.one rfl ?_
      have : ¬ l > 30 := h
      simp [EventOk]; omega
  all_goals (try split_ifs)
  all_goals first
    | exact Grows.refl s
    | exact grows_raise _ _ _
    | exact grows_stopVoice _
    | (refine Grows.of_eq ?_; simp; done)
    | exact Grows.one (e := .play _ _) rfl trivial
    | (refine Grows.congr_left (grows_fireStep _) ?_ ?_ <;> simp)

theorem grows_exec {i s t} (h : exec i s = .next t) : Grows s t := by
  rcases exec_next h with ⟨rfl, -⟩ | ⟨rfl, -⟩ | ⟨rfl, -⟩
  · exact grows_raise _ _ _
  · exact grows_raise _ _ _
  · exact grows_rule _ _

/-- A register write touches none of the fields that are the model's own but for the history, which grows. -/
theorem writeReg_own (r : Reg) (v : Word) (s : State) : (writeReg r v s).cycle = s.cycle ∧
    (writeReg r v s).now = s.now ∧ (writeReg r v s).pending = s.pending ∧ Grows s (writeReg r v s) := by
  cases r <;> simp only [writeReg]
  case err => unfold writeErr; dsimp only; split <;> exact ⟨rfl, rfl, rfl, Grows.of_eq rfl⟩
  case progCfg =>
    unfold writeProgCfg; dsimp only
    split
    · split_ifs
      · exact ⟨rfl, rfl, rfl, grows_raise _ _ _⟩
      · exact ⟨rfl, rfl, rfl, grows_raise _ _ _⟩
      · exact ⟨rfl, rfl, rfl, Grows.of_eq rfl⟩
    · exact ⟨rfl, rfl, rfl, grows_raise _ _ _⟩
  case id => exact ⟨rfl, rfl, rfl, grows_raise _ _ _⟩
  all_goals first
    | (refine ⟨?_, ?_, ?_, grows_raise _ _ _⟩ <;> simp)
    | (refine ⟨?_, ?_, ?_, Grows.of_eq ?_⟩ <;> simp)

/-- Nor does a whole host access. -/
theorem hostAccess_own {a s t} (h : hostAccess a s = .next t) : t.cycle = s.cycle ∧ t.now = s.now ∧
    t.pending = s.pending ∧ Grows s t := by
  unfold hostAccess at h
  split at h
  · injection h with h; subst h; exact ⟨rfl, rfl, rfl, Grows.refl _⟩
  · injection h with h; subst h
    unfold hostRead
    split
    · exact ⟨rfl, rfl, rfl, Grows.of_eq rfl⟩
    · exact ⟨rfl, rfl, rfl, Grows.congr_right (grows_raise .bus regOpc s) rfl⟩
  · unfold hostWrite at h
    split at h
    · injection h with h; subst h; exact ⟨rfl, rfl, rfl, grows_raise _ _ _⟩
    · unfold issueCommand at h
      split at h
      · injection h with h; subst h; exact ⟨rfl, rfl, rfl, grows_raise _ _ _⟩
      · split at h
        · injection h with h; subst h; exact ⟨rfl, rfl, rfl, grows_raise _ _ _⟩
        · obtain ⟨a, b, c, d⟩ := exec_own h
          exact ⟨a, b, c, grows_exec h⟩
    · injection h with h; subst h; exact writeReg_own _ _ _

theorem hostAccess_total (a : Option Access) (s : State) : ∃ t, hostAccess a s = .next t := by
  unfold hostAccess
  split
  · exact ⟨_, rfl⟩
  · exact ⟨_, rfl⟩
  · unfold hostWrite
    split
    · exact ⟨_, rfl⟩
    · unfold issueCommand
      split
      · exact ⟨_, rfl⟩
      · split
        · exact ⟨_, rfl⟩
        · rw [exec_eq_accept, accept_eq]; exact ⟨_, rfl⟩
    · exact ⟨_, rfl⟩

/-- A cycle with RST low: the access, the two ticks, the end of the cycle (00_scope.md R15). -/
theorem step_noRst {s : State} (h : (nextInput s).rst = false) :
    ∃ t, hostAccess (nextInput s).access (beginCycle s) = .next t ∧ step s = .next (endCycle (grid s)
    (audioPhase (timebasePhase t))) := by
  obtain ⟨t, ht⟩ := hostAccess_total (nextInput s).access (beginCycle s)
  exact ⟨t, ht, by simp [step, clockCycle, h, ht]⟩

/-- A cycle with RST high (70_reset_and_hazards.md R350). -/
theorem step_rst {s : State} (h : (nextInput s).rst = true) :
    step s = .next (resetCycle (nextInput s).access (beginCycle s)) := by
  simp [step, clockCycle, h]

end Sys2Proof.Machine
end

