-- ==== Sys2Proof/Laws/Ticks.lean ====
section
/-! SUPPORT. What each part of the timebase tick does to the runtime (42_sequencer.md R231-R234), with the counters'
integer comparisons in plain numerals, and what the parts of the cycle's ticks leave unchanged. -/

namespace Sys2Proof.Machine

theorem toNat_pos_iff {w : Nat} (x : BitVec w) : 0 < x.toNat ↔ x ≠ 0 := by
  rw [Nat.pos_iff_ne_zero, Ne, Ne, ← BitVec.toNat_inj]
  simp

/-- R231: one down to zero; the level falls when zero is reached. -/
theorem syncCountdown_rt (s : State) : (syncCountdown s).rt =
    { s.rt with
      syncCnt := (if s.rt.syncCnt = 0 then 0 else s.rt.syncCnt - 1),
      syncLevel := (if s.rt.syncCnt = 1 then false else s.rt.syncLevel) } := by
  have key : s.rt.syncCnt - 1 = 0 ↔ s.rt.syncCnt = 1 := by
    constructor <;> intro h
    · have := congrArg (· + 1#32) h
      simpa using this
    · rw [h]; rfl
  unfold syncCountdown
  by_cases h0 : s.rt.syncCnt = 0
  · have : ¬ s.rt.syncCnt = 1 := by rw [h0]; decide
    simp only [h0, if_true, gt_iff_lt]
    rw [if_neg (by decide), if_neg (by decide)]
    cases s; cases ‹Runtime›; simp_all
  · simp only [gt_iff_lt, toNat_pos_iff, ne_eq, h0, not_false_eq_true, if_true, if_false, key]
    split <;> rfl

/-- R233. -/
theorem guardCountdown_rt (s : State) : (guardCountdown s).rt =
    { s.rt with guard := if s.rt.guard = 0 then 0 else s.rt.guard - 1 } := by
  unfold guardCountdown
  by_cases h0 : s.rt.guard = 0
  · simp only [h0, if_true, gt_iff_lt]
    rw [if_neg (by decide)]
    cases s; cases ‹Runtime›; simp_all
  · simp only [gt_iff_lt, toNat_pos_iff, ne_eq, h0, not_false_eq_true, if_true, if_false]

/-- R232. -/
theorem blinkTimer_rt (s : State) : (blinkTimer s).rt =
    if s.rt.blinkCnt.toNat + 1 ≥ (if s.rt.blinkOn = true then 750000 else 250000) then
      { s.rt with blinkOn := !s.rt.blinkOn, blinkCnt := 0 }
    else { s.rt with blinkCnt := s.rt.blinkCnt + 1 } := by
  have hn : BitVec.ofNat 32 (s.rt.blinkCnt.toNat + 1) = s.rt.blinkCnt + 1 := by
    apply BitVec.eq_of_toNat_eq
    simp [BitVec.toNat_add]
  unfold blinkTimer
  simp only [Config.blinkOnTb, Config.blinkOffTb, hn]
  cases hb : s.rt.blinkOn <;> simp only [Bool.false_eq_true, false_and, true_and, if_true, if_false, Bool.not_false,
    Bool.not_true, reduceCtorEq] <;> split <;> rfl

/-- R234: the clock and the pulse as integers. -/
theorem clockAccumulate_eq (s : State) : clockAccumulate s =
      if s.rt.clkAcc.toNat + s.prog.tempo.toNat < 2500000 then
        { s with rt := { s.rt with clkAcc := s.rt.clkAcc + s.prog.tempo.setWidth 32 } }
      else if s.rt.pulse = 5 then
        fireStep { s with rt := { s.rt with
          clkAcc := s.rt.clkAcc + s.prog.tempo.setWidth 32 - 2500000, pulse := 0, cur := s.rt.cur + 1 } }
      else
        pulseEvent { s with rt := { s.rt with
          clkAcc := s.rt.clkAcc + s.prog.tempo.setWidth 32 - 2500000, pulse := s.rt.pulse + 1 } } := by
  have ht := s.prog.tempo.isLt
  have hsum : BitVec.ofNat 32 (s.rt.clkAcc.toNat + s.prog.tempo.toNat) = s.rt.clkAcc + s.prog.tempo.setWidth 32 := by
    apply BitVec.eq_of_toNat_eq
    simp only [BitVec.toNat_ofNat, BitVec.toNat_add, BitVec.toNat_setWidth]
    omega
  have hp5 : s.rt.pulse.toNat + 1 = 6 ↔ s.rt.pulse = 5 := by
    rw [← BitVec.toNat_inj]
    simp
  unfold clockAccumulate clockPulse
  simp only [Config.pulseThresh, Config.pulsesPerStep]
  by_cases h : s.rt.clkAcc.toNat + s.prog.tempo.toNat < 2500000
  · rw [if_neg (by omega), if_pos h, hsum]
  · rw [if_pos (by omega), if_neg h, hsum]
    by_cases h5 : s.rt.pulse = 5
    · rw [if_pos h5, if_pos (hp5.mpr h5)]
      rfl
    · rw [if_neg h5, if_neg (fun e => h5 (hp5.mp e))]
      rfl

/-! ## Fields no tick of the sequencer touches -/

@[simp] theorem syncCountdown_view (s : State) : (syncCountdown s).rt.view = s.rt.view := by simp [syncCountdown_rt]
@[simp] theorem syncCountdown_running (s : State) : (syncCountdown s).rt.running = s.rt.running := by
  simp [syncCountdown_rt]
@[simp] theorem syncCountdown_dual (s : State) : (syncCountdown s).rt.dual = s.rt.dual := by simp [syncCountdown_rt]
@[simp] theorem syncCountdown_clkAcc (s : State) : (syncCountdown s).rt.clkAcc = s.rt.clkAcc := by
  simp [syncCountdown_rt]
@[simp] theorem syncCountdown_pulse (s : State) : (syncCountdown s).rt.pulse = s.rt.pulse := by simp [syncCountdown_rt]
@[simp] theorem syncCountdown_cur (s : State) : (syncCountdown s).rt.cur = s.rt.cur := by simp [syncCountdown_rt]

/-- An open view's tick, by what the sequencer is doing. -/
theorem timebaseTick_open {s : State} (hv : s.rt.view = true) : timebaseTick s =
    guardCountdown (if s.rt.running = true then clockAccumulate (syncCountdown s)
      else if s.rt.dual = true then syncCountdown s else blinkTimer (syncCountdown s)) := by
  simp only [timebaseTick, if_pos hv, runOrBlink, syncCountdown_running, syncCountdown_dual]

theorem timebaseTick_closed {s : State} (hv : s.rt.view = false) : timebaseTick s = s := by
  simp [timebaseTick, hv]

end Sys2Proof.Machine
end

