-- ==== Sys2Proof/Laws/Invariant.lean ====
section
/-! SUPPORT. Each shared operation, register write and tick keeps `Safety.Inv`; the whole-machine invariant is put
together from these. -/

namespace Sys2Proof.Machine

open Sys2Proof.Safety

/-- `Inv` speaks of the four groups of the spec's state only. -/
theorem inv_congr {s t : State} (h : Inv s) (h1 : t.prog = s.prog) (h2 : t.rt = s.rt) (h3 : t.voice = s.voice) (h4 :
    t.ifc = s.ifc) : Inv t := by
  obtain ⟨a1,a2,a3,a4,a5,a6,a7,a8,a9,a10,a11,a12,a13,a14,a15,a16,a17,a18,a19,a20,a21,a22,a23,a24⟩ := h
  constructor <;> simp only [h1, h2, h3, h4] <;> assumption

/-- Recording an error keeps the invariant (60_exceptions.md R301). -/
theorem inv_raise {s : State} (h : Inv s) (c o) : Inv (raise c o s) := by
  obtain ⟨a1,a2,a3,a4,a5,a6,a7,a8,a9,a10,a11,a12,a13,a14,a15,a16,a17,a18,a19,a20,a21,a22,a23,a24⟩ := h
  have hne : s.ifc.err ||| c.sticky ≠ 0 := by
    intro hh
    have : ∀ e : BitVec 6, e ||| c.sticky ≠ 0 := by cases c <;> decide
    exact this _ hh
  constructor <;> simp only [raise_prog, raise_rt, raise_voice, raise_ifc] <;> try assumption
  · intro h; exact absurd h hne
  · intro _; cases c <;> decide

theorem inv_pend {s : State} (h : Inv s) (b) : Inv (pend b s) := by
  obtain ⟨a1,a2,a3,a4,a5,a6,a7,a8,a9,a10,a11,a12,a13,a14,a15,a16,a17,a18,a19,a20,a21,a22,a23,a24⟩ := h
  constructor <;> assumption

theorem inv_emit {s : State} (h : Inv s) (e) : Inv (emit e s) := inv_congr h rfl rfl rfl rfl

theorem inv_play {s : State} (h : Inv s) (a b) : Inv (play a b s) := by
  obtain ⟨a1,a2,a3,a4,a5,a6,a7,a8,a9,a10,a11,a12,a13,a14,a15,a16,a17,a18,a19,a20,a21,a22,a23,a24⟩ := h
  constructor <;> first | assumption | (intro h; simp at h)

theorem inv_writeSlot {s : State} (h : Inv s) (i x) (hx : x.valid = false → x.index = 0) : Inv (writeSlot i x s) := by
  obtain ⟨a1,a2,a3,a4,a5,a6,a7,a8,a9,a10,a11,a12,a13,a14,a15,a16,a17,a18,a19,a20,a21,a22,a23,a24⟩ := h
  constructor <;> first | assumption | skip
  intro j
  simp only [writeSlot_prog, setSlot_slot]
  split
  · exact hx
  · exact a12 j

theorem inv_stopVoice {s : State} (h : Inv { s with rt := { s.rt with heldValid := false, heldKey := 0 } }) :
    Inv (stopVoice s) := by
  obtain ⟨a1,a2,a3,a4,a5,a6,a7,a8,a9,a10,a11,a12,a13,a14,a15,a16,a17,a18,a19,a20,a21,a22,a23,a24⟩ := h
  unfold stopVoice
  dsimp only
  split
  · rename_i ha
    constructor <;> first | assumption | skip
    · intro hf; cases hf
    · exact ⟨fun _ => rfl, fun _ => ⟨a1 ha, rfl⟩⟩
    · intro hf; cases hf
    · intro hv; exact ⟨rfl, (a11 hv).2⟩
  · split
    · constructor <;> assumption
    · constructor <;> first | assumption | skip
      · show (0 : BitVec 16).toNat ≤ 32767; decide
      · intro _; rfl

theorem inv_pulse {s : State} (h : Inv s) : Inv (pulseEvent s) := by
  obtain ⟨a1,a2,a3,a4,a5,a6,a7,a8,a9,a10,a11,a12,a13,a14,a15,a16,a17,a18,a19,a20,a21,a22,a23,a24⟩ := h
  unfold pulseEvent
  split <;> constructor <;> assumption

theorem inv_fire {s : State} (h : Inv s) (hr : s.rt.running = true) : Inv (fireStep s) := by
  have h1 := inv_pulse h
  have hr1 : (pulseEvent s).rt.running = true := by simpa using hr
  have h2 : Inv (syncStart (pulseEvent s)) := by
    obtain ⟨a1,a2,a3,a4,a5,a6,a7,a8,a9,a10,a11,a12,a13,a14,a15,a16,a17,a18,a19,a20,a21,a22,a23,a24⟩ := h1
    unfold syncStart
    split
    · constructor <;> first | assumption | skip
      · rfl
      · show (BitVec.ofNat 32 5000).toNat ≤ 5000; decide
      · intro hf; rw [show (pulseEvent s).rt.running = false from hf] at hr1; cases hr1
    · constructor <;> assumption
    · constructor <;> assumption
  unfold fireStep
  apply inv_pend
  unfold triggerStep
  dsimp only
  split
  · exact inv_play h2 _ _
  · exact h2

theorem inv_cur {s : State} (h : Inv s) (i) : Inv (setCur i s) := by
  obtain ⟨a1,a2,a3,a4,a5,a6,a7,a8,a9,a10,a11,a12,a13,a14,a15,a16,a17,a18,a19,a20,a21,a22,a23,a24⟩ := h
  constructor <;> assumption

theorem inv_clockRestart {s : State} (h : Inv s) : Inv (clockRestart s) := by
  obtain ⟨a1,a2,a3,a4,a5,a6,a7,a8,a9,a10,a11,a12,a13,a14,a15,a16,a17,a18,a19,a20,a21,a22,a23,a24⟩ := h
  constructor <;> first | assumption | skip
  · show (0:BitVec 3).toNat ≤ 5; decide
  · show (0:BitVec 32).toNat < 2500000; decide
  · intro h; exact ⟨rfl, rfl, (a16 h).2.2⟩

theorem inv_blink {s : State} (h : Inv s) : Inv (blinkReset s) := by
  obtain ⟨a1,a2,a3,a4,a5,a6,a7,a8,a9,a10,a11,a12,a13,a14,a15,a16,a17,a18,a19,a20,a21,a22,a23,a24⟩ := h
  constructor <;> first | assumption | skip
  show (0:BitVec 32).toNat < (if true = true then 750000 else 250000); decide

theorem inv_stopSeq {s : State} (h : Inv s) : Inv (stopSeq s) := by
  unfold stopSeq
  split
  · obtain ⟨a1,a2,a3,a4,a5,a6,a7,a8,a9,a10,a11,a12,a13,a14,a15,a16,a17,a18,a19,a20,a21,a22,a23,a24⟩ := h
    constructor <;> simp_all
  · exact h

theorem inv_early {s : State} (h : Inv s) (hr : s.rt.running = true) : Inv (earlyAdvance s) :=
  inv_fire (inv_clockRestart (inv_cur h _)) hr

theorem inv_start {s : State} (h : Inv s) (hc : s.ifc.cmdReady = true) (hv : s.rt.view = true) (x : ℕ) (hx :
    x < 2 ^ 24) : Inv (startNote x s) := by
  have hl : octaveApply x s.prog.octave.toInt < 2 ^ 27 := by
    unfold octaveApply
    have : s.prog.octave.toInt ≤ 3 := h.octaveLegal.2
    split
    · have : s.prog.octave.toInt.toNat ≤ 3 := by omega
      calc _ ≤ x * 2 ^ 3 := Nat.mul_le_mul_left _ (Nat.pow_le_pow_right (by norm_num) this)
        _ < _ := by omega
    · exact lt_of_le_of_lt (Nat.div_le_self _ _) (by omega)
  obtain ⟨a1,a2,a3,a4,a5,a6,a7,a8,a9,a10,a11,a12,a13,a14,a15,a16,a17,a18,a19,a20,a21,a22,a23,a24⟩ := h
  constructor <;> first | assumption | skip
  · simp
  · simp [hc]
  · intro hh; exact ⟨(a5 hh).1, rfl⟩
  · intro hh; simp [hv] at hh
  · simp only [startNote_voice, BitVec.toNat_ofNat]; omega
  · simp

theorem inv_updateModval {s : State} (h : Inv s) (x) : Inv (updateModval x s) := by
  obtain ⟨a1,a2,a3,a4,a5,a6,a7,a8,a9,a10,a11,a12,a13,a14,a15,a16,a17,a18,a19,a20,a21,a22,a23,a24⟩ := h
  constructor <;> assumption

theorem inv_assign {s : State} (h : Inv s) (k) : Inv (assignStep k s) :=
    inv_play (inv_pend (inv_writeSlot h _ _ (by simp)) _) _ _

/-- A three-bit octave other than -4 is legal. -/
theorem octave_legal_of_ne (o : BitVec 3) (h : ¬ o.toInt = -4) : -3 ≤ o.toInt ∧ o.toInt ≤ 3 := by revert o; decide

theorem inv_writeReg {s : State} (h : Inv s) (r v) : Inv (writeReg r v s) := by
  have h' := h
  obtain ⟨a1,a2,a3,a4,a5,a6,a7,a8,a9,a10,a11,a12,a13,a14,a15,a16,a17,a18,a19,a20,a21,a22,a23,a24⟩ := h'
  cases r <;> simp only [writeReg]
  case cmd => exact h
  case err =>
    unfold writeErr; dsimp only
    split
    · constructor <;> first | assumption | skip
      · intro _; exact ⟨rfl, rfl⟩
      · intro hh; contradiction
    · next hne =>
      constructor <;> first | assumption | skip
      · intro hh; contradiction
      · intro hh
        apply a22
        intro h0
        apply hne; rw [h0]; simp
  case irqPend => constructor <;> assumption
  case irqEn => constructor <;> assumption
  case progModval => constructor <;> assumption
  case seq i =>
    apply inv_writeSlot h
    unfold slotOf
    split
    · intro hh; cases hh
    · intro _; rfl
  case keyFreq => constructor <;> assumption
  case progCfg =>
    unfold writeProgCfg
    dsimp only
    split
    · split
      · exact inv_raise h _ _
      · split
        · exact inv_raise h _ _
        · next hl _ =>
          push Not at hl
          have ht := (tempoLegal_iff _).mp (by simpa using hl.1)
          have ho := octave_legal_of_ne _ hl.2
          constructor <;> assumption
    · exact inv_raise h _ _
  all_goals exact inv_raise h _ _

theorem inv_sync {s : State} (h : Inv s) : Inv (syncCountdown s) := by
  have key : ∀ c : BitVec 32, c ≠ 0 → (c - 1 = 0 ↔ c = 1) := by
    intro c _
    constructor <;> intro hh
    · have := congrArg (· + 1#32) hh
      simpa using this
    · rw [hh]; rfl
  obtain ⟨a1,a2,a3,a4,a5,a6,a7,a8,a9,a10,a11,a12,a13,a14,a15,a16,a17,a18,a19,a20,a21,a22,a23,a24⟩ := h
  refine inv_congr (s := { s with rt := _ }) ?_ (by simp) (syncCountdown_rt s) (by simp) (by simp)
  constructor <;> first | assumption | skip
  · show (if s.rt.syncCnt = 1 then false else s.rt.syncLevel) =
        decide ((if s.rt.syncCnt = 0 then 0 else s.rt.syncCnt - 1) ≠ 0)
    by_cases h0 : s.rt.syncCnt = 0
    · rw [if_pos h0, if_neg (by rw [h0]; decide), a14, h0]
    · rw [if_neg h0]
      by_cases h1 : s.rt.syncCnt = 1
      · rw [if_pos h1, h1]; rfl
      · rw [if_neg h1, a14]
        have := key _ h0
        have e1 : ¬ s.rt.syncCnt - 1 = 0 := fun e => h1 (this.mp e)
        rw [decide_eq_true h0, decide_eq_true e1]
  · show (if s.rt.syncCnt = 0 then 0 else s.rt.syncCnt - 1).toNat ≤ 5000
    by_cases h0 : s.rt.syncCnt = 0
    · rw [if_pos h0]; decide
    · rw [if_neg h0]
      have hp : 0 < s.rt.syncCnt.toNat := (toNat_pos_iff _).mpr h0
      have a15' : s.rt.syncCnt.toNat ≤ 5000 := a15
      have := s.rt.syncCnt.isLt
      rw [BitVec.toNat_sub, show BitVec.toNat (1 : BitVec 32) = 1 from rfl]
      omega
  · intro hh
    obtain ⟨c1, c2, c3⟩ := a16 hh
    refine ⟨c1, c2, ?_⟩
    show (if s.rt.syncCnt = 0 then 0 else s.rt.syncCnt - 1) = 0
    rw [if_pos c3]

theorem inv_guard {s : State} (h : Inv s) : Inv (guardCountdown s) := by
  have : guardCountdown s = s := by
    unfold guardCountdown
    rw [if_neg]
    rw [h.guardClear]; decide
  rw [this]; exact h

theorem inv_blinkTimer {s : State} (h : Inv s) : Inv (blinkTimer s) := by
  obtain ⟨a1,a2,a3,a4,a5,a6,a7,a8,a9,a10,a11,a12,a13,a14,a15,a16,a17,a18,a19,a20,a21,a22,a23,a24⟩ := h
  have a13' : s.rt.blinkCnt.toNat < if s.rt.blinkOn = true then 750000 else 250000 := a13
  have hrt := blinkTimer_rt s
  by_cases hlt : s.rt.blinkCnt.toNat + 1 ≥ (if s.rt.blinkOn = true then 750000 else 250000)
  · rw [if_pos hlt] at hrt
    refine inv_congr (s := { s with rt := _ }) ?_ (by simp) hrt (by simp) (by simp)
    constructor <;> first | assumption | skip
    show (0 : BitVec 32).toNat < if (!s.rt.blinkOn) = true then 750000 else 250000
    split <;> decide
  · rw [if_neg hlt] at hrt
    refine inv_congr (s := { s with rt := _ }) ?_ (by simp) hrt (by simp) (by simp)
    constructor <;> first | assumption | skip
    show (s.rt.blinkCnt + 1).toNat < if s.rt.blinkOn = true then 750000 else 250000
    have := s.rt.blinkCnt.isLt
    rw [BitVec.toNat_add]
    have e1 : BitVec.toNat (1 : BitVec 32) = 1 := rfl
    rw [e1]
    split at a13' <;> rename_i hb <;> simp only [hb, if_true, Bool.false_eq_true, if_false] at hlt ⊢ <;> omega

theorem inv_clock {s : State} (h : Inv s) (hr : s.rt.running = true) : Inv (clockAccumulate s) := by
  rw [clockAccumulate_eq]
  have hclk : s.rt.clkAcc.toNat < 2500000 := h.clkAccRange
  have ht := s.prog.tempo.isLt
  have hsum : (s.rt.clkAcc + s.prog.tempo.setWidth 32).toNat = s.rt.clkAcc.toNat + s.prog.tempo.toNat := by
    rw [BitVec.toNat_add, BitVec.toNat_setWidth]; omega
  have hsub : ¬ s.rt.clkAcc.toNat + s.prog.tempo.toNat < 2500000 →
      (s.rt.clkAcc + s.prog.tempo.setWidth 32 - 2500000).toNat < 2500000 := by
    intro hge
    rw [BitVec.toNat_sub, hsum, show (2500000 : BitVec 32).toNat = 2500000 from rfl]
    omega
  have h' := h
  obtain ⟨a1,a2,a3,a4,a5,a6,a7,a8,a9,a10,a11,a12,a13,a14,a15,a16,a17,a18,a19,a20,a21,a22,a23,a24⟩ := h'
  split
  · next hlt =>
    constructor <;> first | assumption | skip
    · show (s.rt.clkAcc + s.prog.tempo.setWidth 32).toNat < 2500000
      omega
    · intro hh; rw [show s.rt.running = false from hh] at hr; cases hr
  · next hge =>
    have hs := hsub hge
    split
    · apply inv_fire
      · constructor <;> first | assumption | skip
        · show (0 : BitVec 3).toNat ≤ 5; decide
        · intro hh; rw [show s.rt.running = false from hh] at hr; cases hr
      · exact hr
    · next h5 =>
      apply inv_pulse
      constructor <;> first | assumption | skip
      · show (s.rt.pulse + 1).toNat ≤ 5
        have : s.rt.pulse.toNat ≠ 5 := fun e => h5 (BitVec.eq_of_toNat_eq e)
        simp [BitVec.toNat_add]; omega
      · intro hh; rw [show s.rt.running = false from hh] at hr; cases hr

theorem inv_timebase {s : State} (h : Inv s) : Inv (timebaseTick s) := by
  by_cases hv : s.rt.view = true
  · rw [timebaseTick_open hv]
    apply inv_guard
    split
    · next hr => exact inv_clock (inv_sync h) (by simpa using hr)
    · split
      · exact inv_sync h
      · exact inv_blinkTimer (inv_sync h)
  · simpa [timebaseTick, hv] using h

theorem inv_audio {s : State} (h : Inv s) : Inv (audioTick s) := by
  unfold audioTick
  have h' := h
  obtain ⟨a1,a2,a3,a4,a5,a6,a7,a8,a9,a10,a11,a12,a13,a14,a15,a16,a17,a18,a19,a20,a21,a22,a23,a24⟩ := h'
  split
  · next hd =>
    constructor <;> first | assumption | skip
    · intro hh; simp [hd.2] at hh
    · simp
    · show (0 : BitVec 16).toNat ≤ 32767; decide
    · intro; rfl
  · split
    · next hn ha =>
      have hb := a1 ha
      constructor <;> first | assumption | skip
      · exact dutyOf_le _ _ _ _ _ _ s.prog.modval.isLt (rom_lt _ _)
      · intro hh; rw [show s.voice.busy = false from hh] at hb; cases hb
    · exact h

end Sys2Proof.Machine
end

