-- ==== Sys2Proof/Laws/PerInstr.lean ====
section
/-! SUPPORT. Per-command facts about the encoding: the operand area of a command fits its format's field, so the
encoded word has the row's opcode byte and zero reserved bits (30_encoding.md R101, R104). -/

namespace Sys2Proof.Laws.OperandField

/-- The encoded command carries its row's opcode byte above an operand area that fits the format's field. -/
def Statement (i : Instr) : Prop := opcodeOf (encode i) = i.opc.code ∧ reservedBits i.opc.format (encode i) = 0

/-- It is enough that the operand area fits the field. -/
theorem of_lt {i : Instr} (h : (operandArea i).toNat < 2 ^ i.opc.format.width) : Statement i :=
  ⟨opcodeOf_encode i, by rw [reservedBits_eq_zero, encode_mod]; exact h⟩

/-- A field narrower than the operand area stays below its own bound. -/
theorem field_lt {n : Nat} (x : BitVec n) : (x.setWidth 24).toNat < 2 ^ n := by
  rw [BitVec.toNat_setWidth]
  exact Nat.lt_of_le_of_lt (Nat.mod_le _ _) x.isLt

theorem nop : Statement .nop := of_lt (by decide)
theorem noteOn (freq : Nat) : Statement (.noteOn freq) := of_lt (BitVec.isLt _)
theorem noteOff : Statement .noteOff := of_lt (by decide)
theorem setWave (wave : Wave) : Statement (.setWave wave) := of_lt (field_lt _)
theorem setTarget (code : BitVec 3) : Statement (.setTarget code) := of_lt (field_lt _)
theorem modUpdate (delta : Int) : Statement (.modUpdate delta) := of_lt (field_lt _)
theorem setOctave (shift : Int) : Statement (.setOctave shift) := of_lt (field_lt _)
theorem seqOpen : Statement .seqOpen := of_lt (by decide)
theorem seqExit : Statement .seqExit := of_lt (by decide)
theorem run : Statement .run := of_lt (by decide)
theorem stop : Statement .stop := of_lt (by decide)
theorem toggleDual : Statement .toggleDual := of_lt (by decide)
theorem assign (key : BitVec 4) : Statement (.assign key) := of_lt (field_lt _)
theorem clearStep : Statement .clearStep := of_lt (by decide)
theorem clearPattern : Statement .clearPattern := of_lt (by decide)
theorem cursorNext : Statement .cursorNext := of_lt (by decide)
theorem cursorPrev : Statement .cursorPrev := of_lt (by decide)
theorem cursorSet (step : BitVec 4) : Statement (.cursorSet step) := of_lt (field_lt _)
theorem setTempo (bpm : Nat) : Statement (.setTempo bpm) := of_lt (field_lt _)
theorem setClock (code : BitVec 2) : Statement (.setClock code) := of_lt (field_lt _)
theorem keyPress (key : BitVec 4) : Statement (.keyPress key) := of_lt (field_lt _)
theorem keyRelease (key : BitVec 4) : Statement (.keyRelease key) := of_lt (field_lt _)
theorem encoder (steps : Int) : Statement (.encoder steps) := of_lt (field_lt _)
theorem setVolume (level : Nat) : Statement (.setVolume level) := of_lt (field_lt _)

end Sys2Proof.Laws.OperandField
end

