-- ==== Sys2Proof/Laws/Registers.lean ====
section
/-! SUPPORT. What a register access can do: which accesses reach a register, what a read and a write of a reached one
answer, and that a write either records one error and nothing else or leaves the error record's history alone. -/

namespace Sys2Proof.Machine

/-- A full-word access reaches the register at its offset. -/
@[simp] theorem accessed_word (a : BitVec 8) : accessed? a AccessSize.word = Reg.ofOffset? a := by
  simp [accessed?, AccessSize.legal]

/-- No other width reaches a register (20_memory.md R83). -/
theorem accessed_of_ne_word {z : AccessSize} (a : BitVec 8) (h : z ≠ AccessSize.word) : accessed? a z = none := by
  simp [accessed?, AccessSize.legal, h]

/-- A read of a reached register (44_host_misc.md R282). -/
theorem hostRead_reached {a : BitVec 8} {z : AccessSize} {r : Reg} (s : State) (h : accessed? a z = some r) :
    hostRead a z s = { s with readData := some (readReg r s) } := by
  simp only [hostRead, h]

/-- A read that reaches no register. -/
theorem hostRead_unreached {a : BitVec 8} {z : AccessSize} (s : State) (h : accessed? a z = none) :
    hostRead a z s = { busError s with readData := some 0 } := by
  simp only [hostRead, h]

/-- A write of a reached register other than `CMD` (44_host_misc.md R283). -/
theorem hostWrite_reached {a : BitVec 8} {z : AccessSize} {r : Reg} (v : Word) (s : State) (h : accessed? a z = some r)
    (hr : r ≠ .cmd) : hostWrite a z v s = .next (writeReg r v s) := by
  unfold hostWrite
  rw [h]
  cases r <;> first | rfl | contradiction

/-- A write that reaches no register. -/
theorem hostWrite_unreached {a : BitVec 8} {z : AccessSize} (v : Word) (s : State) (h : accessed? a z = none) :
    hostWrite a z v s = .next (busError s) := by
  simp only [hostWrite, h]

/-- A register write either records one error with LAST_OPC 0xFF and does nothing else, or emits nothing and leaves the
runtime and the voice; the pending bits change only by a write of `IRQ_PEND`. -/
theorem writeReg_cases (r : Reg) (v : Word) (s : State) : (∃ c, writeReg r v s = raise c regOpc s)
    ∨ ((writeReg r v s).history = s.history ∧ (writeReg r v s).rt = s.rt ∧ (writeReg r v s).voice = s.voice
      ∧ (r ≠ .irqPend → (writeReg r v s).ifc.irqPend = s.ifc.irqPend)) := by
  cases r
  case err =>
    right
    simp only [writeReg, writeErr]
    split <;> exact ⟨rfl, rfl, rfl, fun _ => rfl⟩
  case irqPend => exact .inr ⟨rfl, rfl, rfl, fun h => absurd rfl h⟩
  case progCfg =>
    simp only [writeReg, writeProgCfg]
    split
    · split
      · exact .inl ⟨_, rfl⟩
      · split
        · exact .inl ⟨_, rfl⟩
        · exact .inr ⟨rfl, rfl, rfl, fun _ => rfl⟩
    · exact .inl ⟨_, rfl⟩
  all_goals first
    | exact .inl ⟨_, rfl⟩
    | exact .inr ⟨rfl, rfl, rfl, fun _ => rfl⟩

end Sys2Proof.Machine
end

