-- ==== Sys2Proof/Laws/Run.lean ====
section
/-! SUPPORT. Runs of several cycles: a run unfolds one step at a time, what a cycle without a host access is, and what
each part of a cycle adds to the play requests. -/

namespace Sys2Proof.Machine

open Sys2Proof.Safety

theorem run_zero (s : State) : Sys2Proof.core.run 0 s = .next s := Host.Core.run.eq_1 Sys2Proof.core s

/-- A run of `n + 1` cycles is the first cycle and the run of `n` from where it leads. -/
theorem run_next {n : Nat} {s u : State} (h : step s = .next u) :
    Sys2Proof.core.run (n + 1) s = Sys2Proof.core.run n u := by
  have general : ∀ (M : Host.Core) (s u : M.State), M.step s = .next u → M.run (n + 1) s = M.run n u := by
    intro M s u h
    rw [Host.Core.run.eq_2, h]
  exact general Sys2Proof.core s u h

/-- Every run has an end state (70_reset_and_hazards.md R375). -/
theorem run_total : ∀ (n : Nat) (s : State), ∃ t, Sys2Proof.core.run n s = .next t
  | 0, s => ⟨s, run_zero s⟩
  | n + 1, s => by
    have hstep : ∃ u, step s = .next u := by
      rcases h : (nextInput s).rst with _ | _
      · obtain ⟨t, -, ht⟩ := step_noRst h
        exact ⟨_, ht⟩
      · exact ⟨_, step_rst h⟩
    obtain ⟨u, hu⟩ := hstep
    obtain ⟨t, ht⟩ := run_total n u
    exact ⟨t, (run_next hu).trans ht⟩

/-- A cycle with nothing queued: the two ticks and the end of the cycle. -/
theorem step_idle {s : State} (h : s.pending = []) :
    step s = .next (endCycle (grid s) (audioPhase (timebasePhase { s with readData := none }))) := by
  unfold step clockCycle
  simp [nextInput, beginCycle, h, CycleInput.idle, hostAccess]

theorem timebaseTicks_succ (c n : Nat) :
    timebaseTicks c (n + 1) = (if c % 20 = 19 then 1 else 0) + timebaseTicks (c + 1) n := by
  unfold timebaseTicks
  split <;> omega

theorem timebasePhase_of_tick {s : State} (h : s.cycle % 20 = 19) : timebasePhase s = timebaseTick s := if_pos h

theorem timebasePhase_of_not {s : State} (h : s.cycle % 20 ≠ 19) : timebasePhase s = s := if_neg h

theorem audioPhase_of_tick {s : State} (h : s.cycle % 1000 = 999) : audioPhase s = audioTick s := if_pos h

theorem audioPhase_of_not {s : State} (h : s.cycle % 1000 ≠ 999) : audioPhase s = s := if_neg h

/-! ## Play requests (42_sequencer.md R207, R242) -/

theorem plays_append (a b : List (Nat × Event)) : plays (a ++ b) = plays b ++ plays a := by simp [plays]

theorem plays_cons_none {n : Nat} {e : Event} (b : List (Nat × Event)) (h : playOf e = none) :
    plays ((n, e) :: b) = plays b := by simp [plays, h]

@[simp] theorem audioPhase_plays (s : State) : plays (audioPhase s).history = plays s.history := by
  unfold audioPhase
  split
  · unfold audioTick
    split
    · exact plays_cons_none _ rfl
    · split
      · exact plays_cons_none _ rfl
      · rfl
  · rfl

@[simp] theorem endCycle_plays (before : BitVec 16) (s : State) : plays (endCycle before s).history = plays s.history := by
  rw [endCycle_history]
  split
  · rfl
  · exact plays_cons_none _ rfl

theorem pulseEvent_plays (s : State) : plays (pulseEvent s).history = plays s.history := by
  rw [pulseEvent_history]
  split
  · exact plays_cons_none _ rfl
  · rfl

/-- A step event makes the request of the current step, if it is filled. -/
theorem fireStep_plays (s : State) : plays (fireStep s).history =
    plays s.history ++ (slotPlay s.prog.folder (s.prog.slot s.rt.cur)).toList := by
  rw [fireStep_history, plays_append, plays_append]
  unfold slotPlay
  split <;> split <;> simp [plays, playOf]

end Sys2Proof.Machine
end

