-- ==== Sys2Proof/Machine/HostProgram.lean ====
section
/-! DEFINITION. The host's side as the spec writes it: the operand spellings of the command syntax (30_encoding.md
R107), host programs of command and access lines, the pseudo-instructions they may use (R108), and the boot order
(70_reset_and_hazards.md R354). The block checks none of it and no step reads it; a program runs by the accesses its
lines make, one a cycle. -/

namespace Sys2Proof.Machine

/-! ## Command lines (R107) -/

/-- The mnemonic of a row (R104). -/
def Opc.mnemonic : Opc → String
  | .nop => "NOP"
  | .noteOn => "NOTE_ON"
  | .noteOff => "NOTE_OFF"
  | .setWave => "SET_WAVE"
  | .setTarget => "SET_TARGET"
  | .modUpdate => "MOD_UPDATE"
  | .setOctave => "SET_OCTAVE"
  | .seqOpen => "SEQ_OPEN"
  | .seqExit => "SEQ_EXIT"
  | .run => "RUN"
  | .stop => "STOP"
  | .toggleDual => "TOGGLE_DUAL"
  | .assign => "ASSIGN"
  | .clearStep => "CLEAR_STEP"
  | .clearPattern => "CLEAR_PATTERN"
  | .cursorNext => "CURSOR_NEXT"
  | .cursorPrev => "CURSOR_PREV"
  | .cursorSet => "CURSOR_SET"
  | .setTempo => "SET_TEMPO"
  | .setClock => "SET_CLOCK"
  | .keyPress => "KEY_PRESS"
  | .keyRelease => "KEY_RELEASE"
  | .encoder => "ENCODER"
  | .setVolume => "SET_VOLUME"

/-- An operand as a command line spells it (R107): nothing; a decimal or a hexadecimal integer; a decimal frequency
`digits / 10^places` followed by `Hz`; `k<n>`; `s<n>`; or the name of a waveform, target or clock mode. -/
inductive Spelling where
  | nothing
  | int (n : Int)
  | hex (n : Nat)
  | hz (digits places : Nat)
  | key (n : Nat)
  | step (n : Nat)
  | wave (w : Wave)
  | target (t : Target)
  | clock (c : ClockMode)
  deriving DecidableEq, Repr

/-- A decimal operand that fits `bits` bits unsigned. -/
def unsignedOperand (bits : Nat) : Spelling → Option Nat
  | .int n => if 0 ≤ n ∧ n < 2 ^ bits then some n.toNat else none
  | .nothing | .hex _ | .hz _ _ | .key _ | .step _ | .wave _ | .target _ | .clock _ => none

/-- A hexadecimal operand that fits `bits` bits unsigned (formats U24 and U8). -/
def hexOperand (bits : Nat) : Spelling → Option Nat
  | .hex n => if n < 2 ^ bits then some n else none
  | .nothing | .int _ | .hz _ _ | .key _ | .step _ | .wave _ | .target _ | .clock _ => none

/-- A signed decimal operand that fits `bits` bits of two's complement; out of range it is refused. -/
def signedOperand (bits : Nat) : Spelling → Option Int
  | .int n => if -(2 ^ (bits - 1)) ≤ n ∧ n < 2 ^ (bits - 1) then some n else none
  | .nothing | .hex _ | .hz _ _ | .key _ | .step _ | .wave _ | .target _ | .clock _ => none

/-- A frequency operand: the raw field, or `f * 256`, which must be an integer in the field's range. -/
def frequencyOperand : Spelling → Option Nat
  | .hz digits places =>
    if digits * Config.freqUnit % 10 ^ places = 0 ∧ digits * Config.freqUnit / 10 ^ places < 2 ^ 24 then
      some (digits * Config.freqUnit / 10 ^ places)
    else none
  | .nothing | .int _ | .hex _ | .key _ | .step _ | .wave _ | .target _ | .clock _ => none

/-- `n` as four bits, if it is 0 to 15. -/
def nibble (n : Nat) : Option (BitVec 4) := if n < 16 then some (BitVec.ofNat 4 n) else none

/-- A key operand spelled `k<n>`. -/
def keyOperand : Spelling → Option (BitVec 4)
  | .key n => nibble n
  | .nothing | .int _ | .hex _ | .hz _ _ | .step _ | .wave _ | .target _ | .clock _ => none

/-- A step operand spelled `s<n>`. -/
def stepOperand : Spelling → Option (BitVec 4)
  | .step n => nibble n
  | .nothing | .int _ | .hex _ | .hz _ _ | .key _ | .wave _ | .target _ | .clock _ => none

/-- A waveform's name. -/
def waveOperand : Spelling → Option Wave
  | .wave w => some w
  | .nothing | .int _ | .hex _ | .hz _ _ | .key _ | .step _ | .target _ | .clock _ => none

/-- A target's name. -/
def targetOperand : Spelling → Option (BitVec 3)
  | .target t => some t.code
  | .nothing | .int _ | .hex _ | .hz _ _ | .key _ | .step _ | .wave _ | .clock _ => none

/-- A clock mode's name. -/
def clockOperand : Spelling → Option (BitVec 2)
  | .clock c => some c.code
  | .nothing | .int _ | .hex _ | .hz _ _ | .key _ | .step _ | .wave _ | .target _ => none

/-- The command of a row with an operand spelling; every other spelling is refused (R107). -/
def assemble (o : Opc) (x : Spelling) : Option Instr :=
  let plain (i : Instr) : Option Instr := if x = .nothing then some i else none
  match o with
  | .nop => plain .nop
  | .noteOn => (((frequencyOperand x).or (unsignedOperand 24 x)).or (hexOperand 24 x)).map .noteOn
  | .noteOff => plain .noteOff
  | .setWave => (waveOperand x).or ((unsignedOperand 2 x).map fun n => Wave.ofCode (BitVec.ofNat 2 n)) |>.map .setWave
  | .setTarget => (targetOperand x).or ((unsignedOperand 3 x).map (BitVec.ofNat 3)) |>.map .setTarget
  | .modUpdate => (signedOperand 16 x).map .modUpdate
  | .setOctave => (signedOperand 8 x).map .setOctave
  | .seqOpen => plain .seqOpen
  | .seqExit => plain .seqExit
  | .run => plain .run
  | .stop => plain .stop
  | .toggleDual => plain .toggleDual
  | .assign => (keyOperand x).or ((unsignedOperand 4 x).map (BitVec.ofNat 4)) |>.map .assign
  | .clearStep => plain .clearStep
  | .clearPattern => plain .clearPattern
  | .cursorNext => plain .cursorNext
  | .cursorPrev => plain .cursorPrev
  | .cursorSet => (stepOperand x).or ((unsignedOperand 4 x).map (BitVec.ofNat 4)) |>.map .cursorSet
  | .setTempo => ((unsignedOperand 8 x).or (hexOperand 8 x)).map .setTempo
  | .setClock => (clockOperand x).or ((unsignedOperand 2 x).map (BitVec.ofNat 2)) |>.map .setClock
  | .keyPress => (keyOperand x).or ((unsignedOperand 4 x).map (BitVec.ofNat 4)) |>.map .keyPress
  | .keyRelease => (keyOperand x).or ((unsignedOperand 4 x).map (BitVec.ofNat 4)) |>.map .keyRelease
  | .encoder => (signedOperand 16 x).map .encoder
  | .setVolume => ((unsignedOperand 8 x).or (hexOperand 8 x)).map .setVolume

/-! ## Host programs (R107, R108) -/

/-- A line of a host program: a command, `WR`, `RD`, `POLL` or `IDLE`; the accesses name a window offset. -/
inductive Line where
  | command (i : Instr)
  | wr (a : BitVec 8) (v : Word)
  | rd (a : BitVec 8)
  | poll (a : BitVec 8) (mask value : Word)
  | idle (n : Nat)
  deriving DecidableEq, Repr

/-- The offset of a register as the bus carries it. -/
def Reg.busOffset (r : Reg) : BitVec 8 := BitVec.ofNat 8 r.offset

/-- `WR` of a register by its name. -/
abbrev Line.wrReg (r : Reg) (v : Word) : Line := .wr r.busOffset v

/-- One cycle in which the host does `a`. -/
def hostCycle (a : Option Access) (s : State) : Option State :=
  match step { s with pending := { rst := false, access := a } :: s.pending } with
  | .next t => some t
  | .fault _ => none
  | .refused _ => none

/-- `POLL`: one read a cycle until the masked value is the one awaited; none if `patience` reads do not suffice. -/
def pollCycles (a : BitVec 8) (mask value : Word) : Nat → State → Option State
  | 0, _ => none
  | n + 1, s =>
    (hostCycle (some (.read a .word)) s).bind fun t =>
      if t.readData.getD 0 &&& mask = value then some t else pollCycles a mask value n t

/-- `IDLE n`: no access for `n` cycles. -/
def idleCycles : Nat → State → Option State
  | 0, s => some s
  | n + 1, s => (hostCycle none s).bind (idleCycles n)

/-- One line of a host program. -/
def runLine (patience : Nat) (l : Line) (s : State) : Option State :=
  match l with
  | .command i => hostCycle (some (.write 0x04 .word (encode i))) s
  | .wr a v => hostCycle (some (.write a .word v)) s
  | .rd a => hostCycle (some (.read a .word)) s
  | .poll a mask value => pollCycles a mask value patience s
  | .idle n => idleCycles n s

/-- A host program, line by line. -/
def runProgram (patience : Nat) : List Line → State → Option State
  | [], s => some s
  | l :: rest, s => (runLine patience l s).bind (runProgram patience rest)

/-- `POLL STATUS, 0x20, 0x20`: wait for `CMD_READY` (70_reset_and_hazards.md R360). -/
def waitReady : Line := .poll Reg.status.busOffset 0x20 0x20

/-- `NOTE_OFF_JOIN`. -/
def noteOffJoin : List Line := [.command .noteOff, waitReady]

/-- `SEQ_EXIT_JOIN`. -/
def seqExitJoin : List Line := [.command .seqExit, waitReady]

/-- `CMD_SAFE <cmd>`. -/
def cmdSafe (i : Instr) : List Line := [waitReady, .command i]

/-- `CLEAR_ERR`. -/
def clearErr : List Line := [.wrReg .err 0x3F]

/-- `ACK <bits>`. -/
def ack (bits : Word) : List Line := [.wrReg .irqPend bits]

/-- `STEP_TO <s>`. -/
def stepTo (i : BitVec 4) : List Line := [.command (.cursorSet i)]

/-- `LOAD_PROG <cfg>, <modval>`. -/
def loadProg (cfg modval : Word) : List Line := [.wrReg .progCfg cfg, .wrReg .progModval modval]

/-- The boot order of 70_reset_and_hazards.md R354, from the release of `RST`: the Program, the key pitches, the
interrupt enables, the view. -/
def bootProgram (cfg modval : Word) (steps pitches : Vector Word 16) (irqEn : Word) : List Line :=
  .rd Reg.id.busOffset :: loadProg cfg modval
    ++ (List.finRange 16).map (fun i => .wrReg (.seq (BitVec.ofFin i)) steps[i])
    ++ (List.finRange 16).map (fun k => .wrReg (.keyFreq (BitVec.ofFin k)) pitches[k])
    ++ [.wrReg .irqEn irqEn, .command .seqOpen]

end Sys2Proof.Machine
end

