-- ==== Sys2Proof/Machine/Assembler.lean ====
section
/-! DEFINITION. The text of host programs (30_encoding.md R107, R108): one line each, comments from `;` on, register
names of 20_memory.md R81, `_` as a digit separator of hexadecimal constants (00_scope.md R7). A spelling other than the
rules' is refused. -/

namespace Sys2Proof.Machine

/-! ## Words of a line -/

/-- A word of a line, or the comma between two operands. -/
inductive Token where
  | word (w : List Char)
  | comma
  deriving DecidableEq, Repr

/-- The word read so far, its characters reversed, in front of the tokens after it. -/
def endWord (w : List Char) (rest : List Token) : List Token :=
  if w = [] then rest else .word w.reverse :: rest

/-- The tokens of a line up to its comment. -/
def tokens (w : List Char) : List Char → List Token
  | [] => endWord w []
  | c :: cs =>
    if c = ';' then endWord w []
    else if c = ',' then endWord w (.comma :: tokens [] cs)
    else if c = ' ' ∨ c = '\t' then endWord w (tokens [] cs)
    else tokens (c :: w) cs

/-- The lines of a text, `line` being the reversed line read so far. -/
def linesOf (line : List Char) : List Char → List (List Char)
  | [] => [line.reverse]
  | c :: cs => if c = '\n' then line.reverse :: linesOf [] cs else linesOf (c :: line) cs

/-! ## Numbers -/

/-- The value of a digit in a base up to 16. -/
def digitOf (base : Nat) (c : Char) : Option Nat :=
  let n := c.toNat
  let v := if 48 ≤ n ∧ n ≤ 57 then n - 48
    else if 65 ≤ n ∧ n ≤ 70 then n - 55
    else if 97 ≤ n ∧ n ≤ 102 then n - 87
    else 16
  if v < base then some v else none

/-- The number that digits write, `acc` being the value of those before them. -/
def digitsOf (base acc : Nat) : List Char → Option Nat
  | [] => some acc
  | c :: cs => (digitOf base c).bind fun d => digitsOf base (acc * base + d) cs

/-- A decimal number without sign. -/
def decimalOf (w : List Char) : Option Nat := if w = [] then none else digitsOf 10 0 w

/-- A hexadecimal constant `0x...`. -/
def hexOf : List Char → Option Nat
  | '0' :: 'x' :: w =>
    let ds := w.filter fun c => decide (c ≠ '_')
    if ds = [] then none else digitsOf 16 0 ds
  | _ => none

/-- A decimal integer with an optional minus sign. -/
def signedOf : List Char → Option Int
  | '-' :: w => (decimalOf w).map fun n => -(n : Int)
  | w => (decimalOf w).map fun n => (n : Int)

/-- A decimal fraction as digits and the number of them behind the point. -/
def fractionOf (w : List Char) : Option Spelling :=
  match w.span fun c => decide (c ≠ '.') with
  | (a, []) => (decimalOf a).map fun n => .hz n 0
  | (a, _ :: b) =>
    (decimalOf a).bind fun n => (decimalOf b).map fun m => .hz (n * 10 ^ b.length + m) b.length

/-! ## Operands -/

/-- A frequency: a decimal number followed by `Hz`. -/
def hertzOf (w : List Char) : Option Spelling :=
  match w.reverse with
  | 'z' :: 'H' :: r => fractionOf r.reverse
  | _ => none

/-- A key `k<n>` or a step `s<n>`. -/
def indexedOf : List Char → Option Spelling
  | 'k' :: w => (decimalOf w).map .key
  | 's' :: w => (decimalOf w).map .step
  | _ => none

/-- The names of waveforms, targets and clock modes (10_state.md R61). -/
def operandNames : List (String × Spelling) :=
  [("Sine", .wave .sine), ("Square", .wave .square), ("Triangle", .wave .triangle), ("Sawtooth", .wave .sawtooth)]
  ++ [("Disabled", .target .disabled), ("Cutoff", .target .cutoff), ("AttackEnvelope", .target .attackEnvelope),
      ("EnvelopeWave", .target .envelopeWave), ("FilterMod", .target .filterMod),
      ("FilterSweep", .target .filterSweep), ("PitchBend", .target .pitchBend)]
  ++ [("None", .clock .none), ("MidiClock", .clock .midiClock), ("SyncPulse", .clock .syncPulse)]

/-- The entry of a table under a name. -/
def named {α : Type} (w : List Char) (table : List (String × α)) : Option α :=
  (table.find? fun x => decide (x.1 = String.ofList w)).map Prod.snd

/-- How the operand of a command line is spelled. -/
def spellingOf : List Token → Option Spelling
  | [] => some .nothing
  | [.word w] =>
    ((((named w operandNames).or (indexedOf w)).or (hertzOf w)).or ((hexOf w).map .hex)).or ((signedOf w).map .int)
  | [.word w, .word u] => if u = ['H', 'z'] then fractionOf w else none
  | _ => none

/-- The command of a line: a mnemonic and its operand. -/
def commandOf : List Token → Option Instr
  | .word m :: rest =>
    (Opc.all.find? fun o => decide (Opc.mnemonic o = String.ofList m)).bind fun o => (spellingOf rest).bind (assemble o)
  | _ => none

/-! ## Accesses -/

/-- The registers that are no element of an array, by name. -/
def registerNames : List (String × Reg) :=
  [("ID", .id), ("CMD", .cmd), ("STATUS", .status), ("ERR", .err), ("IRQ_PEND", .irqPend), ("IRQ_EN", .irqEn),
    ("PROG_CFG", .progCfg), ("PROG_MODVAL", .progModval)]
  ++ [("V_FREQ", .vFreq), ("V_ACC", .vAcc), ("V_INC", .vInc), ("V_ELAPSED", .vElapsed), ("PWM_DUTY", .pwmDuty),
      ("DISPLAY", .display), ("PLAY_LAST", .playLast), ("PLAY_COUNT", .playCount)]
  ++ [("MIDI_COUNT", .midiCount), ("SYNC_COUNT", .syncCount), ("SEQ_TIMER", .seqTimer), ("BLINK_CNT", .blinkCnt),
      ("SYNC_CNT", .syncCnt), ("PULSE_IDX", .pulseIdx), ("DUAL_GUARD", .dualGuard)]

/-- `SEQ[i]` or `KEYFREQ[k]`. -/
def elementOf (w : List Char) : Option Reg :=
  match w.span fun c => decide (c ≠ '[') with
  | (name, _ :: rest) =>
    match rest.reverse with
    | ']' :: index =>
      ((decimalOf index.reverse).bind nibble).bind fun i =>
        named name ([("SEQ", Reg.seq i)] ++ [("KEYFREQ", Reg.keyFreq i)])
    | _ => none
  | (_, []) => none

/-- The window offset of a register name, or an offset in hexadecimal. -/
def offsetOf (w : List Char) : Option (BitVec 8) :=
  (((named w registerNames).or (elementOf w)).map Reg.busOffset).or
    ((hexOf w).bind fun n => if n < 256 then some (BitVec.ofNat 8 n) else none)

/-- A 32-bit value, decimal or hexadecimal. -/
def valueOf (w : List Char) : Option Word :=
  ((hexOf w).or (decimalOf w)).bind fun n => if n < 2 ^ 32 then some (BitVec.ofNat 32 n) else none

/-! ## Lines and programs -/

/-- A line whose first word is that of an access or of a pseudo-instruction with operands; none for any other. -/
def accessLine (head : String) (rest : List Token) : Option (List Line) :=
  match rest with
  | [] =>
    named head.toList ([("NOTE_OFF_JOIN", noteOffJoin)] ++ [("SEQ_EXIT_JOIN", seqExitJoin)] ++ [("CLEAR_ERR", clearErr)])
  | [.word x] =>
    if head = "RD" then (offsetOf x).map fun a => [.rd a]
    else if head = "IDLE" then (decimalOf x).map fun n => [.idle n]
    else if head = "ACK" then (valueOf x).map ack
    else if head = "STEP_TO" then ((decimalOf x).bind nibble).map stepTo
    else none
  | [.word x, .comma, .word y] =>
    if head = "WR" then (offsetOf x).bind fun a => (valueOf y).map fun v => [.wr a v]
    else if head = "LOAD_PROG" then (valueOf x).bind fun cfg => (valueOf y).map (loadProg cfg)
    else none
  | [.word x, .comma, .word y, .comma, .word z] =>
    if head = "POLL" then
      (offsetOf x).bind fun a => (valueOf y).bind fun m => (valueOf z).map fun v => [.poll a m v]
    else none
  | _ => none

/-- The lines that a line of text stands for: none at all for an empty one. -/
def lineOf (text : List Char) : Option (List Line) :=
  match tokens [] text with
  | [] => some []
  | .word w :: rest =>
    ((accessLine (String.ofList w) rest).or
      (if String.ofList w = "CMD_SAFE" then (commandOf rest).map cmdSafe else none)).or
      ((commandOf (.word w :: rest)).map fun i => [.command i])
  | .comma :: _ => none

/-- The host program of a text: refused if one of its lines is. -/
def programOf (text : String) : Option (List Line) :=
  (linesOf [] text.toList).foldr (fun l p => (lineOf l).bind fun a => p.map fun b => a ++ b) (some [])

end Sys2Proof.Machine
end

