-- ==== Sys2Proof/Tests/Slice0.lean ====
section
/-! SUPPORT. Tests: decoding of words written out from the spec's formats, ill-formed terms, single steps against the
spec's own vectors (95_test_vectors.md, the examples of the rules), and for every obligation with hypotheses a witness
that they can be met together. Expected values are the spec's, never the model's. -/

namespace Sys2Proof.Tests

open Sys2Proof.Machine Sys2Proof.Safety

/-! ## Decoding (30_encoding.md R101, R104) -/

theorem test_decode_nop : decode 0b00000000_00000000_00000000_00000000 = .ok .nop := by decide

theorem test_decode_noteOn : decode 0b00000001_00000001_10111000_00000000 = .ok (.noteOn 112640) := by decide

theorem test_decode_noteOff : decode 0b00000010_00000000_00000000_00000000 = .ok .noteOff := by decide

theorem test_decode_setWave : decode 0b00000011_00000000_00000000_00000011 = .ok (.setWave .sawtooth) := by decide

theorem test_decode_setTarget : decode 0b00000100_00000000_00000000_00000101 = .ok (.setTarget 5) := by decide

theorem test_decode_modUpdate : decode 0b00000101_00000000_11111111_00111000 = .ok (.modUpdate (-200)) := by decide

theorem test_decode_setOctave : decode 0b00000110_00000000_00000000_11111101 = .ok (.setOctave (-3)) := by decide

theorem test_decode_seqOpen : decode 0b00010000_00000000_00000000_00000000 = .ok .seqOpen := by decide

theorem test_decode_seqExit : decode 0b00010001_00000000_00000000_00000000 = .ok .seqExit := by decide

theorem test_decode_run : decode 0b00010010_00000000_00000000_00000000 = .ok .run := by decide

theorem test_decode_stop : decode 0b00010011_00000000_00000000_00000000 = .ok .stop := by decide

theorem test_decode_toggleDual : decode 0b00010100_00000000_00000000_00000000 = .ok .toggleDual := by decide

theorem test_decode_assign : decode 0b00010101_00000000_00000000_00001010 = .ok (.assign 10) := by decide

theorem test_decode_clearStep : decode 0b00010110_00000000_00000000_00000000 = .ok .clearStep := by decide

theorem test_decode_clearPattern : decode 0b00010111_00000000_00000000_00000000 = .ok .clearPattern := by decide

theorem test_decode_cursorNext : decode 0b00011000_00000000_00000000_00000000 = .ok .cursorNext := by decide

theorem test_decode_cursorPrev : decode 0b00011001_00000000_00000000_00000000 = .ok .cursorPrev := by decide

theorem test_decode_cursorSet : decode 0b00011010_00000000_00000000_00000111 = .ok (.cursorSet 7) := by decide

theorem test_decode_setTempo : decode 0b00011011_00000000_00000000_10001100 = .ok (.setTempo 140) := by decide

theorem test_decode_setClock : decode 0b00011100_00000000_00000000_00000010 = .ok (.setClock 2) := by decide

theorem test_decode_keyPress : decode 0b00100000_00000000_00000000_00000100 = .ok (.keyPress 4) := by decide

theorem test_decode_keyRelease : decode 0b00100001_00000000_00000000_00001101 = .ok (.keyRelease 13) := by decide

theorem test_decode_encoder : decode 0b00100010_00000000_11111111_11111101 = .ok (.encoder (-3)) := by decide

theorem test_decode_setVolume : decode 0b00110000_00000000_00000000_00011110 = .ok (.setVolume 30) := by decide

theorem test_decode_top_of_fields : decode 0x01FFFFFF = .ok (.noteOn 16777215) ∧ decode 0x05008000 = .ok (.modUpdate (-32768))
    ∧ decode 0x0600007F = .ok (.setOctave 127) ∧ decode 0x04000007 = .ok (.setTarget 7)
    ∧ decode 0x1C000003 = .ok (.setClock 3) := by decide

/-- L2.1. -/
theorem test_decode_refuses_unassigned : decode 0x07000000 = .error (.unassignedOpcode 0x07)
    ∧ decode 0xFF000000 = .error (.unassignedOpcode 0xFF) := by decide

/-- L2.1. -/
theorem test_decode_refuses_reserved_bits : decode 0x00000001 = .error (.reservedOperandBits .nop)
    ∧ decode 0x03000004 = .error (.reservedOperandBits .setWave)
    ∧ decode 0x06010000 = .error (.reservedOperandBits .setOctave)
    ∧ decode 0x05010000 = .error (.reservedOperandBits .modUpdate) := by decide

/-- 20_memory.md R82. -/
theorem test_decode_bytes_little_endian : decodeBytes [0x00, 0xB8, 0x01, 0x01, 0x55] = .ok (.noteOn 112640, [0x55])
    ∧ decodeBytes [0x00, 0x00, 0x00] = .error (.truncated 3) := by decide

theorem test_decode_table_word : decodeTableWord 32 0x0101B800 = some (.noteOn 112640) ∧ decodeTableWord 32 0x07000000 = none := by decide

/-- 30_encoding.md R107: 440 Hz is 112640; 4.401 Hz is no multiple of 1/256 Hz. -/
theorem test_assembler : assemble .noteOn (.hz 440 0) = some (.noteOn 112640) ∧ assemble .noteOn (.hz 4401 3) = none
    ∧ assemble .setOctave (.int (-129)) = none ∧ assemble .keyPress (.key 4) = some (.keyPress 4)
    ∧ assemble .cursorSet (.key 4) = none ∧ assemble .setClock (.clock .midiClock) = some (.setClock 1) := by decide

set_option maxRecDepth 8000 in
/-- 30_encoding.md R107. -/
theorem test_assembler_text : commandOf (tokens [] "NOTE_ON 440Hz ; A4".toList) = some (.noteOn 112640)
    ∧ commandOf (tokens [] "NOTE_ON 0x1F_4000".toList) = some (.noteOn 2048000)
    ∧ commandOf (tokens [] "NOTE_ON 4.5 Hz".toList) = some (.noteOn 1152)
    ∧ commandOf (tokens [] "ENCODER -3".toList) = some (.encoder (-3))
    ∧ commandOf (tokens [] "CURSOR_SET s15".toList) = some (.cursorSet 15)
    ∧ commandOf (tokens [] "SET_WAVE Sawtooth".toList) = some (.setWave .sawtooth)
    ∧ commandOf (tokens [] "ENCODER 0x3".toList) = none ∧ commandOf (tokens [] "RUN 1".toList) = none := by decide

set_option maxRecDepth 8000 in
/-- 30_encoding.md R107, R108. -/
theorem test_assembler_lines : programOf "WR KEYFREQ[3], 0xFF01_B800\nRD 0x0E\n\nPOLL STATUS, 0x20, 0x20 ; join\nIDLE 2998"
      = some ([.wr 0x6C 0xFF01B800] ++ [.rd 0x0E] ++ [.poll 0x08 0x20 0x20] ++ [.idle 2998])
    ∧ programOf "NOTE_OFF_JOIN\nCMD_SAFE SET_WAVE Square\nACK 0x1"
      = some ([.command .noteOff] ++ [.poll 0x08 0x20 0x20] ++ [.poll 0x08 0x20 0x20] ++ [.command (.setWave .square)] ++ [.wr 0x10 1])
    ∧ programOf "RUN\nJUMP" = none := by decide

/-! ## Ill-formed terms, which WellFormed refuses (30_encoding.md R101) -/

theorem test_wellFormed_noteOn : WellFormed (.noteOn 16777216) = false ∧ WellFormed (.noteOn 16777215) = true := by decide

theorem test_wellFormed_modUpdate : WellFormed (.modUpdate 32768) = false ∧ WellFormed (.modUpdate 32767) = true := by decide

theorem test_wellFormed_modUpdate_low : WellFormed (.modUpdate (-32769)) = false ∧ WellFormed (.modUpdate (-32768)) = true := by decide

theorem test_wellFormed_setOctave : WellFormed (.setOctave 128) = false ∧ WellFormed (.setOctave 127) = true := by decide

theorem test_wellFormed_setOctave_low : WellFormed (.setOctave (-129)) = false ∧ WellFormed (.setOctave (-128)) = true := by decide

theorem test_wellFormed_setTempo : WellFormed (.setTempo 256) = false ∧ WellFormed (.setTempo 255) = true := by decide

theorem test_wellFormed_encoder : WellFormed (.encoder 32768) = false ∧ WellFormed (.encoder 32767) = true := by decide

theorem test_wellFormed_encoder_low : WellFormed (.encoder (-32769)) = false ∧ WellFormed (.encoder (-32768)) = true := by decide

theorem test_wellFormed_setVolume : WellFormed (.setVolume 256) = false ∧ WellFormed (.setVolume 255) = true := by decide

/-- 00_scope.md R6. -/
theorem test_config : Config.wellFormed = true := by decide

/-! ## Small states -/

/-- The state a command leads to. -/
def after (i : Instr) (s : State) : State :=
  match exec i s with
  | .next t => t
  | .fault _ | .refused _ => s

/-- The state of a fresh session after some commands. -/
def session (l : List Instr) : State := l.foldl (fun s i => after i s) (after .seqOpen State.reset)

/-- `STATUS` and `ERR` after a command. -/
def statusErr (i : Instr) (s : State) : Word × Word := (readReg .status (after i s), readReg .err (after i s))

/-- The state after a host write, errors included. -/
def wrote (r : Reg) (v : Word) (s : State) : State :=
  match hostWrite r.busOffset .word v s with
  | .next t => t
  | .fault _ | .refused _ => s

/-- A fresh session with a 440 Hz note sounding. -/
def noteSounding : State := session [.noteOn 112640]

/-- The same note, stopped, its join pending. -/
def drainPending : State := after .noteOff noteSounding

/-- DualMode with key 4 tuned to 440 Hz. -/
def dualMode : State := wrote (.keyFreq 4) 0x1B800 (session [.toggleDual])

/-- DualMode with key 4 held. -/
def keyHeld : State := after (.keyPress 4) dualMode

/-- A running session with step 0 filled. -/
def runningPattern : State := session [.assign 2, .run]

/-- A voice state no run reaches: draining although commands are accepted. -/
def looseDrain : State := { session [] with voice := { Voice.reset with busy := true } }

/-- Running, one tick before the sixth pulse of a step. -/
def beforeStep : State :=
  { runningPattern with rt := { runningPattern.rt with clkAcc := 2499999, pulse := 5 }, cycle := 19 }

/-- A first audio tick with a chosen target: what it leaves in `V_INC` and the duty, for 440 Hz. -/
def toneTick (wave : Wave) (target : Target) (modval : BitVec 16) (elapsed acc : BitVec 32) : Nat × Nat :=
  let s := audioTick { noteSounding with
    prog := { noteSounding.prog with wave := wave, target := target, modval := modval }
    voice := { noteSounding.voice with elapsed := elapsed, acc := acc } }
  (s.voice.inc.toNat, s.voice.duty.toNat)

/-! ## Single commands against the vectors of 95_test_vectors.md -/

/-- L2.1: accepted with the view closed. -/
theorem test_nop : statusErr .nop State.reset = (0xA0, 0) := by decide

/-- R280: refused while CMD_READY = 0, opcode 0x00. -/
theorem test_nop_overrun : (statusErr .nop drainPending).2 = 0x00000510 := by decide

/-- L1.5. -/
theorem test_noteOn_octave : (session [.setOctave 1, .noteOn 112640]).voice.freq = 225280 := by decide

/-- L1.2. -/
theorem test_noteOn_monophony : (session [.noteOn 112640, .noteOn 225280]).voice.freq = 112640
    ∧ statusErr (.noteOn 225280) noteSounding = (0xB9, 0) := by decide

/-- L2.5. -/
theorem test_noteOff_sounding : readReg .status drainPending = 0x91 := by decide

/-- L2.5. -/
theorem test_noteOff_silent : statusErr .noteOff (session []) = (0xA1, 0)
    ∧ (after .noteOff (session [])).history.head? = some (0, .pwm 0) := by decide

/-- L2.5. -/
theorem test_setWave : readReg .progCfg (session [.setWave .sawtooth]) = 0x00037801
    ∧ readReg .irqPend (session [.setWave .sawtooth]) = 1 := by decide

/-- L2.5. -/
theorem test_setWave_hazard : (statusErr (.setWave .square) noteSounding).2 = 0x00030408 := by decide

/-- L1.13. -/
theorem test_setTarget_disabled : readReg .progModval (after (.setTarget 0) (wrote .progModval 55 (session []))) = 0 := by decide

/-- L2.1. -/
theorem test_setTarget_range : (statusErr (.setTarget 7) (session [])).2 = 0x00040304 := by decide

/-- L2.5 and L2.1. -/
theorem test_modUpdate : readReg .progModval (after (.modUpdate 1) (wrote .progModval 32767 (session []))) = 100
    ∧ readReg .progModval (session [.modUpdate (-100)]) = 1 := by decide

/-- L1.4. -/
theorem test_setOctave : (session [.setOctave (-128)]).prog.octave = 0b101 ∧ (session [.setOctave 127]).prog.octave = 0b011 := by decide

/-- R210. -/
theorem test_seqOpen : readReg .status (session []) = 0xA1 ∧ readReg .display (session []) = 1 := by decide

/-- L2.6. -/
theorem test_seqOpen_twice : (statusErr .seqOpen (session [])).2 = 0x00100202 := by decide

/-- L2.6, but the blink is already on in Idle. -/
theorem test_seqExit : readReg .status (after .seqExit (session [.noteOn 112640, .cursorSet 5])) = 0x5090 := by decide

/-- L2.6 and R212. -/
theorem test_run : readReg .status (session [.run]) = 0xA3 ∧ readReg .playLast runningPattern = 0x103
    ∧ readReg .irqPend (session [.run]) = 2 := by decide

/-- L2.6. -/
theorem test_run_dual : (statusErr .run dualMode).2 = 0x00120202 := by decide

/-- L2.6. -/
theorem test_stop : statusErr .stop (session []) = (0xA1, 0)
    ∧ readReg .status (after .stop { session [.run] with rt := { (session [.run]).rt with cur := 2 } }) = 0x20A1 := by decide

/-- L2.6. -/
theorem test_toggleDual : readReg .status (session [.toggleDual]) = 0xA5 ∧ readReg .status (session [.toggleDual, .toggleDual]) = 0xA1 := by decide

/-- L1.10. -/
theorem test_toggleDual_running : (statusErr .toggleDual (session [.run])).2 = 0x00140202 := by decide

/-- L1.7. -/
theorem test_assign : readReg (.seq 5) (session [.cursorSet 5, .assign 2]) = 0x103
    ∧ readReg .playCount (session [.cursorSet 5, .assign 2]) = 1 ∧ (session [.cursorSet 5, .assign 2]).rt.cur = 5 := by decide

/-- L2.6. -/
theorem test_assign_dual : (statusErr (.assign 3) dualMode).2 = 0x00150202 := by decide

/-- L1.7. -/
theorem test_clearStep : readReg (.seq 0) (session [.assign 2, .clearStep]) = 0 := by decide

/-- L2.6: the run moves to step 1. -/
theorem test_clearStep_running : readReg .status (after .clearStep runningPattern) = 0x10A3 := by decide

/-- R217: the early advance plays nothing; the two plays are the preview and step 0. -/
theorem test_clearPattern : readReg (.seq 4) (session [.cursorSet 4, .assign 0, .clearPattern]) = 0
    ∧ (after .clearPattern runningPattern).rt.cur = 1 ∧ (after .clearPattern runningPattern).ifc.playCount = 2 := by decide

/-- L2.6. -/
theorem test_cursorNext : (session [.cursorSet 15, .cursorNext]).rt.cur = 0 ∧ (statusErr .cursorNext (session [.run])).2 = 0x00180202 := by decide

/-- L2.6. -/
theorem test_cursorPrev : (session [.cursorPrev]).rt.cur = 15 := by decide

/-- R220. -/
theorem test_cursorSet : readReg .status (session [.cursorSet 7]) = 0x70A1 := by decide

/-- L2.6. -/
theorem test_setTempo : readReg .progCfg (session [.setTempo 140]) = 0x00008C01 ∧ (statusErr (.setTempo 59) (session [])).2 = 0x001B0304 := by decide

/-- L2.6. -/
theorem test_setTempo_141 : (statusErr (.setTempo 141) (session [])).2 = 0x001B0304 ∧ (session [.setTempo 60]).prog.tempo = 60 := by decide

/-- L2.6 and L2.1. -/
theorem test_setClock : (session [.setClock 1]).prog.clock = .midiClock ∧ (statusErr (.setClock 3) (session [])).2 = 0x001C0304 := by decide

/-- L2.9. -/
theorem test_keyPress_live : readReg .status keyHeld = 0x4FD ∧ keyHeld.voice.freq = 112640 := by decide

/-- L2.9. -/
theorem test_keyPress_edit : readReg (.seq 0) (session [.keyPress 2]) = 0x103 := by decide

/-- L2.9. -/
theorem test_keyRelease : readReg .status (after (.keyRelease 4) keyHeld) = 0x95 ∧ after (.keyRelease 5) keyHeld = keyHeld := by decide

/-- L2.9. -/
theorem test_encoder : (after (.encoder 150) dualMode).prog.modval = 100 ∧ after (.encoder 5) (session []) = session [] := by decide

/-- L2.9. -/
theorem test_encoder_down : (after (.encoder (-3)) (after (.encoder 150) dualMode)).prog.modval = 97 := by decide

/-- L2.11. -/
theorem test_setVolume : readReg .playLast (session [.setVolume 20]) = 0x00010014 ∧ (session [.setVolume 20]).ifc.playCount = 0 := by decide

/-- L2.11. -/
theorem test_setVolume_range : (statusErr (.setVolume 31) (session [])).2 = 0x00300304 := by decide

/-- L2.1. -/
theorem test_overrun_before_decode : (readReg .err (wrote .cmd 0x31000000 drainPending)) = 0x00310510 := by decide

/-- L2.1. -/
theorem test_badCmd_before_view : readReg .err (wrote .cmd 0x03000004 State.reset) = 0x00030101
    ∧ readReg .err (wrote .cmd 0x0101B800 State.reset) = 0x00010202 := by decide

/-- R103: STATE with the view closed. -/
theorem test_seqExit_closed : (statusErr .seqExit State.reset).2 = 0x00110202 := by decide

/-! ## Registers (L2.10) -/

theorem test_reset_registers : readReg .id State.reset = 0x50415407 ∧ readReg .status State.reset = 0xA0
    ∧ readReg .progCfg State.reset = 0x7801 ∧ readReg .cmd State.reset = 0 := by decide

theorem test_progCfg_write : readReg .progCfg (wrote .progCfg 0x00028C05 State.reset) = 0x00028C05
    ∧ readReg .progCfg (wrote .progCfg 0x80807801 State.reset) = 0x00007801 := by decide

theorem test_progCfg_refused : readReg .err (wrote .progCfg 0x00003B01 State.reset) = 0x00FF0304
    ∧ readReg .err (wrote .progCfg 0x04007801 State.reset) = 0x00FF0304
    ∧ readReg .progCfg (wrote .progCfg 0x04007801 State.reset) = 0x00007801
    ∧ readReg .err (wrote .progCfg 0x00017801 noteSounding) = 0x00FF0408
    ∧ (wrote .progCfg 0x00007802 noteSounding).prog.folder = 2 := by decide

theorem test_seq_and_keyfreq_write : readReg (.seq 0) (wrote (.seq 0) 0x103 State.reset) = 0x103
    ∧ readReg (.seq 1) (wrote (.seq 1) 0x055 State.reset) = 0
    ∧ readReg (.keyFreq 3) (wrote (.keyFreq 3) 0xFF01B800 State.reset) = 0x0001B800 := by decide

theorem test_bus_errors : readReg .err (wrote .status 0 State.reset) = 0x00FF0620
    ∧ (hostRead 0x0E .word State.reset).readData = some 0 ∧ (hostRead 0x0E .word State.reset).ifc.err = 0b100000
    ∧ (hostRead 0xDC .word State.reset).ifc.lastCode = 6
    ∧ (hostRead 0x08 (.bytes 0b0001) State.reset).ifc.lastCode = 6 := by decide

theorem test_clearing_writes : readReg .err (wrote .err 0x01 (after .toggleDual (session [.run]))) = 0x00140202
    ∧ readReg .err (wrote .err 0x3F (after .toggleDual (session [.run]))) = 0
    ∧ (wrote .err 0x3F (after .toggleDual (session [.run]))).ifc.irqPend = 0b1010 := by decide

theorem test_irq_line : irqLine (wrote .irqEn 0x8 (after .toggleDual (session [.run]))) = true := by decide

/-! ## Ticks (L2.3, L2.4, L2.7, L2.8) -/

theorem test_tone_disabled : toneTick .sine .disabled 0 0 0 = (94489280, 18389) ∧ toneTick .sawtooth .disabled 0 0 0 = (94489280, 615) := by decide

theorem test_tone_cutoff : toneTick .sine .cutoff 100 0 0 = (94489280, 14711) := by decide

theorem test_tone_attack : toneTick .sine .attackEnvelope 97 1 94489280 = (94489280, 855)
    ∧ toneTick .sine .attackEnvelope 100 0 0 = (94489280, 0) := by decide

set_option maxRecDepth 8000 in
theorem test_tone_envelope : toneTick .sine .envelopeWave 65535 1 94489280 = (94489280, 20750)
    ∧ toneTick .sine .envelopeWave 100 0 0 = (94489280, 28) := by decide

set_option maxRecDepth 8000 in
theorem test_tone_filterMod : toneTick .sine .filterMod 32767 1 94489280 = (94548649, 20753)
    ∧ toneTick .sine .filterMod 100 2 189037929 = (94489642, 22653) := by decide

set_option maxRecDepth 8000 in
theorem test_tone_filterSweep : toneTick .sine .filterSweep 65535 0 0 = (94489280, 9194)
    ∧ toneTick .sine .filterSweep 65535 1 94489280 = (94489280, 11806) := by decide

set_option maxRecDepth 8000 in
theorem test_tone_pitchBend : toneTick .sine .pitchBend 32767 0 0 = (106060631, 18787)
    ∧ toneTick .sine .pitchBend 100 0 0 = (84239757, 18389) := by decide

theorem test_drain_tick : readReg .status (audioTick drainPending) = 0xA1 ∧ readReg .irqPend (audioTick drainPending) = 4 := by decide

theorem test_step_tick : (timebaseTick beforeStep).rt.cur = 1 ∧ (timebaseTick beforeStep).rt.pulse = 0
    ∧ (timebaseTick beforeStep).rt.clkAcc = 119 := by decide

theorem test_sync_pulse_falls : (timebaseTick { session [.setClock 2, .run] with rt := { (session [.setClock 2, .run]).rt with syncCnt := 1 } }).rt.syncLevel
      = false ∧ syncOut (session [.setClock 2, .run]) = true := by decide

theorem test_blink_phase_ends : (timebaseTick { session [] with rt := { (session []).rt with blinkCnt := 749999 } }).rt.blinkOn = false
    ∧ (timebaseTick { session [] with rt := { (session []).rt with blinkCnt := 749998 } }).rt.blinkOn = true := by decide

theorem test_display : readReg .display (session [.cursorSet 4, .assign 6, .cursorSet 0, .assign 2, .cursorSet 2]) = 0x0015 := by decide

theorem test_midi_clock : (session [.setClock 1, .run]).history.head? = some (0, .midi 0xF8) ∧ (session [.setClock 1, .run]).ifc.midiCount = 1 := by decide

set_option maxRecDepth 8000 in
/-- The step after reset runs the command word written first. -/
theorem test_fetch_runs_the_command : (match step (State.reset.withFetchWord 32 0x10000000) with
      | .next t => readReg .status t
      | _ => 0) = 0xA1 := by decide

set_option maxRecDepth 8000 in
/-- The first accesses of L3.4. -/
theorem test_program_registers : (runProgram 1 ([.rd 0x00] ++ [.wrReg .progCfg 0x00028C05] ++ [.wrReg .progCfg 0x04007801] ++ [.wrReg .id 0] ++ clearErr)
      State.reset).map (fun s => (readReg .progCfg s, readReg .err s, s.cycle)) = some (0x00028C05, 0, 5) := by decide

set_option maxRecDepth 8000 in
/-- 30_encoding.md R108: CMD_SAFE; a poll of a pending join does not end before its tick. -/
theorem test_program_poll : (runProgram 1 (cmdSafe .seqOpen) State.reset).map (readReg .status) = some 0xA1
    ∧ (runProgram 1 [waitReady] drainPending).isNone = true := by decide

/-! ## Witnesses: the hypotheses of each obligation can be met together

`exec`, `hostWrite` and `step` always answer a next state, so a premise `... = .next t` is met by some `t`. -/

theorem exec_next_exists (i : Instr) (s : State) : ∃ t, exec i s = .next t := by
  rw [exec_eq_accept, accept_eq]
  exact ⟨_, rfl⟩

theorem step_next_exists (s : State) : ∃ t, step s = .next t := by
  obtain ⟨t, ht⟩ := run_total 1 s
  cases h : step s with
  | next u => exact ⟨u, rfl⟩
  | fault r => cases r
  | refused r =>
    have : Sys2Proof.core.run 1 s = .refused r := by
      have general : ∀ (M : Host.Core) (s : M.State) r, M.step s = .refused r → M.run 1 s = .refused r := by
        intro M s r h
        rw [Host.Core.run.eq_2, h]
      exact general Sys2Proof.core s r h
    rw [this] at ht
    cases ht

theorem test_witness_DecodeOfEncode : WellFormed (.noteOn 16777215) = true ∧ WellFormed (.encoder (-32768)) = true ∧ WellFormed .nop = true :=
  by decide

theorem test_witness_EncodeOfDecode : decode 0x22008000 = .ok (.encoder (-32768)) :=
  by decide

theorem test_witness_OpcodeMapRows : (0x01FFFFFF : Word) &&& Opc.maskWord .noteOn = Opc.matchWord .noteOn :=
  by decide

theorem test_witness_IllegalWordsRefused : (∀ i, decode 0x07000000 ≠ .ok i) ∧ (∀ i, decode 0x1A000010 ≠ .ok i) ∧ State.reset.ifc.cmdReady = true :=
  by
  have h1 : decode 0x07000000 = .error (.unassignedOpcode 0x07) := by decide
  have h2 : decode 0x1A000010 = .error (.reservedOperandBits .cursorSet) := by decide
  rw [h1, h2]
  exact ⟨(fun i h => by cases h), (fun i h => by cases h), rfl⟩

theorem test_witness_CommandAcceptance : drainPending.ifc.cmdReady = false ∧ State.reset.ifc.cmdReady = true ∧ State.reset.rt.view = false
    ∧ Instr.noteOff ≠ .nop ∧ Instr.noteOff ≠ .seqOpen :=
  by decide

theorem test_witness_RefusedCommandIsVoid : (∃ t, exec .run State.reset = .next t) ∧ ∃ t, exec .nop State.reset = .next t :=
  ⟨exec_next_exists _ _, exec_next_exists _ _⟩

theorem test_witness_StepRunsDecodedCommand : (State.reset.withFetchWord 32 0x10000000).pending
      = { rst := false, access := some (.write 0x04 AccessSize.word 0x10000000) } :: []
    ∧ decode 0x10000000 = .ok .seqOpen :=
  by decide

theorem test_witness_EncodedCommandRuns : WellFormed (.noteOn 16777215) = true :=
  by decide

theorem test_witness_CycleOrder : (nextInput { State.reset with cycle := 19 }).rst = false
    ∧ (∃ t, hostAccess (nextInput { State.reset with cycle := 999 }).access (beginCycle { State.reset with cycle := 999 })
        = .next t)
    ∧ (nextInput { State.reset with pending := [{ rst := true, access := none }] }).rst = true :=
  ⟨by decide, ⟨_, rfl⟩, by decide⟩

theorem test_witness_ResetCycleClearsEverything : HistoryOk State.reset ∧ ∀ a ∈ [Access.read 0x08 .word, .write 0x04 .word 0x10000000],
    (nextInput { State.reset with pending := [{ rst := true, access := some a }] }).rst = true :=
  ⟨(by intro x h; exact absurd h (by simp [State.reset])), by decide⟩

theorem test_witness_StepKeepsInvariant : Inv runningPattern ∧ Inv drainPending ∧ Inv keyHeld ∧ ∃ t, step runningPattern = .next t :=
  ⟨by constructor <;> decide, by constructor <;> decide, by constructor <;> decide, step_next_exists _⟩

theorem test_witness_ExecKeepsInvariant : WellFormed (.noteOn 16777215) = true ∧ Inv (session [])
    ∧ ∃ t, exec (.noteOn 16777215) (session []) = .next t :=
  ⟨by decide, by constructor <;> decide, exec_next_exists _ _⟩

theorem test_witness_StepExtendsHistory : HistoryOk State.reset ∧ ∃ t, step State.reset = .next t :=
  ⟨(by intro x h; exact absurd h (by simp [State.reset])), step_next_exists _⟩

theorem test_witness_NopChangesNothing : State.reset.ifc.cmdReady = true ∧ (session []).ifc.cmdReady = true :=
  by decide

theorem test_witness_NoteOnStartsNote : 16777215 < 2 ^ 24 ∧ Open noteSounding ∧ noteSounding.voice.active = true
    ∧ Open (session []) ∧ (session []).voice.active = false ∧ (session []).voice.busy = false
    ∧ Open looseDrain ∧ looseDrain.voice.active = false ∧ looseDrain.voice.busy = true :=
  by unfold Open; decide

theorem test_witness_NoteOffStopsVoice : Open noteSounding ∧ noteSounding.voice.active = true
    ∧ Open (session []) ∧ (session []).voice.active = false ∧ (session []).voice.busy = false
    ∧ Open looseDrain ∧ looseDrain.voice.active = false ∧ looseDrain.voice.busy = true :=
  by unfold Open; decide

theorem test_witness_SetWaveOnlyWhenSilent : Open noteSounding ∧ noteSounding.voice.active = true
    ∧ Open (session []) ∧ (session []).voice.active = false ∧ (session []).voice.busy = false
    ∧ Open looseDrain ∧ looseDrain.voice.active = false ∧ looseDrain.voice.busy = true :=
  by unfold Open; decide

theorem test_witness_SetTargetSelectsModulation : Open (session []) ∧ (7 : BitVec 3) = 7 ∧ (6 : BitVec 3) ≠ 7 ∧ (0 : BitVec 3) ≠ 7 :=
  by unfold Open; decide

theorem test_witness_ModUpdateClampsTheSum : (-32768 : Int) ≤ -32768 ∧ (32767 : Int) ≤ 32767 ∧ Open (session []) :=
  by unfold Open; decide

theorem test_witness_SetOctaveClamps : (-128 : Int) ≤ -128 ∧ (127 : Int) ≤ 127 ∧ Open (session []) :=
  by unfold Open; decide

theorem test_witness_SeqOpenReinitialises : (session []).ifc.cmdReady = true ∧ (session []).rt.view = true
    ∧ State.reset.ifc.cmdReady = true ∧ State.reset.rt.view = false :=
  by decide

theorem test_witness_SeqExitClosesTheView : Open (session []) ∧ Open runningPattern ∧ Open noteSounding ∧ Open keyHeld :=
  by unfold Open; decide

theorem test_witness_RunStartsAtStepZero : Open runningPattern ∧ runningPattern.rt.running = true ∧ Open (session []) ∧ (session []).rt.running = false
    ∧ (session []).rt.dual = false ∧ Open dualMode ∧ dualMode.rt.dual = true ∧ dualMode.rt.running = false :=
  by unfold Open; decide

theorem test_witness_StopEndsTheRun : Open runningPattern ∧ runningPattern.rt.running = true ∧ Open (session []) ∧ (session []).rt.running = false :=
  by unfold Open; decide

theorem test_witness_ToggleDualFlips : Open runningPattern ∧ runningPattern.rt.running = true ∧ Open (session []) ∧ (session []).rt.running = false :=
  by unfold Open; decide

theorem test_witness_AssignWritesTheStep : Open (session []) ∧ (session []).rt.dual = false ∧ Open dualMode ∧ dualMode.rt.dual = true :=
  by unfold Open; decide

theorem test_witness_ClearStepEmptiesTheStep : Open runningPattern ∧ runningPattern.rt.running = true ∧ Open (session []) :=
  by unfold Open; decide

theorem test_witness_ClearPatternEmptiesAllSteps : Open runningPattern ∧ Open (session []) ∧ ∃ t, exec .clearPattern runningPattern = .next t :=
  ⟨by unfold Open; decide, by unfold Open; decide, exec_next_exists _ _⟩

theorem test_witness_CursorMoves : Open runningPattern ∧ runningPattern.rt.running = true ∧ Open (session []) ∧ (session []).rt.running = false :=
  by unfold Open; decide

theorem test_witness_TempoAndClockMode : Open (session []) ∧ 59 < 256 ∧ 59 < 60 ∧ 60 ≤ 60 ∧ 140 ≤ 140 ∧ 140 < 141 ∧ 141 < 256 ∧ (3 : BitVec 2) = 3
    ∧ (2 : BitVec 2) ≠ 3 :=
  by unfold Open; decide

theorem test_witness_KeyPressPlaysOrEdits : Open (session []) ∧ (session []).rt.dual = false ∧ Open keyHeld ∧ keyHeld.rt.dual = true ∧ keyHeld.rt.heldValid = true
    ∧ Open dualMode ∧ dualMode.rt.dual = true ∧ dualMode.rt.heldValid = false ∧ dualMode.voice.active = false
    ∧ dualMode.voice.busy = false :=
  by unfold Open; decide

theorem test_witness_KeyReleaseStopsTheHeldKey : Open keyHeld ∧ keyHeld.rt.heldValid = true ∧ keyHeld.rt.heldKey = 4 ∧ keyHeld.voice.active = true
    ∧ keyHeld.rt.heldKey ≠ 5 ∧ Open dualMode ∧ dualMode.rt.heldValid = false :=
  by unfold Open; decide

theorem test_witness_EncoderUpdatesInDualMode : Open (session []) ∧ (session []).rt.dual = false ∧ Open dualMode ∧ dualMode.rt.dual = true
    ∧ (-32768 : Int) ≤ -32768 ∧ (32767 : Int) ≤ 32767 :=
  by unfold Open; decide

theorem test_witness_SetVolumeRequests : Open (session []) ∧ 31 < 256 ∧ 30 < 31 ∧ 30 ≤ 30 :=
  by unfold Open; decide

theorem test_witness_CommandFrame : (∃ t, exec .clearPattern runningPattern = .next t)
    ∧ Instr.clearPattern.opc ∉ [Opc.seqOpen, .seqExit, .noteOn, .noteOff, .toggleDual, .keyPress, .keyRelease]
    ∧ Instr.clearPattern.opc ∉ [Opc.run, .assign, .clearStep, .keyPress, .setVolume]
    ∧ ¬ Refused .nop State.reset (after .nop State.reset) :=
  by
  refine ⟨exec_next_exists _ _, by decide, by decide, ?_⟩
  rintro ⟨c, hc⟩
  exact absurd (congrArg (fun u => u.history.length) hc) (by simp; decide)

theorem test_witness_IrqPendSources : (∃ t, exec .clearStep runningPattern = .next t)
    ∧ ¬ (AccessSize.word = .bytes 0b1111 ∧ (0x10 : BitVec 8) = 0x04)
    ∧ (∃ t, hostWrite 0x10 AccessSize.word 0x0000000F runningPattern = .next t)
    ∧ (∃ t, hostWrite 0x18 AccessSize.word 0x00003B01 runningPattern = .next t)
    ∧ ∃ t, hostWrite 0x04 (.bytes 0b0001) 0 runningPattern = .next t :=
  ⟨exec_next_exists _ _, by decide, ⟨_, rfl⟩, ⟨_, rfl⟩, ⟨_, rfl⟩⟩

theorem test_witness_MonophonyLaw : noteSounding.rt.view = true ∧ noteSounding.voice.active = true
    ∧ ∃ t, exec (.noteOn 225280) noteSounding = .next t :=
  ⟨by decide, by decide, exec_next_exists _ _⟩

theorem test_witness_RegisterMapCoversTheWindow : Reg.ofOffset? 0xD8 = some .dualGuard ∧ Reg.ofOffset? 0x5C = some (.seq 15) :=
  by decide

theorem test_witness_ReadsHaveNoEffect : Reg.ofOffset? 0x08 = some .status ∧ (BitVec.toNat (0x0E : BitVec 8)) % 4 ≠ 0 ∧ 0xDC ≤ BitVec.toNat (0xDC : BitVec 8)
    ∧ AccessSize.bytes 0b0011 ≠ .bytes 0b1111 ∧ AccessSize.wider ≠ .bytes 0b1111 :=
  by decide

theorem test_witness_BadWritesRecordBus : AccessSize.wider ≠ .bytes 0b1111 ∧ (BitVec.toNat (0xD9 : BitVec 8)) % 4 ≠ 0 ∧ 0xDC ≤ BitVec.toNat (0xFC : BitVec 8) :=
  by decide

theorem test_witness_ProgCfgWriteIsAllOrNothing : ((0x00003B01 : Word).extractLsb' 8 8).toNat < 60 ∧ 140 < ((0x00008D01 : Word).extractLsb' 8 8).toNat
    ∧ (0x000C7801 : Word).extractLsb' 18 2 = 3 ∧ (0x00707801 : Word).extractLsb' 20 3 = 7
    ∧ (0x04007801 : Word).extractLsb' 24 3 = 0b100
    ∧ (0x00017801 : Word).extractLsb' 16 2 ≠ noteSounding.prog.wave.code ∧ noteSounding.voice.active = true
    ∧ (0x00007801 : Word).extractLsb' 16 2 = noteSounding.prog.wave.code
    ∧ (0x00007801 : Word).extractLsb' 18 2 ≠ 3 ∧ (0x00007801 : Word).extractLsb' 20 3 ≠ 7
    ∧ (0x00007801 : Word).extractLsb' 24 3 ≠ 0b100 ∧ ((0x00007801 : Word).extractLsb' 8 8).toNat = 120 :=
  by decide

theorem test_witness_ReadBackLaw : (∃ t, hostWrite 0x18 AccessSize.word 0x00028C05 State.reset = .next t ∧ t.history = State.reset.history)
    ∧ (∃ t, hostWrite 0x1C AccessSize.word 5 State.reset = .next t)
    ∧ (∃ t, hostWrite 0x14 AccessSize.word 5 State.reset = .next t)
    ∧ (∃ t, hostWrite (BitVec.ofNat 8 (0x20 + 4 * (15 : BitVec 4).toNat)) AccessSize.word 5 State.reset = .next t)
    ∧ (∃ t, hostWrite (BitVec.ofNat 8 (0x60 + 4 * (15 : BitVec 4).toNat)) AccessSize.word 5 State.reset = .next t)
    ∧ (nextInput State.reset).rst = false ∧ (nextInput State.reset).access = none
    ∧ ∃ t, step State.reset = .next t :=
  ⟨⟨_, rfl, rfl⟩, ⟨_, rfl⟩, ⟨_, rfl⟩, ⟨_, rfl⟩, ⟨_, rfl⟩, rfl, rfl, step_next_exists _⟩

theorem test_witness_DisplayEventOnChange : HistoryOk State.reset ∧ (nextInput (State.reset.withFetchWord 32 0x10000000)).rst = false
    ∧ ∃ t, step (State.reset.withFetchWord 32 0x10000000) = .next t :=
  ⟨(by intro x h; exact absurd h (by simp [State.reset])), rfl, step_next_exists _⟩

theorem test_witness_TimebaseTickRules : State.reset.rt.view = false
    ∧ dualMode.rt.view = true ∧ dualMode.rt.running = false ∧ dualMode.rt.dual = true
    ∧ (session []).rt.view = true ∧ (session []).rt.running = false ∧ (session []).rt.dual = false
    ∧ beforeStep.rt.view = true ∧ beforeStep.rt.running = true ∧ beforeStep.rt.clkAcc.toNat < 2500000
    ∧ beforeStep.rt.pulse = 5 ∧ runningPattern.rt.clkAcc.toNat < 2500000 ∧ runningPattern.rt.running = true :=
  by decide

theorem test_witness_StepPeriodLaw : runningPattern.pending = [] ∧ runningPattern.rt.view = true ∧ runningPattern.rt.running = true
    ∧ runningPattern.rt.pulse.toNat ≤ 5 ∧ runningPattern.rt.clkAcc.toNat < 2500000
    ∧ runningPattern.prog.tempo.toNat ≤ 140
    ∧ 0 < runningPattern.prog.tempo.toNat ∧ runningPattern.rt.clkAcc = 0 ∧ runningPattern.rt.pulse = 0
    ∧ (timebaseTicks runningPattern.cycle 2499980 + 1
        = (15000000 * 1 + runningPattern.prog.tempo.toNat - 1) / runningPattern.prog.tempo.toNat)
    ∧ (timebaseTicks runningPattern.cycle 2500000
        = (15000000 * 1 + runningPattern.prog.tempo.toNat - 1) / runningPattern.prog.tempo.toNat)
    ∧ (∃ t, Sys2Proof.core.run 2499980 runningPattern = .next t)
    ∧ ∃ t, Sys2Proof.core.run 2500000 runningPattern = .next t :=
  ⟨by decide, by decide, by decide, by decide, by decide, by decide, by decide, by decide, by decide, by decide, by decide,
    run_total _ _, run_total _ _⟩

theorem test_witness_PatternPassLaw : runningPattern.pending = [] ∧ runningPattern.rt.view = true ∧ runningPattern.rt.running = true
    ∧ runningPattern.rt.pulse.toNat ≤ 5 ∧ runningPattern.rt.clkAcc.toNat < 2500000
    ∧ runningPattern.prog.tempo.toNat ≤ 140
    ∧ ∃ t, Sys2Proof.core.run 40000000 runningPattern = .next t :=
  ⟨by decide, by decide, by decide, by decide, by decide, by decide, run_total _ _⟩

theorem test_witness_BlinkLaw : (session []).pending = [] ∧ (session []).rt.view = true ∧ (session []).rt.running = false
    ∧ (session []).rt.dual = false ∧ (session []).rt.blinkOn = true ∧ (session []).rt.blinkCnt = 0
    ∧ (session []).rt.syncCnt = 0 ∧ (session []).rt.guard = 0
    ∧ ∃ t, Sys2Proof.core.run 15000000 (session []) = .next t :=
  ⟨by decide, by decide, by decide, by decide, by decide, by decide, by decide, by decide, run_total _ _⟩

theorem test_witness_OutputLevels : HistoryOk State.reset ∧ .midi 0xF8 ∈ cycleEvents { session [.setClock 1, .run] with now := 1 } :=
  ⟨(by intro x h; exact absurd h (by simp [State.reset])), by decide⟩

theorem test_witness_GenerateTickIsExact : noteSounding.voice.active = true
    ∧ drainPending.voice.busy = true ∧ drainPending.voice.active = false
    ∧ (session []).voice.busy = false ∧ (session []).voice.active = false :=
  by decide

theorem test_witness_JoinWithinOneAudioPeriod : drainPending.ifc.cmdReady = false ∧ drainPending.voice.busy = true ∧ drainPending.voice.active = false
    ∧ (∀ x ∈ (drainPending.withFetchWord 32 0x10000000).pending, x.rst = false) ∧ 999 < 1000 - drainPending.cycle % 1000 :=
  by decide

end Sys2Proof.Tests
end

section
/-! PROOFS (scope, 00_scope.md). Each operation that records no error keeps the error record; so a command either leaves
the error record alone or leaves nothing else. -/

namespace Sys2Proof.Machine

open Sys2Proof.Safety

/-! ## Operations that leave the error record alone (60_exceptions.md R301, R303) -/

/-- `t` has the sticky bits, the last error and the pending error bit of `s`, and logs no error after `s`. -/
def KeepsErrors (s t : State) : Prop :=
  t.ifc.err = s.ifc.err ∧ t.ifc.lastCode = s.ifc.lastCode ∧ t.ifc.lastOpc = s.ifc.lastOpc
    ∧ t.ifc.irqPend.getLsbD 3 = s.ifc.irqPend.getLsbD 3
    ∧ ∃ new, t.history = new ++ s.history ∧ ∀ x ∈ new, ∀ c opc, x.2 ≠ .errlog c opc

/-- The interface and the history are all that `KeepsErrors` speaks of. -/
theorem KeepsErrors.of_eq {s t : State} (hi : t.ifc = s.ifc) (hh : t.history = s.history) : KeepsErrors s t :=
  ⟨by rw [hi], by rw [hi], by rw [hi], by rw [hi], [], hh, by simp⟩

theorem KeepsErrors.refl (s : State) : KeepsErrors s s := .of_eq rfl rfl

theorem KeepsErrors.trans {s t u : State} (hst : KeepsErrors s t) (htu : KeepsErrors t u) : KeepsErrors s u := by
  obtain ⟨e₁, c₁, o₁, p₁, n₁, h₁, k₁⟩ := hst
  obtain ⟨e₂, c₂, o₂, p₂, n₂, h₂, k₂⟩ := htu
  refine ⟨e₂.trans e₁, c₂.trans c₁, o₂.trans o₁, p₂.trans p₁, n₂ ++ n₁, by rw [h₂, h₁, List.append_assoc], ?_⟩
  intro x hx
  exact (List.mem_append.mp hx).elim (k₂ x) (k₁ x)

theorem keepsErrors_emit {e : Event} (s : State) (he : ∀ c opc, e ≠ .errlog c opc) : KeepsErrors s (emit e s) :=
  ⟨rfl, rfl, rfl, rfl, [(s.now, e)], rfl, by simpa using he⟩

/-- Pending an interrupt other than ERR. -/
theorem keepsErrors_pend {bit : BitVec 4} (s : State) (hb : bit.getLsbD 3 = false) : KeepsErrors s (pend bit s) :=
  ⟨rfl, rfl, rfl, by simp only [pend_ifc, BitVec.getLsbD_or, hb, Bool.or_false], [], rfl, by simp⟩

/-- A change of the Program that sets DIRTY (R305). -/
theorem keepsErrors_edit (p : Program) (s : State) : KeepsErrors s (pend irqDirty { s with prog := p }) :=
  .trans (.of_eq rfl rfl) (keepsErrors_pend _ rfl)

theorem keepsErrors_play (folder n : BitVec 8) (s : State) : KeepsErrors s (play folder n s) :=
  ⟨rfl, rfl, rfl, rfl, [(s.now, .play folder n)], rfl, by simp⟩

theorem keepsErrors_volumeRequest (level : BitVec 8) (s : State) : KeepsErrors s (volumeRequest level s) :=
  ⟨rfl, rfl, rfl, rfl, [(s.now, .volume level)], rfl, by simp⟩

theorem keepsErrors_startNote (x : Nat) (s : State) : KeepsErrors s (startNote x s) := .of_eq rfl rfl

theorem keepsErrors_stopVoice (s : State) : KeepsErrors s (stopVoice s) := by
  unfold stopVoice
  dsimp only
  split
  · exact ⟨rfl, rfl, rfl, rfl, [], rfl, by simp⟩
  · split
    · exact .of_eq rfl rfl
    · exact .trans (.of_eq rfl rfl) (keepsErrors_emit _ (by simp))

theorem keepsErrors_stopSeq (s : State) : KeepsErrors s (stopSeq s) := .of_eq (by simp) (by simp)

theorem keepsErrors_fireStep (s : State) : KeepsErrors s (fireStep s) := by
  refine ⟨by rw [fireStep_ifc], by rw [fireStep_ifc], by rw [fireStep_ifc], ?_, _, fireStep_history s, ?_⟩
  · have hb : irqStep.getLsbD 3 = false := rfl
    simp only [fireStep_ifc, BitVec.getLsbD_or, hb, Bool.or_false]
  · intro x hx
    rcases List.mem_append.mp hx with hx | hx <;> split at hx <;> simp_all

theorem keepsErrors_earlyAdvance (s : State) : KeepsErrors s (earlyAdvance s) :=
  .trans (.of_eq rfl rfl) (keepsErrors_fireStep _)

theorem keepsErrors_assignStep (k : BitVec 4) (s : State) : KeepsErrors s (assignStep k s) :=
  .trans (keepsErrors_edit _ s) (keepsErrors_play _ _ _)

theorem keepsErrors_liveKey (k : BitVec 4) (s : State) : KeepsErrors s (liveKey k s) := by
  unfold liveKey
  split
  · exact .refl s
  · split
    · exact .refl s
    · exact .of_eq rfl rfl

theorem keepsErrors_flipDual (s : State) : KeepsErrors s (flipDual s) := by
  unfold flipDual
  split
  · have hstop := KeepsErrors.trans (.of_eq rfl rfl)
      (keepsErrors_stopVoice { s with rt := { s.rt with dual := false } })
    dsimp only
    split
    · exact hstop
    · exact hstop.trans (.of_eq rfl rfl)
  · exact .of_eq rfl rfl

/-- The early advance that clearing makes while Running (R216, R217). -/
theorem keepsErrors_advanceIf {s t : State} (running : Bool) (h : KeepsErrors s t) :
    KeepsErrors s (if running then earlyAdvance t else t) := by
  cases running with
  | true => exact h.trans (keepsErrors_earlyAdvance t)
  | false => exact h

/-! ## Commands -/

/-- A guard that refuses the command with an error of its own opcode, around a rule that records none. -/
theorem refused_or_keepsErrors_guard {p : Prop} [Decidable p] {c : ErrCode} {i : Instr} {s t : State}
    (h : KeepsErrors s t) : Refused i s (if p then raise c i.opc.code s else t)
      ∨ KeepsErrors s (if p then raise c i.opc.code s else t) := by
  split
  · exact .inl ⟨c, rfl⟩
  · exact .inr h

/-- Once accepted, a command either records one error with its own opcode and does nothing else, or keeps the error
record (00_scope.md R12). -/
theorem rule_refused_or_keepsErrors (i : Instr) (s : State) : Refused i s (rule i s) ∨ KeepsErrors s (rule i s) := by
  cases i with
  | nop => exact .inr (.refl s)
  | noteOn freq =>
    right
    simp only [rule]
    split
    · exact .refl s
    · exact keepsErrors_startNote freq s
  | noteOff => exact .inr (keepsErrors_stopVoice s)
  | setWave wave => exact refused_or_keepsErrors_guard (keepsErrors_edit _ s)
  | setTarget code =>
    simp only [rule]
    split
    · exact .inl ⟨_, rfl⟩
    · exact .inr (keepsErrors_edit _ s)
    · exact .inr (keepsErrors_edit _ s)
  | modUpdate delta => exact .inr (keepsErrors_edit _ s)
  | setOctave shift => exact .inr (keepsErrors_edit _ s)
  | seqOpen => exact refused_or_keepsErrors_guard (.of_eq rfl rfl)
  | seqExit =>
    right
    have hdual : KeepsErrors s { stopSeq s with rt := { (stopSeq s).rt with dual := false } } :=
      (keepsErrors_stopSeq s).trans (.of_eq rfl rfl)
    exact (hdual.trans (keepsErrors_stopVoice _)).trans (.of_eq rfl rfl)
  | run =>
    simp only [rule, runSeq]
    split
    · exact .inl ⟨_, rfl⟩
    · exact refused_or_keepsErrors_guard (.trans (.of_eq rfl rfl) (keepsErrors_fireStep _))
  | stop => exact .inr (keepsErrors_stopSeq s)
  | toggleDual => exact refused_or_keepsErrors_guard (keepsErrors_flipDual s)
  | assign key => exact refused_or_keepsErrors_guard (keepsErrors_assignStep key s)
  | clearStep => exact .inr (keepsErrors_advanceIf _ (keepsErrors_edit _ s))
  | clearPattern => exact .inr (keepsErrors_advanceIf _ (keepsErrors_edit _ s))
  | cursorNext => exact refused_or_keepsErrors_guard (.of_eq rfl rfl)
  | cursorPrev => exact refused_or_keepsErrors_guard (.of_eq rfl rfl)
  | cursorSet step => exact refused_or_keepsErrors_guard (.of_eq rfl rfl)
  | setTempo bpm =>
    simp only [rule]
    split
    · exact .inr (keepsErrors_edit _ s)
    · exact .inl ⟨_, rfl⟩
  | setClock code =>
    simp only [rule]
    split
    · exact .inl ⟨_, rfl⟩
    · exact .inr (keepsErrors_edit _ s)
  | keyPress key =>
    right
    simp only [rule]
    split
    · exact keepsErrors_liveKey key s
    · exact keepsErrors_assignStep key s
  | keyRelease key =>
    right
    simp only [rule]
    split
    · exact keepsErrors_stopVoice s
    · exact .refl s
  | encoder steps =>
    right
    simp only [rule]
    split
    · exact keepsErrors_edit _ s
    · exact .refl s
  | setVolume level => exact refused_or_keepsErrors_guard (keepsErrors_volumeRequest _ s)

/-- The same of every command in every state: the acceptance checks record one error or run the rule. -/
theorem exec_refused_or_keepsErrors {i : Instr} {s t : State} (h : exec i s = .next t) :
    Refused i s t ∨ KeepsErrors s t := by
  rcases exec_next h with ⟨rfl, -⟩ | ⟨rfl, -⟩ | ⟨rfl, -⟩
  · exact .inl ⟨_, rfl⟩
  · exact .inl ⟨_, rfl⟩
  · exact rule_refused_or_keepsErrors i s

/-- Settles O8: an accepted command's rule records one error and nothing else, or keeps the error record. -/
theorem refusedCommandIsVoid : Obligations.RefusedCommandIsVoid :=
  fun _ _ _ h => exec_refused_or_keepsErrors h

end Sys2Proof.Machine
end

section
/-! PROOFS (encoding, 30_encoding.md). Decoding the encoding of a well-formed command answers that command. -/

namespace Sys2Proof

/-- The reserved bits of every encoded command are 0 (R101). -/
theorem reservedBits_encode (i : Instr) : reservedBits i.opc.format (encode i) = 0 := by
  have field : Laws.OperandField.Statement i := by
    cases i with
    | nop => exact Laws.OperandField.nop
    | noteOn freq => exact Laws.OperandField.noteOn freq
    | noteOff => exact Laws.OperandField.noteOff
    | setWave wave => exact Laws.OperandField.setWave wave
    | setTarget code => exact Laws.OperandField.setTarget code
    | modUpdate delta => exact Laws.OperandField.modUpdate delta
    | setOctave shift => exact Laws.OperandField.setOctave shift
    | seqOpen => exact Laws.OperandField.seqOpen
    | seqExit => exact Laws.OperandField.seqExit
    | run => exact Laws.OperandField.run
    | stop => exact Laws.OperandField.stop
    | toggleDual => exact Laws.OperandField.toggleDual
    | assign key => exact Laws.OperandField.assign key
    | clearStep => exact Laws.OperandField.clearStep
    | clearPattern => exact Laws.OperandField.clearPattern
    | cursorNext => exact Laws.OperandField.cursorNext
    | cursorPrev => exact Laws.OperandField.cursorPrev
    | cursorSet step => exact Laws.OperandField.cursorSet step
    | setTempo bpm => exact Laws.OperandField.setTempo bpm
    | setClock code => exact Laws.OperandField.setClock code
    | keyPress key => exact Laws.OperandField.keyPress key
    | keyRelease key => exact Laws.OperandField.keyRelease key
    | encoder steps => exact Laws.OperandField.encoder steps
    | setVolume level => exact Laws.OperandField.setVolume level
  exact field.2

/-- The field of an encoded command is the field its operand area was made of. -/
theorem field_encode {i : Instr} {n : Nat} {x : BitVec n} (hn : n ≤ 24) (hi : operandArea i = x.setWidth 24) :
    (encode i).extractLsb' 0 n = x := by
  rw [extract_encode i n hn, hi]
  apply BitVec.eq_of_toNat_eq
  rw [BitVec.extractLsb'_toNat, BitVec.toNat_setWidth, Nat.shiftRight_zero,
    Nat.mod_mod_of_dvd _ (Nat.pow_dvd_pow 2 hn), Nat.mod_eq_of_lt x.isLt]

/-- A natural operand that fits its field is read back. -/
theorem natField_encode {i : Instr} {n x : Nat} (hn : n ≤ 24) (hi : operandArea i = (BitVec.ofNat n x).setWidth 24)
    (hx : x < 2 ^ n) : ((encode i).extractLsb' 0 n).toNat = x := by
  rw [field_encode hn hi, BitVec.toNat_ofNat, Nat.mod_eq_of_lt hx]

/-- A signed operand that fits its field is read back (R102). -/
theorem intField_encode {i : Instr} {n : Nat} {x : Int} (hn : n ≤ 24)
    (hi : operandArea i = (BitVec.ofInt n x).setWidth 24) (h0 : 0 < n) (hlo : -2 ^ (n - 1) ≤ x)
    (hhi : x < 2 ^ (n - 1)) : ((encode i).extractLsb' 0 n).toInt = x := by
  rw [field_encode hn hi, BitVec.toInt_ofInt_eq_self h0 hlo hhi]

/-- The operand of an encoded command is the command's, if it fits its field (R101, R102). -/
theorem operandOf_encode {i : Instr} (h : WellFormed i = true) : operandOf i.opc (encode i) = i := by
  cases i with
  | nop | noteOff | seqOpen | seqExit | run | stop | toggleDual | clearStep | clearPattern | cursorNext
  | cursorPrev => rfl
  | noteOn freq =>
    exact congrArg Instr.noteOn (natField_encode (by decide) (BitVec.setWidth_eq _).symm (of_decide_eq_true h))
  | setWave wave =>
    exact congrArg Instr.setWave ((congrArg Wave.ofCode (field_encode (by decide) rfl)).trans (Wave.ofCode_code wave))
  | setTarget code => exact congrArg Instr.setTarget (field_encode (by decide) rfl)
  | modUpdate delta =>
    have hd : -32768 ≤ delta ∧ delta ≤ 32767 := of_decide_eq_true h
    exact congrArg Instr.modUpdate (intField_encode (by decide) rfl (by decide) (by omega) (by omega))
  | setOctave shift =>
    have hs : -128 ≤ shift ∧ shift ≤ 127 := of_decide_eq_true h
    exact congrArg Instr.setOctave (intField_encode (by decide) rfl (by decide) (by omega) (by omega))
  | assign key => exact congrArg Instr.assign (field_encode (by decide) rfl)
  | cursorSet step => exact congrArg Instr.cursorSet (field_encode (by decide) rfl)
  | setTempo bpm => exact congrArg Instr.setTempo (natField_encode (by decide) rfl (of_decide_eq_true h))
  | setClock code => exact congrArg Instr.setClock (field_encode (by decide) rfl)
  | keyPress key => exact congrArg Instr.keyPress (field_encode (by decide) rfl)
  | keyRelease key => exact congrArg Instr.keyRelease (field_encode (by decide) rfl)
  | encoder steps =>
    have hs : -32768 ≤ steps ∧ steps ≤ 32767 := of_decide_eq_true h
    exact congrArg Instr.encoder (intField_encode (by decide) rfl (by decide) (by omega) (by omega))
  | setVolume level => exact congrArg Instr.setVolume (natField_encode (by decide) rfl (of_decide_eq_true h))

/-- Decoding the encoding of a well-formed command answers that command (R100, R104). -/
theorem decode_encode {i : Instr} (h : WellFormed i = true) : decode (encode i) = .ok i :=
  decode_eq_ok.mpr ⟨i.opc, by rw [opcodeOf_encode, Opc.ofCode?_code], reservedBits_encode i, operandOf_encode h⟩

end Sys2Proof
end

section
/-! PROOFS (scope, 00_scope.md). What a cycle does: the command the host writes, the order of the access and the ticks,
and the events it adds to the history. -/

namespace Sys2Proof.Machine

open Sys2Proof.Safety

/-! ## A command word in a cycle (30_encoding.md R103) -/

/-- A write of a command's word is the command: `exec` makes the same checks with the same opcode (R103). -/
theorem issueCommand_of_decode {w : Word} {i : Instr} (s : State) (h : decode w = .ok i) :
    issueCommand w s = exec i s := by
  unfold issueCommand
  split
  · next hr => rw [exec_eq_accept, accept, if_pos hr, decode_opc h]
  · rw [h]

/-- A cycle whose access writes a command's word runs the command, then the ticks (00_scope.md R15). -/
theorem step_of_command {s : State} {w : Word} {i : Instr} {rest : List CycleInput}
    (hp : s.pending = commandInput w :: rest) (hd : decode w = .ok i) :
    ∃ t, exec i { s with pending := rest, readData := none } = .next t
      ∧ step s = .next (endCycle (grid s) (audioPhase (timebasePhase t))) := by
  have hin : nextInput s = commandInput w := by rw [nextInput, hp]; rfl
  have hbegin : beginCycle s = { s with pending := rest, readData := none } := by rw [beginCycle, hp]; rfl
  obtain ⟨t, ht, hstep⟩ := step_noRst (s := s) (by rw [hin]; rfl)
  refine ⟨t, ?_, hstep⟩
  rw [hin, hbegin] at ht
  exact (issueCommand_of_decode _ hd).symm.trans ht

/-- Settles O9: the step of a cycle that writes a command word. -/
theorem stepRunsDecodedCommand : Obligations.StepRunsDecodedCommand := by
  intro s w i rest hp hd
  obtain ⟨t, hexec, hstep⟩ := step_of_command hp hd
  rw [hexec, hstep]

/-- Settles O10: the encoding decodes to the command, and the cycle that writes it runs it. -/
theorem encodedCommandRuns : Obligations.EncodedCommandRuns := by
  intro i s hi
  have hword : BitVec.ofNat 32 ((encode i).toNat % 2 ^ 32) = encode i := by
    rw [Nat.mod_eq_of_lt (encode i).isLt, BitVec.ofNat_toNat, BitVec.setWidth_eq]
  have hp : (s.withFetchWord 32 (encode i).toNat).pending = commandInput (encode i) :: s.pending := by
    rw [State.withFetchWord, hword]
  exact step_of_command hp (decode_encode hi)

/-! ## The order of a cycle (00_scope.md R15) -/

/-- The ticks of a cycle, by the cycle number the cycle began with. -/
theorem ticks_eq {s t : State} (h : t.cycle = s.cycle) : audioPhase (timebasePhase t) =
    (let v := if s.cycle % 20 = 19 then timebaseTick t else t
     if s.cycle % 1000 = 999 then audioTick v else v) := by
  have hv : (timebasePhase t).cycle = s.cycle := by rw [timebasePhase_cycle, h]
  unfold audioPhase
  rw [hv]
  unfold timebasePhase
  rw [h]
  rfl

/-- Settles O11: the step of a cycle with RST low, its ticks by the cycle number, and the number's course. -/
theorem cycleOrder : Obligations.CycleOrder := by
  refine ⟨?_, rfl, ?_⟩
  · intro s t hrst hacc
    obtain ⟨u, hu, hstep⟩ := step_noRst hrst
    obtain rfl : u = t := Host.Outcome.next.inj (hu.symm.trans hacc)
    have hcycle : u.cycle = s.cycle := (hostAccess_own hacc).1
    exact ⟨_, hstep, by simp [hcycle], by rw [ticks_eq hcycle]⟩
  · intro s t hrst hstep
    rw [step_rst hrst] at hstep
    obtain rfl := Host.Outcome.next.inj hstep
    rfl

/-! ## The history (00_scope.md R13) -/

theorem grows_pulseEvent (s : State) : Grows s (pulseEvent s) := by
  have h := pulseEvent_history s
  split at h
  · exact .one h rfl
  · exact .of_eq h

theorem grows_clockAccumulate (s : State) : Grows s (clockAccumulate s) := by
  rw [clockAccumulate_eq]
  split
  · exact .of_eq rfl
  · split
    · exact (grows_fireStep _).congr_left rfl rfl
    · exact (grows_pulseEvent _).congr_left rfl rfl

theorem grows_timebaseTick (s : State) : Grows s (timebaseTick s) := by
  cases hv : s.rt.view with
  | false => rw [timebaseTick_closed hv]; exact .refl s
  | true =>
    rw [timebaseTick_open hv]
    refine Grows.congr_right ?_ (guardCountdown_history _)
    split
    · exact (grows_clockAccumulate _).congr_left (by simp) (by simp)
    · split
      · exact .of_eq (by simp)
      · exact .of_eq (by simp)

/-- The duty word of a tick is in range: 0 when it drains, at most 32767 when it generates (41_voice.md R174). -/
theorem grows_audioTick (s : State) : Grows s (audioTick s) := by
  unfold audioTick
  split
  · exact .one (drainTick_history s) (by simp [EventOk])
  · split
    · exact .one (generateTick_history s) (dutyOf_le _ _ _ _ _ _ s.prog.modval.isLt (rom_lt _ _))
    · exact .refl s

theorem grows_timebasePhase (s : State) : Grows s (timebasePhase s) := by
  unfold timebasePhase
  split
  · exact grows_timebaseTick s
  · exact .refl s

theorem grows_audioPhase (s : State) : Grows s (audioPhase s) := by
  unfold audioPhase
  split
  · exact grows_audioTick s
  · exact .refl s

/-- A cycle adds only events of its own: those of its operations and its display event. -/
def CycleGrows (s t : State) : Prop :=
  ∃ new, t.history = new ++ s.history ∧ ∀ x ∈ new, x.1 = s.now ∧ (EventOk x.2 ∨ ∃ g, x.2 = .disp g)

theorem Grows.cycleGrows_endCycle {s u : State} (before : BitVec 16) (h : Grows s u) (hn : u.now = s.now) :
    CycleGrows s (endCycle before u) := by
  obtain ⟨new, hnew, hok⟩ := h
  have hold : ∀ x ∈ new, x.1 = s.now ∧ (EventOk x.2 ∨ ∃ g, x.2 = .disp g) :=
    fun x hx => ⟨(hok x hx).1, .inl (hok x hx).2⟩
  rw [CycleGrows, endCycle_history]
  split
  · exact ⟨new, hnew, hold⟩
  · exact ⟨(u.now, .disp (grid u)) :: new, by rw [hnew, List.cons_append],
      List.forall_mem_cons.mpr ⟨⟨hn, .inr ⟨_, rfl⟩⟩, hold⟩⟩

/-- What every step does to the history and its stamp, RST or not. -/
theorem step_cycleGrows {s t : State} (h : step s = .next t) : CycleGrows s t ∧ t.now = s.now + 1 := by
  cases hrst : (nextInput s).rst with
  | true =>
    rw [step_rst hrst] at h
    obtain rfl := Host.Outcome.next.inj h
    exact ⟨⟨[], rfl, by simp⟩, rfl⟩
  | false =>
    obtain ⟨u, hu, hstep⟩ := step_noRst hrst
    obtain rfl := Host.Outcome.next.inj (hstep.symm.trans h)
    obtain ⟨-, hnow, -, hacc⟩ := hostAccess_own hu
    have hgrow : Grows s (audioPhase (timebasePhase u)) :=
      ((hacc.trans hnow (grows_timebasePhase u)).trans (by simp [hnow]) (grows_audioPhase _)).congr_left rfl rfl
    exact ⟨hgrow.cycleGrows_endCycle _ (by simpa using hnow), by simp [hnow]⟩

/-- A cycle's growth keeps the history's stamps below the present and its events in their ranges. -/
theorem CycleGrows.historyOk {s t : State} (h : CycleGrows s t) (hn : t.now = s.now + 1) (hs : HistoryOk s) :
    HistoryOk t := by
  obtain ⟨new, hnew, hok⟩ := h
  intro x hx
  rw [hnew, List.mem_append] at hx
  rcases hx with hx | hx
  · obtain ⟨hstamp, hev⟩ := hok x hx
    refine ⟨by omega, ?_⟩
    rcases hev with hev | ⟨g, hg⟩
    · cases he : x.2 <;> simp_all [EventOk]
    · rw [hg]; trivial
  · obtain ⟨hstamp, hev⟩ := hs x hx
    exact ⟨by omega, hev⟩

/-- Settles O18: every part of a cycle only adds events of the cycle, each in its range. -/
theorem stepExtendsHistory : Obligations.StepExtendsHistory := by
  intro s t h
  obtain ⟨hgrow, hnow⟩ := step_cycleGrows h
  refine ⟨?_, hnow, hgrow.historyOk hnow⟩
  obtain ⟨new, hnew, hok⟩ := hgrow
  exact ⟨new, hnew, fun x hx => (hok x hx).1⟩

end Sys2Proof.Machine
end

section
/-! PROOFS (state, 10_state.md). The decoder reads only commands whose operands fit their fields (30_encoding.md R102),
and the words of R101 as their commands. -/

namespace Sys2Proof

/-- An operand read from a field fits the field (R102). -/
theorem wellFormed_operandOf (o : Opc) (w : Word) : WellFormed (operandOf o w) = true := by
  have hnat (n : Nat) : (w.extractLsb' 0 n).toNat < 2 ^ n := BitVec.isLt _
  have hint16 : -32768 ≤ (w.extractLsb' 0 16).toInt ∧ (w.extractLsb' 0 16).toInt ≤ 32767 :=
    ⟨BitVec.le_toInt _, Int.le_of_lt_add_one BitVec.toInt_lt⟩
  have hint8 : -128 ≤ (w.extractLsb' 0 8).toInt ∧ (w.extractLsb' 0 8).toInt ≤ 127 :=
    ⟨BitVec.le_toInt _, Int.le_of_lt_add_one BitVec.toInt_lt⟩
  cases o with
  | noteOn => exact decide_eq_true (hnat 24)
  | setTempo | setVolume => exact decide_eq_true (hnat 8)
  | modUpdate | encoder => exact decide_eq_true hint16
  | setOctave => exact decide_eq_true hint8
  | nop | noteOff | setWave | setTarget | seqOpen | seqExit | run | stop | toggleDual | assign | clearStep
  | clearPattern | cursorNext | cursorPrev | cursorSet | setClock | keyPress | keyRelease => rfl

theorem wellFormed_of_decode {w : Word} {i : Instr} (h : decode w = .ok i) : WellFormed i = true := by
  obtain ⟨o, -, -, rfl⟩ := decode_eq_ok.mp h
  exact wellFormed_operandOf o w

/-- Settles O5: the decoder evaluated on each word. -/
theorem decodeSampleWords : Obligations.DecodeSampleWords := by
  unfold Obligations.DecodeSampleWords
  decide

end Sys2Proof
end

section
/-! PROOFS (state, 10_state.md). The reset state has the invariants of R59, and every command, every host access and
every cycle keeps them. -/

namespace Sys2Proof.Machine

open Sys2Proof.Safety

/-! ## The reset state (10_state.md R62) -/

theorem inv_reset : Inv State.reset := by
  constructor <;> decide

/-- Settles O15: every clause is a fact about the reset values, and no event has been emitted. -/
theorem invariantAtReset : Obligations.InvariantAtReset :=
  ⟨inv_reset, List.forall_mem_nil _⟩

/-! ## Changes of the Program -/

/-- An edit that leaves the tempo, the octave and the steps, with DIRTY set (60_exceptions.md R305). -/
theorem inv_edit {s : State} (h : Inv s) {p : Program} (htempo : p.tempo = s.prog.tempo)
    (hoctave : p.octave = s.prog.octave) (hseq : p.seq = s.prog.seq) : Inv (pend irqDirty { s with prog := p }) := by
  have hslot (i) : p.slot i = s.prog.slot i := by simp only [Program.slot, hseq]
  apply inv_pend
  exact { h with
    tempoLegal := htempo ▸ h.tempoLegal
    octaveLegal := hoctave ▸ h.octaveLegal
    emptySlots := fun i => hslot i ▸ h.emptySlots i }

/-- The clamp of R158 leaves a legal octave. -/
theorem octaveOf_legal (shift : Int) : -3 ≤ (octaveOf shift).toInt ∧ (octaveOf shift).toInt ≤ 3 := by
  have hclamp : -3 ≤ clamp shift Config.octMin Config.octMax ∧ clamp shift Config.octMin Config.octMax ≤ 3 := by
    simp only [clamp, Config.octMin, Config.octMax]
    omega
  rw [octaveOf, BitVec.toInt_ofInt_eq_self (by decide) (by omega) (by omega)]
  exact hclamp

theorem inv_setOctave {s : State} (h : Inv s) (shift : Int) :
    Inv (pend irqDirty { s with prog := { s.prog with octave := octaveOf shift } }) := by
  apply inv_pend
  exact { h with octaveLegal := octaveOf_legal shift }

theorem inv_setTempo {s : State} (h : Inv s) {bpm : Nat} (hbpm : tempoLegal bpm = true) :
    Inv (pend irqDirty { s with prog := { s.prog with tempo := BitVec.ofNat 8 bpm } }) := by
  have hlegal := (tempoLegal_iff bpm).mp hbpm
  have hnat : (BitVec.ofNat 8 bpm).toNat = bpm := by rw [BitVec.toNat_ofNat]; omega
  apply inv_pend
  exact { h with tempoLegal := hnat.symm ▸ hlegal }

theorem inv_clearSlots {s : State} (h : Inv s) : Inv (clearSlots s) :=
  { h with emptySlots := fun i _ => by rw [clearSlots_slot]; rfl }

/-! ## The held key, DualMode and the view (10_state.md R33, R59) -/

/-- No key held. -/
theorem inv_releaseKey {s : State} (h : Inv s) :
    Inv { s with rt := { s.rt with heldValid := false, heldKey := 0 } } :=
  { h with heldDual := nofun, heldKeyClear := fun _ => rfl }

/-- Out of DualMode no key is held. -/
theorem inv_leaveDual {s : State} (h : Inv s) :
    Inv { s with rt := { s.rt with dual := false, heldValid := false, heldKey := 0 } } :=
  { inv_releaseKey h with
    runningNotDual := nofun
    heldDual := nofun
    closedQuiet := fun hv => ⟨(h.closedQuiet hv).1, (h.closedQuiet hv).2.1, rfl⟩ }

/-- Leaving DualMode as the rules do it: the flag falls and the voice stops (R211, R214). -/
theorem inv_stopVoice_leaveDual {s : State} (h : Inv s) :
    Inv (stopVoice { s with rt := { s.rt with dual := false } }) :=
  inv_stopVoice (inv_leaveDual (s := s) h)

theorem inv_enterDual {s : State} (h : Inv s) (hv : s.rt.view = true) (hr : s.rt.running = false) :
    Inv { s with rt := { s.rt with dual := true } } :=
  { h with
    runningNotDual := fun hd => by simp [hr] at hd
    heldDual := fun hk => ⟨rfl, (h.heldDual hk).2⟩
    closedQuiet := fun hc => by simp [hv] at hc }

/-- R211: the view may close on a quiet block. -/
theorem inv_closeView {s : State} (h : Inv s) (ha : s.voice.active = false) (hr : s.rt.running = false)
    (hd : s.rt.dual = false) : Inv { s with rt := { s.rt with view := false } } :=
  { h with
    runningView := fun hrun => by simp [hr] at hrun
    closedQuiet := fun _ => ⟨ha, hr, hd⟩ }

/-- R210: the runtime and the voice start over; `CMD_READY` is 1 (log 15). -/
theorem inv_openView {s : State} (h : Inv s) (hc : s.ifc.cmdReady = true) :
    Inv { s with rt := { Runtime.reset with view := true }, voice := Voice.reset } :=
  { inv_reset with
    draining := by simp [Voice.reset, hc]
    runningView := nofun
    closedQuiet := nofun
    tempoLegal := h.tempoLegal, octaveLegal := h.octaveLegal, emptySlots := h.emptySlots
    errClear := h.errClear, errCode := h.errCode, volumeFolder := h.volumeFolder, volumeRange := h.volumeRange }

/-- R212: an open view outside DualMode may run. -/
theorem inv_setRunning {s : State} (h : Inv s) (hv : s.rt.view = true) (hd : s.rt.dual = false) :
    Inv { s with rt := { s.rt with running := true } } :=
  { h with
    runningView := fun _ => hv
    runningNotDual := fun hrun => by simp [hd] at hrun
    closedQuiet := fun hc => by simp [hv] at hc
    stoppedClear := nofun }

@[simp] theorem stopVoice_active (s : State) : (stopVoice s).voice.active = false := by
  rw [stopVoice_voice]
  split
  · rfl
  · split <;> simp_all

@[simp] theorem stopSeq_running (s : State) : (stopSeq s).rt.running = false := by
  rw [stopSeq_rt]
  split
  · rfl
  · simp_all

/-! ## The commands' rules -/

/-- R211: the run and the voice are stopped and DualMode left before the view closes. -/
theorem inv_seqExit {s : State} (h : Inv s) : Inv (rule .seqExit s) :=
  inv_closeView (inv_stopVoice_leaveDual (inv_stopSeq h)) (stopVoice_active _) (by simp) (by simp)

/-- R212. -/
theorem inv_runSeq {s : State} (h : Inv s) (hv : s.rt.view = true) : Inv (runSeq false s) := by
  unfold runSeq
  split
  · exact inv_raise h _ _
  · split
    · exact inv_raise h _ _
    · next hnot =>
      have hd : s.rt.dual = false := by simpa using hnot
      exact inv_fire (inv_clockRestart (inv_cur (inv_setRunning h hv hd) 0)) rfl

/-- R214: only a stopped sequencer changes its mode. -/
theorem inv_toggleDual {s : State} (h : Inv s) (hv : s.rt.view = true) : Inv (toggleDual false s) := by
  unfold toggleDual
  split
  · exact inv_raise h _ _
  · next hr =>
    unfold flipDual
    split
    · have hstop := inv_stopVoice_leaveDual h
      dsimp only
      split
      · exact hstop
      · exact inv_blink hstop
    · exact inv_enterDual h hv (by simpa using hr)

theorem inv_moveCursor {s : State} (h : Inv s) (o : Opc) (dest : BitVec 4) : Inv (moveCursor o dest s) := by
  unfold moveCursor
  split
  · exact inv_raise h _ _
  · exact inv_cur h dest

/-- The early advance that clearing makes while Running (R216, R217). -/
theorem inv_advanceIf {s t : State} (h : Inv t) (hr : t.rt.running = s.rt.running) :
    Inv (if s.rt.running then earlyAdvance t else t) := by
  split
  · next hrun => exact inv_early h (hr.trans hrun)
  · exact h

/-- R261: a live note starts in DualMode, on a silent voice, and its key is then held. -/
theorem inv_liveKey {s : State} (h : Inv s) (hc : s.ifc.cmdReady = true) (hv : s.rt.view = true)
    (hd : s.rt.dual = true) (k : BitVec 4) : Inv (liveKey k s) := by
  unfold liveKey
  split
  · exact h
  · split
    · exact h
    · have hstart := inv_start h hc hv _ (s.prog.keyFreq k).isLt
      exact { hstart with heldDual := fun _ => ⟨hd, rfl⟩, heldKeyClear := nofun }

/-- R281: the level requested is at most `VOLUME_MAX`. -/
theorem inv_volumeRequest {s : State} (h : Inv s) {level : BitVec 8} (hl : level.toNat ≤ 30) :
    Inv (volumeRequest level s) :=
  { h with volumeFolder := fun _ => rfl, volumeRange := fun _ => hl }

/-- An accepted command's rule keeps the invariant. -/
theorem inv_rule {i : Instr} {s : State} (hi : WellFormed i = true) (h : Inv s) (hc : s.ifc.cmdReady = true)
    (hv : needsView i.opc = true → s.rt.view = true) : Inv (rule i s) := by
  cases i with
  | nop => exact h
  | noteOn freq =>
    simp only [rule]
    split
    · exact h
    · exact inv_start h hc (hv rfl) freq (of_decide_eq_true hi)
  | noteOff => exact inv_stopVoice (inv_releaseKey h)
  | setWave wave =>
    simp only [rule]
    split
    · exact inv_raise h _ _
    · exact inv_edit h rfl rfl rfl
  | setTarget code =>
    simp only [rule]
    split
    · exact inv_raise h _ _
    · exact inv_edit h rfl rfl rfl
    · exact inv_edit h rfl rfl rfl
  | modUpdate delta => exact inv_updateModval h delta
  | setOctave shift => exact inv_setOctave h shift
  | seqOpen =>
    simp only [rule]
    split
    · exact inv_raise h _ _
    · exact inv_openView h hc
  | seqExit => exact inv_seqExit h
  | run => exact inv_runSeq h (hv rfl)
  | stop => exact inv_stopSeq h
  | toggleDual => exact inv_toggleDual h (hv rfl)
  | assign key =>
    simp only [rule]
    split
    · exact inv_raise h _ _
    · exact inv_assign h key
  | clearStep => exact inv_advanceIf (inv_pend (inv_writeSlot h _ _ fun _ => rfl) _) rfl
  | clearPattern => exact inv_advanceIf (inv_pend (inv_clearSlots h) _) rfl
  | cursorNext | cursorPrev | cursorSet step => exact inv_moveCursor h _ _
  | setTempo bpm =>
    simp only [rule]
    split
    · next hbpm => exact inv_setTempo h hbpm
    · exact inv_raise h _ _
  | setClock code =>
    simp only [rule]
    split
    · exact inv_raise h _ _
    · exact inv_edit h rfl rfl rfl
  | keyPress key =>
    simp only [rule]
    split
    · next hd => exact inv_liveKey h hc (hv rfl) hd key
    · exact inv_assign h key
  | keyRelease key =>
    simp only [rule]
    split
    · exact inv_stopVoice (inv_releaseKey h)
    · exact h
  | encoder steps =>
    simp only [rule]
    split
    · exact inv_updateModval h steps
    · exact h
  | setVolume level =>
    simp only [rule, Config.volumeMax]
    split
    · exact inv_raise h _ _
    · exact inv_volumeRequest h (by rw [BitVec.toNat_ofNat]; omega)

theorem inv_exec {i : Instr} {s t : State} (hi : WellFormed i = true) (h : Inv s) (he : exec i s = .next t) :
    Inv t := by
  rcases exec_next he with ⟨rfl, -⟩ | ⟨rfl, -⟩ | ⟨rfl, hc, hv⟩
  · exact inv_raise h _ _
  · exact inv_raise h _ _
  · exact inv_rule hi h hc hv

/-- Settles O17: a refused command records an error, an accepted one runs its rule, and both keep the invariant. -/
theorem execKeepsInvariant : Obligations.ExecKeepsInvariant :=
  fun _ _ _ hi h he => inv_exec hi h he

/-! ## Host accesses and cycles -/

theorem inv_hostRead {s : State} (h : Inv s) (a : BitVec 8) (z : AccessSize) : Inv (hostRead a z s) := by
  unfold hostRead
  split
  · exact inv_congr h rfl rfl rfl rfl
  · exact inv_congr (inv_raise h .bus regOpc) rfl rfl rfl rfl

theorem inv_issueCommand {w : Word} {s t : State} (h : Inv s) (hw : issueCommand w s = .next t) : Inv t := by
  cases hd : decode w with
  | ok i => exact inv_exec (wellFormed_of_decode hd) h (issueCommand_of_decode s hd ▸ hw)
  | error e =>
    simp only [issueCommand, hd] at hw
    split at hw <;> obtain rfl := Host.Outcome.next.inj hw <;> exact inv_raise h _ _

theorem inv_hostWrite {a : BitVec 8} {z : AccessSize} {v : Word} {s t : State} (h : Inv s)
    (hw : hostWrite a z v s = .next t) : Inv t := by
  unfold hostWrite at hw
  split at hw
  · obtain rfl := Host.Outcome.next.inj hw
    exact inv_raise h _ _
  · exact inv_issueCommand h hw
  · obtain rfl := Host.Outcome.next.inj hw
    exact inv_writeReg h _ _

theorem inv_hostAccess {a : Option Access} {s t : State} (h : Inv s) (ha : hostAccess a s = .next t) : Inv t := by
  match a with
  | none => obtain rfl := Host.Outcome.next.inj ha; exact h
  | some (.read off z) => obtain rfl := Host.Outcome.next.inj ha; exact inv_hostRead h off z
  | some (.write off z v) => exact inv_hostWrite h ha

theorem inv_timebasePhase {s : State} (h : Inv s) : Inv (timebasePhase s) := by
  unfold timebasePhase
  split
  · exact inv_timebase h
  · exact h

theorem inv_audioPhase {s : State} (h : Inv s) : Inv (audioPhase s) := by
  unfold audioPhase
  split
  · exact inv_audio h
  · exact h

theorem inv_endCycle {s : State} (h : Inv s) (before : BitVec 16) : Inv (endCycle before s) :=
  inv_congr h (by simp) (by simp) (by simp) (by simp)

/-- Settles O16: a cycle with RST high leaves the reset values; one with RST low is an access and two ticks, each of
which keeps the invariant. -/
theorem stepKeepsInvariant : Obligations.StepKeepsInvariant := by
  intro s t h hstep
  cases hrst : (nextInput s).rst with
  | true =>
    rw [step_rst hrst] at hstep
    obtain rfl := Host.Outcome.next.inj hstep
    exact inv_congr inv_reset rfl rfl rfl rfl
  | false =>
    obtain ⟨u, hu, heq⟩ := step_noRst hrst
    obtain rfl := Host.Outcome.next.inj (heq.symm.trans hstep)
    have hbegin : Inv (beginCycle s) := inv_congr h rfl rfl rfl rfl
    exact inv_endCycle (inv_audioPhase (inv_timebasePhase (inv_hostAccess hbegin hu))) _

end Sys2Proof.Machine
end

section
/-! PROOFS (state, 10_state.md). Which elements of the state a command of each row may change: every shared operation
stays within the frame of the commands that use it, and a command is a chain of such operations. -/

namespace Sys2Proof.Machine

open Sys2Proof.Safety

/-- What a command of row `o` that is not refused may change of `P`, `S`, `V`, `I` and the history, the error record
aside. -/
structure Frame (o : Opc) (s t : State) : Prop where
  folder : t.prog.folder = s.prog.folder
  keyfreq : t.prog.keyfreq = s.prog.keyfreq
  irqEn : t.ifc.irqEn = s.ifc.irqEn
  wave : o ≠ .setWave → t.prog.wave = s.prog.wave
  tempo : o ≠ .setTempo → t.prog.tempo = s.prog.tempo
  clock : o ≠ .setClock → t.prog.clock = s.prog.clock
  target : o ≠ .setTarget → t.prog.target = s.prog.target
  octave : o ≠ .setOctave → t.prog.octave = s.prog.octave
  modval : o ∉ [Opc.setTarget, .modUpdate, .encoder] → t.prog.modval = s.prog.modval
  seq : o ∉ [Opc.assign, .clearStep, .clearPattern, .keyPress] → t.prog.seq = s.prog.seq
  view : o ∉ [Opc.seqOpen, .seqExit] → t.rt.view = s.rt.view
  running : o ∉ [Opc.seqOpen, .seqExit, .run, .stop] → t.rt.running = s.rt.running
  dual : o ∉ [Opc.seqOpen, .seqExit, .toggleDual] → t.rt.dual = s.rt.dual
  cur : o ∉ [Opc.seqOpen, .run, .clearStep, .clearPattern, .cursorNext, .cursorPrev, .cursorSet] →
    t.rt.cur = s.rt.cur
  held : o ∉ [Opc.seqOpen, .seqExit, .noteOff, .toggleDual, .keyPress, .keyRelease] →
    t.rt.heldValid = s.rt.heldValid ∧ t.rt.heldKey = s.rt.heldKey
  voice : o ∉ [Opc.seqOpen, .seqExit, .noteOn, .noteOff, .toggleDual, .keyPress, .keyRelease] → t.voice = s.voice
  registers : o ∉ [Opc.seqOpen, .noteOn, .keyPress] → t.voice.freq = s.voice.freq ∧ t.voice.acc = s.voice.acc
    ∧ t.voice.inc = s.voice.inc ∧ t.voice.elapsed = s.voice.elapsed ∧ t.voice.busy = s.voice.busy
  cmdReady : o ∉ [Opc.seqExit, .noteOff, .toggleDual, .keyRelease] → t.ifc.cmdReady = s.ifc.cmdReady
  blink : o ∉ [Opc.seqOpen, .seqExit, .stop, .toggleDual] →
    t.rt.blinkOn = s.rt.blinkOn ∧ t.rt.blinkCnt = s.rt.blinkCnt
  clockState : o ∉ [Opc.seqOpen, .seqExit, .run, .stop, .clearStep, .clearPattern] →
    t.rt.clkAcc = s.rt.clkAcc ∧ t.rt.pulse = s.rt.pulse
    ∧ t.rt.syncLevel = s.rt.syncLevel ∧ t.rt.syncCnt = s.rt.syncCnt
  guard : o ∉ [Opc.seqOpen, .seqExit, .stop] → t.rt.guard = s.rt.guard
  playLast : o ∉ [Opc.run, .assign, .clearStep, .keyPress, .setVolume] → t.ifc.playLast = s.ifc.playLast
  playCount : o ∉ [Opc.run, .assign, .clearStep, .keyPress] → t.ifc.playCount = s.ifc.playCount
  counts : o ∉ [Opc.run, .clearStep, .clearPattern] →
    t.ifc.midiCount = s.ifc.midiCount ∧ t.ifc.syncCount = s.ifc.syncCount
  irqPend : o ∈ [Opc.nop, .noteOn, .noteOff, .seqOpen, .seqExit, .stop, .toggleDual, .cursorNext, .cursorPrev,
    .cursorSet, .keyRelease, .setVolume] → t.ifc.irqPend = s.ifc.irqPend
  history : o ∉ [Opc.noteOff, .seqExit, .toggleDual, .keyRelease, .run, .assign, .clearStep, .clearPattern, .keyPress,
    .setVolume] → t.history = s.history

theorem Frame.refl (o : Opc) (s : State) : Frame o s s := by
  constructor <;> simp

/-- Frames chain: an element that two operations leave is left by both in turn. -/
theorem Frame.trans {o : Opc} {s t u : State} (h : Frame o s t) (h' : Frame o t u) : Frame o s u where
  folder := h'.folder.trans h.folder
  keyfreq := h'.keyfreq.trans h.keyfreq
  irqEn := h'.irqEn.trans h.irqEn
  wave ho := (h'.wave ho).trans (h.wave ho)
  tempo ho := (h'.tempo ho).trans (h.tempo ho)
  clock ho := (h'.clock ho).trans (h.clock ho)
  target ho := (h'.target ho).trans (h.target ho)
  octave ho := (h'.octave ho).trans (h.octave ho)
  modval ho := (h'.modval ho).trans (h.modval ho)
  seq ho := (h'.seq ho).trans (h.seq ho)
  view ho := (h'.view ho).trans (h.view ho)
  running ho := (h'.running ho).trans (h.running ho)
  dual ho := (h'.dual ho).trans (h.dual ho)
  cur ho := (h'.cur ho).trans (h.cur ho)
  held ho := by simp only [h'.held ho, h.held ho, and_self]
  voice ho := (h'.voice ho).trans (h.voice ho)
  registers ho := by simp only [h'.registers ho, h.registers ho, and_self]
  cmdReady ho := (h'.cmdReady ho).trans (h.cmdReady ho)
  blink ho := by simp only [h'.blink ho, h.blink ho, and_self]
  clockState ho := by simp only [h'.clockState ho, h.clockState ho, and_self]
  guard ho := (h'.guard ho).trans (h.guard ho)
  playLast ho := (h'.playLast ho).trans (h.playLast ho)
  playCount ho := (h'.playCount ho).trans (h.playCount ho)
  counts ho := by simp only [h'.counts ho, h.counts ho, and_self]
  irqPend ho := (h'.irqPend ho).trans (h.irqPend ho)
  history ho := (h'.history ho).trans (h.history ho)

/-! ## What the shared operations with cases may change -/

/-- R152: of the voice, the `ACTIVE` flag and the duty. -/
theorem stopVoice_voice_exists (s : State) : ∃ a d, (stopVoice s).voice = { s.voice with active := a, duty := d } := by
  rw [stopVoice_voice]
  split
  · exact ⟨_, _, rfl⟩
  · split <;> exact ⟨_, _, rfl⟩

/-- R152: of the interface, `CMD_READY`. -/
theorem stopVoice_ifc_exists (s : State) : ∃ r, (stopVoice s).ifc = { s.ifc with cmdReady := r } := by
  rw [stopVoice_ifc]
  split <;> exact ⟨_, rfl⟩

/-- R204: of the runtime, the run, the blink, the clock, the sync pulse and the guard. -/
theorem stopSeq_rt_exists (s : State) : ∃ r on n l c a p g, (stopSeq s).rt =
    { s.rt with
      running := r, blinkOn := on, blinkCnt := n, syncLevel := l, syncCnt := c, clkAcc := a, pulse := p,
      guard := g } := by
  rw [stopSeq_rt]
  split <;> exact ⟨_, _, _, _, _, _, _, _, rfl⟩

/-- R201: of the runtime, the sync pulse. -/
theorem syncStart_rt_exists (s : State) : ∃ l c, (syncStart s).rt = { s.rt with syncLevel := l, syncCnt := c } := by
  rw [syncStart_rt]
  split <;> exact ⟨_, _, rfl⟩

theorem frame_stopVoice {o : Opc} (ho : o ∈ [Opc.noteOff, .seqExit, .toggleDual, .keyRelease]) (s : State) :
    Frame o s (stopVoice s) := by
  obtain ⟨a, d, hv⟩ := stopVoice_voice_exists s
  obtain ⟨r, hi⟩ := stopVoice_ifc_exists s
  simp only [List.mem_cons, List.not_mem_nil, or_false] at ho
  obtain rfl | rfl | rfl | rfl := ho <;> constructor <;> simp [hv, hi]

theorem frame_stopSeq {o : Opc} (ho : o ∈ [Opc.seqExit, .stop]) (s : State) : Frame o s (stopSeq s) := by
  obtain ⟨r, on, n, l, c, a, p, g, hrt⟩ := stopSeq_rt_exists s
  simp only [List.mem_cons, List.not_mem_nil, or_false] at ho
  obtain rfl | rfl := ho <;> constructor <;> simp [hrt]

/-- A step event makes no play request where the current step is empty, as after `CLEAR_PATTERN` (R201, R217). -/
theorem frame_fireStep {o : Opc} (ho : o ∈ [Opc.run, .clearStep, .clearPattern]) {s : State}
    (hempty : o = .clearPattern → (s.prog.slot s.rt.cur).valid = false) : Frame o s (fireStep s) := by
  obtain ⟨l, c, hrt⟩ := syncStart_rt_exists s
  have hi := fireStep_ifc s
  simp only [List.mem_cons, List.not_mem_nil, or_false] at ho
  obtain rfl | rfl | rfl := ho
  · constructor <;> simp [hrt, hi]
  · constructor <;> simp [hrt, hi]
  · rw [hempty rfl] at hi
    constructor <;> simp [hrt, hi]

theorem frame_earlyAdvance {o : Opc} (ho : o ∈ [Opc.clearStep, .clearPattern]) {s : State}
    (hempty : o = .clearPattern → ∀ i, (s.prog.slot i).valid = false) : Frame o s (earlyAdvance s) := by
  have hfire : Frame o (clockRestart (setCur (s.rt.cur + 1) s)) (earlyAdvance s) :=
    frame_fireStep (List.mem_cons_of_mem _ ho) fun h => hempty h _
  refine Frame.trans ?_ hfire
  simp only [List.mem_cons, List.not_mem_nil, or_false] at ho
  obtain rfl | rfl := ho <;> constructor <;> simp

theorem frame_startNote {o : Opc} (ho : o ∈ [Opc.noteOn, .keyPress]) (x : Nat) (s : State) :
    Frame o s (startNote x s) := by
  simp only [List.mem_cons, List.not_mem_nil, or_false] at ho
  obtain rfl | rfl := ho <;> constructor <;> simp

theorem frame_assignStep {o : Opc} (ho : o ∈ [Opc.assign, .keyPress]) (k : BitVec 4) (s : State) :
    Frame o s (assignStep k s) := by
  simp only [List.mem_cons, List.not_mem_nil, or_false] at ho
  obtain rfl | rfl := ho <;> constructor <;> simp

theorem frame_updateModval {o : Opc} (ho : o ∈ [Opc.modUpdate, .encoder]) (x : Int) (s : State) :
    Frame o s (updateModval x s) := by
  simp only [List.mem_cons, List.not_mem_nil, or_false] at ho
  obtain rfl | rfl := ho <;> constructor <;> simp

theorem frame_setCur {o : Opc} (ho : o ∈ [Opc.cursorNext, .cursorPrev, .cursorSet]) (dest : BitVec 4)
    (s : State) : Frame o s (setCur dest s) := by
  simp only [List.mem_cons, List.not_mem_nil, or_false] at ho
  obtain rfl | rfl | rfl := ho <;> constructor <;> simp

/-! ## Commands -/

/-- The early advance that clearing makes while Running (R216, R217). -/
theorem Frame.advanceIf {o : Opc} {s t : State} (ho : o ∈ [Opc.clearStep, .clearPattern])
    (h : Frame o s t) (hempty : o = .clearPattern → ∀ i, (t.prog.slot i).valid = false) (running : Bool) :
    Frame o s (if running then earlyAdvance t else t) := by
  cases running with
  | true => exact h.trans (frame_earlyAdvance ho hempty)
  | false => exact h

/-- R211: the run stops, DualMode ends, the voice stops and the view closes. -/
theorem frame_seqExit (s : State) : Frame .seqExit s (rule .seqExit s) := by
  have hstop := frame_stopSeq (o := .seqExit) (by decide) s
  have hdual : Frame .seqExit (stopSeq s) { stopSeq s with rt := { (stopSeq s).rt with dual := false } } := by
    constructor <;> simp
  have hvoice (u : State) := frame_stopVoice (o := .seqExit) (by decide) u
  have hview (u : State) : Frame .seqExit u { u with rt := { u.rt with view := false } } := by
    constructor <;> simp
  exact ((hstop.trans hdual).trans (hvoice _)).trans (hview _)

/-- R214. -/
theorem frame_flipDual (s : State) : Frame .toggleDual s (flipDual s) := by
  have hdual (b : Bool) : Frame .toggleDual s { s with rt := { s.rt with dual := b } } := by
    constructor <;> simp
  have hblink (u : State) : Frame .toggleDual u (blinkReset u) := by
    constructor <;> simp
  unfold flipDual
  split
  · have hstop := (hdual false).trans (frame_stopVoice (by decide) _)
    dsimp only
    split
    · exact hstop
    · exact hstop.trans (hblink _)
  · exact hdual true

/-- R261. -/
theorem frame_liveKey (k : BitVec 4) (s : State) : Frame .keyPress s (liveKey k s) := by
  have hheld (u : State) : Frame .keyPress u { u with rt := { u.rt with heldValid := true, heldKey := k } } := by
    constructor <;> simp
  unfold liveKey
  split
  · exact .refl _ s
  · split
    · exact .refl _ s
    · exact (frame_startNote (by decide) _ s).trans (hheld _)

/-- A guard that refuses the command with an error of its own opcode, around a rule within its frame. -/
theorem refused_or_frame_guard {p : Prop} [Decidable p] {c : ErrCode} {i : Instr} {s t : State}
    (h : Frame i.opc s t) : Refused i s (if p then raise c i.opc.code s else t)
      ∨ Frame i.opc s (if p then raise c i.opc.code s else t) := by
  split
  · exact .inl ⟨c, rfl⟩
  · exact .inr h

/-- An accepted command is refused by its rule or stays within its row's frame. -/
theorem rule_refused_or_frame (i : Instr) (s : State) : Refused i s (rule i s) ∨ Frame i.opc s (rule i s) := by
  cases i with
  | nop => exact .inr (.refl _ s)
  | noteOn freq =>
    right
    simp only [rule]
    split
    · exact .refl _ s
    · exact frame_startNote (o := .noteOn) (by decide) freq s
  | noteOff => exact .inr (frame_stopVoice (o := .noteOff) (by decide) s)
  | setWave wave => exact refused_or_frame_guard (by constructor <;> simp [Instr.opc])
  | setTarget code =>
    simp only [rule]
    split
    · exact .inl ⟨_, rfl⟩
    · exact .inr (by constructor <;> simp [Instr.opc])
    · exact .inr (by constructor <;> simp [Instr.opc])
  | modUpdate delta => exact .inr (frame_updateModval (o := .modUpdate) (by decide) delta s)
  | setOctave shift => exact .inr (by constructor <;> simp [rule, Instr.opc])
  | seqOpen => exact refused_or_frame_guard (by constructor <;> simp [Instr.opc])
  | seqExit => exact .inr (frame_seqExit s)
  | run =>
    simp only [rule, runSeq]
    split
    · exact .inl ⟨_, rfl⟩
    · apply refused_or_frame_guard
      refine Frame.trans ?_ (frame_fireStep (o := .run) (by decide) nofun)
      constructor <;> simp [Instr.opc]
  | stop => exact .inr (frame_stopSeq (o := .stop) (by decide) s)
  | toggleDual => exact refused_or_frame_guard (frame_flipDual s)
  | assign key => exact refused_or_frame_guard (frame_assignStep (o := .assign) (by decide) key s)
  | clearStep =>
    have hclear : Frame .clearStep s (pend irqDirty (writeSlot s.rt.cur Slot.empty s)) := by
      constructor <;> simp [Program.setSlot]
    exact .inr (hclear.advanceIf (by decide) nofun s.rt.running)
  | clearPattern =>
    have hclear : Frame .clearPattern s (pend irqDirty (clearSlots s)) := by
      constructor <;> simp
    have hempty (i) : ((clearSlots s).prog.slot i).valid = false := by rw [clearSlots_slot]; rfl
    exact .inr (hclear.advanceIf (by decide) (fun _ => hempty) s.rt.running)
  | cursorNext => exact refused_or_frame_guard (frame_setCur (o := .cursorNext) (by decide) _ s)
  | cursorPrev => exact refused_or_frame_guard (frame_setCur (o := .cursorPrev) (by decide) _ s)
  | cursorSet step => exact refused_or_frame_guard (frame_setCur (o := .cursorSet) (by decide) step s)
  | setTempo bpm =>
    simp only [rule]
    split
    · exact .inr (by constructor <;> simp [Instr.opc])
    · exact .inl ⟨_, rfl⟩
  | setClock code =>
    simp only [rule]
    split
    · exact .inl ⟨_, rfl⟩
    · exact .inr (by constructor <;> simp [Instr.opc])
  | keyPress key =>
    right
    simp only [rule]
    split
    · exact frame_liveKey key s
    · exact frame_assignStep (o := .keyPress) (by decide) key s
  | keyRelease key =>
    right
    simp only [rule]
    split
    · exact frame_stopVoice (o := .keyRelease) (by decide) s
    · exact .refl _ s
  | encoder steps =>
    right
    simp only [rule]
    split
    · exact frame_updateModval (o := .encoder) (by decide) steps s
    · exact .refl _ s
  | setVolume level => exact refused_or_frame_guard (by constructor <;> simp [Instr.opc])

theorem exec_refused_or_frame {i : Instr} {s t : State} (h : exec i s = .next t) :
    Refused i s t ∨ Frame i.opc s t := by
  rcases exec_next h with ⟨rfl, -⟩ | ⟨rfl, -⟩ | ⟨rfl, -⟩
  · exact .inl ⟨_, rfl⟩
  · exact .inl ⟨_, rfl⟩
  · exact rule_refused_or_frame i s

/-- Settles O41: a refused command leaves one error record, any other stays within its row's frame. -/
theorem commandFrame : Obligations.CommandFrame := by
  intro i s t h
  obtain ⟨hcycle, hnow, hpending, hread⟩ := exec_own h
  rcases exec_refused_or_frame h with href | hf
  · obtain ⟨c, rfl⟩ := id href
    simp [href]
  · refine ⟨hf.folder, hf.keyfreq, hf.irqEn, hcycle, hnow, hpending, hread, hf.wave, hf.tempo, hf.clock, hf.target,
      hf.octave, hf.modval, hf.seq, hf.view, hf.running, hf.dual, hf.cur, hf.held, hf.voice, hf.registers, hf.cmdReady,
      hf.blink, hf.clockState, hf.guard, hf.playLast, hf.playCount, hf.counts, fun hn => ?_⟩
    obtain ⟨herr, hcode, hopc, -⟩ := (exec_refused_or_keepsErrors h).resolve_left hn
    exact ⟨herr, hcode, hopc, hf.irqPend, hf.history⟩

end Sys2Proof.Machine
end

section
/-! PROOFS (state, 10_state.md). The words of the registers that gather several fields, as sums of their fields. -/

namespace Sys2Proof.Machine

/-- `STATUS` (R33). -/
theorem statusWord_toNat (s : State) : (statusWord s).toNat =
    s.rt.view.toNat + 2 * s.rt.running.toNat + 4 * s.rt.dual.toNat + 8 * s.voice.active.toNat
      + 16 * s.voice.busy.toNat + 32 * s.ifc.cmdReady.toNat + 64 * s.rt.heldValid.toNat
      + 128 * s.rt.blinkOn.toNat + 2 ^ 8 * s.rt.heldKey.toNat + 2 ^ 12 * s.rt.cur.toNat
      + 2 ^ 16 * (syncOut s).toNat := by
  simp only [statusWord, append_toNat, ofBool_toNat, BitVec.toNat_ofNat]
  omega

/-- `ERR` (R34). -/
theorem errWord_toNat (f : Interface) :
    (errWord f).toNat = f.err.toNat + 2 ^ 8 * f.lastCode.toNat + 2 ^ 16 * f.lastOpc.toNat := by
  simp only [errWord, append_toNat, BitVec.toNat_ofNat]
  omega

/-- `PROG_CFG` (R37). -/
theorem progCfgWord_toNat (p : Program) : (progCfgWord p).toNat =
    p.folder.toNat + 2 ^ 8 * p.tempo.toNat + 2 ^ 16 * p.wave.code.toNat + 2 ^ 18 * p.clock.code.toNat
      + 2 ^ 20 * p.target.code.toNat + 2 ^ 24 * p.octave.toNat := by
  simp only [progCfgWord, append_toNat, BitVec.toNat_ofNat]
  omega

/-- `SEQ[i]` (R39): an empty step reads 0 whatever its index. -/
theorem slotWord_toNat (x : Slot) : (slotWord x).toNat = if x.valid = true then 2 ^ 8 + x.index.toNat else 0 := by
  simp only [slotWord, append_toNat, ofBool_toNat]
  cases x.valid
  · rfl
  · simp

/-- `PLAY_LAST` (R47). -/
theorem playLastWord_toNat (r : PlayRequest) : (playLastWord r).toNat =
    r.arg.toNat + 2 ^ 8 * r.folder.toNat + (if r.kind = .volume then 2 ^ 16 else 0) := by
  have hkind : r.kind.bit.toNat = if r.kind = .volume then 1 else 0 := by cases r.kind <;> rfl
  simp only [playLastWord, append_toNat, BitVec.toNat_ofNat, hkind]
  split <;> omega

/-- `PULSE_IDX` (R54). -/
theorem pulseIdxWord_toNat (r : Runtime) : (pulseIdxWord r).toNat = r.pulse.toNat + 8 * r.syncLevel.toNat := by
  simp only [pulseIdxWord, append_toNat, ofBool_toNat, BitVec.toNat_ofNat]
  omega

/-- Settles O45: each gathered word is the sum of its fields; a narrower element alone in its register is zero-extended,
so the reserved bits read 0 (20_memory.md R89). -/
theorem registerLayouts : Obligations.RegisterLayouts := fun s =>
  have zext {n : Nat} (x : BitVec n) (hn : n ≤ 32) : (x.setWidth 32).toNat = x.toNat := BitVec.toNat_setWidth_of_le hn
  ⟨statusWord_toNat s, errWord_toNat s.ifc, progCfgWord_toNat s.prog, fun i => slotWord_toNat (s.prog.slot i),
    playLastWord_toNat s.ifc.playLast, pulseIdxWord_toNat s.rt, rfl, rfl, zext s.ifc.irqPend (by decide),
    zext s.ifc.irqEn (by decide), zext s.prog.modval (by decide), fun k => zext (s.prog.keyFreq k) (by decide),
    rfl, rfl, rfl, rfl, zext s.voice.duty (by decide), rfl, rfl, rfl, rfl, rfl, rfl, rfl, rfl, rfl, rfl⟩

end Sys2Proof.Machine
end

section
/-! PROOFS (memory, 20_memory.md). The register map is a bijection between the 55 registers and the multiples of 4 below
0xDC; so an access reaches no register exactly where R83-R85 reject it, and is then BUS and nothing else. -/

namespace Sys2Proof.Machine

/-! ## The map (R81, R84, R85) -/

/-- Every register's offset is a word's, below 0xDC. -/
theorem Reg.offset_aligned_lt (r : Reg) : r.offset % 4 = 0 ∧ r.offset < 0xDC := by
  cases r with
  | seq i | keyFreq i =>
    have hi := i.isLt
    simp only [Reg.offset]
    omega
  | _ => decide

/-- A register is found at its offset (R81). -/
@[simp] theorem Reg.ofOffset_offset (r : Reg) : Reg.ofOffset? (BitVec.ofNat 8 r.offset) = some r := by
  cases r with
  | seq i | keyFreq i => decide +revert
  | _ => rfl

/-- A register found at an offset has that offset: no two registers share one. -/
theorem Reg.offset_of_ofOffset {a : BitVec 8} {r : Reg} (h : Reg.ofOffset? a = some r) : r.offset = a.toNat := by
  unfold Reg.ofOffset? at h
  dsimp only at h
  split at h
  · contradiction
  split at h
  · obtain rfl := Option.some.inj h
    simp only [Reg.offset, BitVec.toNat_ofNat]
    omega
  split at h
  · obtain rfl := Option.some.inj h
    simp only [Reg.offset, BitVec.toNat_ofNat]
    omega
  split at h
  all_goals cases h <;> (symm; assumption)

/-- Each of the 55 words below 0xDC holds a register. -/
theorem Reg.ofOffset_word : ∀ k : Fin 55, (Reg.ofOffset? (BitVec.ofNat 8 (4 * k))).isSome := by decide

/-- An offset reaches a register exactly when it is a multiple of 4 below 0xDC (R84, R85). -/
theorem Reg.exists_ofOffset_iff (a : BitVec 8) :
    (∃ r, Reg.ofOffset? a = some r) ↔ a.toNat % 4 = 0 ∧ a.toNat < 0xDC := by
  constructor
  · rintro ⟨r, hr⟩
    rw [← Reg.offset_of_ofOffset hr]
    exact r.offset_aligned_lt
  · rintro ⟨haligned, hlt⟩
    have hword : BitVec.ofNat 8 (4 * (a.toNat / 4)) = a := by
      rw [Nat.mul_div_cancel' (Nat.dvd_of_mod_eq_zero haligned), BitVec.ofNat_toNat, BitVec.setWidth_eq]
    rw [← Option.isSome_iff_exists, ← hword]
    exact Reg.ofOffset_word ⟨a.toNat / 4, by omega⟩

/-- Settles O44: the map and its converse, and the offset of each register. -/
theorem registerMapCoversTheWindow : Obligations.RegisterMapCoversTheWindow :=
  ⟨fun r => ⟨r.ofOffset_offset, r.offset_aligned_lt.2⟩, fun _ _ => Reg.offset_of_ofOffset, Reg.exists_ofOffset_iff,
    rfl, rfl, rfl, rfl, fun _ => rfl, fun _ => rfl, rfl, rfl, rfl, rfl, rfl, rfl, rfl, rfl, rfl, rfl, rfl, rfl, rfl,
    rfl, rfl, rfl, rfl, rfl, rfl⟩

/-! ## Rejected accesses (R83-R85, R87, R292) -/

/-- An access that is not a full word, misaligned or unmapped reaches no register (R83-R85). -/
theorem accessed_eq_none {a : BitVec 8} {z : AccessSize}
    (h : z ≠ AccessSize.word ∨ a.toNat % 4 ≠ 0 ∨ 0xDC ≤ a.toNat) : accessed? a z = none := by
  by_cases hz : z = AccessSize.word
  · have hbad := h.resolve_left (not_not_intro hz)
    rw [hz, accessed_word, Option.eq_none_iff_forall_ne_some]
    intro r hr
    have hgood := (Reg.exists_ofOffset_iff a).mp ⟨r, hr⟩
    omega
  · exact accessed_of_ne_word a hz

/-- The read-only registers (R292). -/
def Reg.readOnly : List Reg :=
  [.id, .status, .vFreq, .vAcc, .vInc, .vElapsed, .pwmDuty, .display, .playLast, .playCount, .midiCount, .syncCount,
    .seqTimer, .blinkCnt, .syncCnt, .pulseIdx, .dualGuard]

/-- A write to a read-only register is rejected whatever the value (R292). -/
theorem writeReg_readOnly {r : Reg} (hr : r ∈ Reg.readOnly) (v : Word) (s : State) : writeReg r v s = busError s := by
  cases r with
  | cmd | err | irqPend | irqEn | progCfg | progModval | seq | keyFreq => simp [Reg.readOnly] at hr
  | _ => rfl

/-- Settles O47: a rejected write reaches no register, or reaches a read-only one. -/
theorem badWritesRecordBus : Obligations.BadWritesRecordBus := by
  intro a z v s
  constructor
  · intro hbad
    exact hostWrite_unreached v s (accessed_eq_none hbad)
  · intro r hr
    have hreached : accessed? (BitVec.ofNat 8 r.offset) AccessSize.word = some r :=
      (accessed_word _).trans r.ofOffset_offset
    have hcmd : r ≠ .cmd := by rintro rfl; simp at hr
    rw [hostWrite_reached v s hreached hcmd, writeReg_readOnly hr]
    rfl

/-! ## Reads (R282) -/

/-- Settles O46: a read reaches a register and only answers its value, or reaches none and records BUS. -/
theorem readsHaveNoEffect : Obligations.ReadsHaveNoEffect := by
  intro a z s
  constructor
  · rintro r rfl hr
    exact hostRead_reached s ((accessed_word a).trans hr)
  · intro hbad
    exact hostRead_unreached s (accessed_eq_none hbad)

end Sys2Proof.Machine
end

section
/-! PROOFS (encoding, 30_encoding.md). A word's operand area is the operand of the command read from it, so the round
trip goes both ways; a row's match and mask select the words the decoder reads as commands of that row, and every other
word is refused; a write of `CMD` makes the checks of R103 in their order. -/

namespace Sys2Proof

/-- Settles O1: the operand of an encoded command is read back from its field. -/
theorem decodeOfEncode : Obligations.DecodeOfEncode := fun _ h => decode_encode h

/-! ## An accepted word is the encoding of its command (R101, R102) -/

/-- An operand field lies in the operand area (R101). -/
theorem Format.width_le (f : Format) : f.width ≤ 24 := by cases f <;> decide

/-- The operand area of the command read from a word is the word's operand field. -/
theorem operandArea_operandOf (o : Opc) (w : Word) :
    operandArea (operandOf o w) = (w.extractLsb' 0 o.format.width).setWidth 24 := by
  have hnat (n : Nat) : BitVec.ofNat n (w.extractLsb' 0 n).toNat = w.extractLsb' 0 n := by
    rw [BitVec.ofNat_toNat, BitVec.setWidth_eq]
  have hint (n : Nat) : BitVec.ofInt n (w.extractLsb' 0 n).toInt = w.extractLsb' 0 n := BitVec.ofInt_toInt
  cases o with
  | nop | noteOff | seqOpen | seqExit | run | stop | toggleDual | clearStep | clearPattern | cursorNext
  | cursorPrev => exact (congrArg (BitVec.setWidth 24) (BitVec.of_length_zero (x := w.extractLsb' 0 0))).symm
  | noteOn => exact (hnat 24).trans (BitVec.setWidth_eq _).symm
  | setTempo | setVolume => exact congrArg (BitVec.setWidth 24) (hnat 8)
  | modUpdate | encoder => exact congrArg (BitVec.setWidth 24) (hint 16)
  | setOctave => exact congrArg (BitVec.setWidth 24) (hint 8)
  | setWave => exact congrArg (BitVec.setWidth 24) (Wave.code_ofCode _)
  | setTarget | assign | cursorSet | setClock | keyPress | keyRelease => rfl

/-- If the reserved bits are 0, the operand field holds the whole operand area. -/
theorem operandArea_toNat_of_reservedBits {o : Opc} {w : Word} (h : reservedBits o.format w = 0) :
    (operandArea (operandOf o w)).toNat = w.toNat % 2 ^ 24 := by
  have hdvd : 2 ^ o.format.width ∣ 2 ^ 24 := Nat.pow_dvd_pow 2 o.format.width_le
  rw [operandArea_operandOf, BitVec.toNat_setWidth_of_le o.format.width_le, BitVec.extractLsb'_toNat,
    Nat.shiftRight_zero, ← Nat.mod_mod_of_dvd _ hdvd]
  exact Nat.mod_eq_of_lt ((reservedBits_eq_zero _ w).mp h)

/-- Encoding the command read from a word gives the word back: the opcode byte above the operand area (R100). -/
theorem encode_of_decode {w : Word} {i : Instr} (h : decode w = .ok i) : encode i = w := by
  have hopc := decode_opc h
  obtain ⟨o, -, hres, rfl⟩ := decode_eq_ok.mp h
  apply BitVec.eq_of_toNat_eq
  rw [encode_toNat, hopc, opcodeOf_toNat, operandArea_toNat_of_reservedBits hres]
  omega

/-- Settles O2: an operand read from its field fits it, and no bit of the word lies outside opcode and field. -/
theorem encodeOfDecode : Obligations.EncodeOfDecode := fun _ _ h => ⟨wellFormed_of_decode h, encode_of_decode h⟩

/-! ## Match and mask (R104) -/

/-- The decoder reads a command of a row exactly from the words with the row's opcode byte and zero reserved bits. -/
theorem exists_decode_iff (w : Word) (o : Opc) :
    (∃ i, decode w = .ok i ∧ i.opc = o) ↔ opcodeOf w = o.code ∧ reservedBits o.format w = 0 := by
  constructor
  · rintro ⟨i, hi, rfl⟩
    refine ⟨(decode_opc hi).symm, ?_⟩
    rw [← encode_of_decode hi]
    exact reservedBits_encode i
  · rintro ⟨hopc, hres⟩
    exact ⟨operandOf o w, decode_eq_ok.mpr ⟨o, by rw [hopc, Opc.ofCode?_code], hres, rfl⟩, operandOf_opc o w⟩

theorem Opc.matchWord_toNat (o : Opc) : o.matchWord.toNat = o.code.toNat * 2 ^ 24 := by cases o <;> rfl

/-- The mask clears the bits of the operand field. -/
theorem and_maskWord_toNat (w : Word) (o : Opc) :
    (w &&& o.maskWord).toNat = w.toNat / 2 ^ o.format.width * 2 ^ o.format.width := by
  have hle : w.toNat / 2 ^ o.format.width * 2 ^ o.format.width ≤ w.toNat := Nat.div_mul_le_self _ _
  rw [Opc.maskWord, ← BitVec.shiftLeft_ushiftRight, BitVec.toNat_shiftLeft, BitVec.toNat_ushiftRight,
    Nat.shiftRight_eq_div_pow, Nat.shiftLeft_eq, Nat.mod_eq_of_lt (by omega)]

/-- A word matches a row exactly when it has the row's opcode byte and zero reserved bits. -/
theorem and_maskWord_eq_iff (w : Word) (o : Opc) :
    w &&& o.maskWord = o.matchWord ↔ opcodeOf w = o.code ∧ reservedBits o.format w = 0 := by
  rw [← BitVec.toNat_inj, ← BitVec.toNat_inj, and_maskWord_toNat, Opc.matchWord_toNat, opcodeOf_toNat, reservedBits]
  -- `omega` divides by numerals only, so the width is made one
  generalize o.format = f
  cases f <;> simp only [Format.width] <;> omega

/-- Settles O3: the table row by row; match and mask ask for the opcode byte and reserved bits that the decoder
asks for. -/
theorem opcodeMapRows : Obligations.OpcodeMapRows := by
  refine ⟨by decide, fun w o => (and_maskWord_eq_iff w o).trans (exists_decode_iff w o).symm, ?_⟩
  intro w o o' h h'
  obtain ⟨hopc, -⟩ := (and_maskWord_eq_iff w o).mp h
  obtain ⟨hopc', -⟩ := (and_maskWord_eq_iff w o').mp h'
  exact Opc.code_inj (hopc.symm.trans hopc')

/-! ## Illegal words (R101, R105) -/

/-- A row's opcode byte selects it and no other row. -/
theorem Opc.ofCode?_eq_some_iff {c : BitVec 8} {o : Opc} : Opc.ofCode? c = some o ↔ c = o.code :=
  ⟨fun h => (Opc.code_of_ofCode? h).symm, fun h => h ▸ Opc.ofCode?_code o⟩

/-- The opcode bytes with no row (R105). -/
theorem Opc.ofCode?_eq_none_iff (c : BitVec 8) : Opc.ofCode? c = none ↔
    (0x07 ≤ c.toNat ∧ c.toNat ≤ 0x0F) ∨ (0x1D ≤ c.toNat ∧ c.toNat ≤ 0x1F) ∨ (0x23 ≤ c.toNat ∧ c.toNat ≤ 0x2F)
      ∨ 0x31 ≤ c.toNat := by
  revert c; decide

/-- The reserved bits are those from the operand field's width up to bit 23 (R101). -/
theorem reservedBits_ne_zero_iff (f : Format) (w : Word) :
    reservedBits f w ≠ 0 ↔ ∃ j, f.width ≤ j ∧ j < 24 ∧ w.getLsbD j = true := by
  have hbit (k : Nat) : (reservedBits f w).testBit k = (decide (k + f.width < 24) && w.getLsbD (k + f.width)) := by
    rw [reservedBits, Nat.testBit_div_two_pow, Nat.testBit_mod_two_pow, BitVec.testBit_toNat]
  constructor
  · intro h
    obtain ⟨k, hk⟩ := Nat.exists_testBit_of_ne_zero h
    rw [hbit, Bool.and_eq_true, decide_eq_true_iff] at hk
    exact ⟨k + f.width, Nat.le_add_left _ _, hk⟩
  · rintro ⟨j, hle, hlt, hj⟩ h
    have hk := hbit (j - f.width)
    rw [Nat.sub_add_cancel hle, h, hj, Nat.zero_testBit, decide_eq_true hlt] at hk
    contradiction

/-- The decoder refuses a word exactly when its opcode byte has no row, or its row has a reserved bit that is 1. -/
theorem forall_decode_ne_iff (w : Word) : (∀ i, decode w ≠ .ok i) ↔
    Opc.ofCode? (opcodeOf w) = none ∨ ∃ o : Opc, opcodeOf w = o.code ∧ reservedBits o.format w ≠ 0 := by
  cases h : Opc.ofCode? (opcodeOf w) with
  | none => simp [decode_eq_ok, h]
  | some o =>
    have hrow (o' : Opc) : opcodeOf w = o'.code ↔ o = o' := by rw [← Opc.ofCode?_eq_some_iff, h, Option.some.injEq]
    simp [decode_eq_ok, h, hrow]

end Sys2Proof

namespace Sys2Proof.Machine

/-! ## A write of `CMD` (R103) -/

/-- The register at offset 0x04 is `CMD` (R100). -/
theorem hostWrite_cmd (w : Word) (s : State) : hostWrite 0x04 AccessSize.word w s = issueCommand w s := rfl

/-- With a join pending, any word records OVERRUN (R103). -/
theorem issueCommand_of_not_ready (w : Word) {s : State} (hr : s.ifc.cmdReady = false) :
    issueCommand w s = .next (raise .overrun (opcodeOf w) s) := by
  rw [issueCommand, if_pos hr]

/-- With the join done, a word that is no command records BAD_CMD (R103). -/
theorem issueCommand_of_illegal {w : Word} {s : State} (h : ∀ i, decode w ≠ .ok i) (hr : s.ifc.cmdReady = true) :
    issueCommand w s = .next (raise .badCmd (opcodeOf w) s) := by
  rw [issueCommand, if_neg (by simp [hr])]
  cases hd : decode w with
  | error e => rfl
  | ok i => exact absurd hd (h i)

/-- Settles O4: the decoder's two refusals, as opcode ranges and reserved bits, and the write of a refused word. -/
theorem illegalWordsRefused : Obligations.IllegalWordsRefused := by
  intro w
  refine ⟨?_, fun s h hr => (hostWrite_cmd w s).trans (issueCommand_of_illegal h hr)⟩
  simp only [forall_decode_ne_iff, Opc.ofCode?_eq_none_iff, opcodeOf_toNat, reservedBits_ne_zero_iff]

/-- Only NOP and SEQ_OPEN are accepted with the view closed (R103). -/
theorem needsView_opc_iff (i : Instr) : needsView i.opc = true ↔ i ≠ .nop ∧ i ≠ .seqOpen := by
  cases i <;> simp [Instr.opc, needsView]

/-- A command executed while a join is pending (R103, log 5). -/
theorem exec_of_not_ready (i : Instr) {s : State} (hr : s.ifc.cmdReady = false) :
    exec i s = .next (raise .overrun i.opc.code s) := by
  rw [exec_eq_accept, accept, if_pos hr]

/-- A command that needs the view, executed with the view closed (R103, log 5). -/
theorem exec_of_view_closed {i : Instr} {s : State} (hr : s.ifc.cmdReady = true) (hn : i ≠ .nop ∧ i ≠ .seqOpen)
    (hv : s.rt.view = false) : exec i s = .next (raise .state i.opc.code s) := by
  rw [exec_eq_accept, accept, if_neg (by simp [hr]), if_pos ⟨(needsView_opc_iff i).mpr hn, hv⟩]

/-- Settles O6: OVERRUN before decoding, BAD_CMD at decoding, STATE for the closed view, then the command. -/
theorem commandAcceptance : Obligations.CommandAcceptance := by
  constructor
  · intro w s
    rw [hostWrite_cmd]
    split
    · next hr => exact issueCommand_of_not_ready w hr
    · next hr =>
      have hready : s.ifc.cmdReady = true := Bool.not_eq_false _ ▸ hr
      split
      · next hd => exact issueCommand_of_illegal (by simp [hd]) hready
      · next i hd =>
        rw [issueCommand_of_decode s hd]
        split
        · next hclosed =>
          obtain ⟨hnop, hopen, hv⟩ := hclosed
          rw [exec_of_view_closed hready ⟨hnop, hopen⟩ hv, decode_opc hd, opcodeOf]
        · rfl
  · intro i s
    exact ⟨exec_of_not_ready i, fun hr hv hnop hopen => exec_of_view_closed hr ⟨hnop, hopen⟩ hv⟩

end Sys2Proof.Machine
end

section
/-! PROOFS (wavetable, 40_wavetable.md). Every ROM entry is the rounding of its waveform's formula. Three waveforms are
quotients of naturals, rounded in natural arithmetic; the sine's are decided by `floorSin` at a thousandth, but for the
two ties, where the sine is 0. -/

namespace Sys2Proof.Machine

open Sys2Proof.Reference

/-! ## The waveforms whose values are quotients of naturals (40_wavetable.md R132-R134) -/

/-- `round_even (n / d)` in natural arithmetic (00_scope.md R8). -/
def roundEvenDiv (n d : ℕ) : ℕ :=
  if 2 * (n % d) < d then n / d
  else if d < 2 * (n % d) then n / d + 1
  else if n / d % 2 = 0 then n / d else n / d + 1

theorem roundEven_natCast_div {d : ℕ} (n : ℕ) (hd : 0 < d) : roundEven ((n : ℝ) / d) = (roundEvenDiv n d : ℤ) :=
  roundEven_div n d hd

/-- A table is exact once its values are quotients `num i / d` and it lists their roundings. -/
theorem rom_eq_of_eq_div {w : Wave} {num : ℕ → ℕ} {d : ℕ} (hd : 0 < d)
    (hvalue : ∀ i < 256, tableValue w i = (num i : ℝ) / d)
    (hentry : ∀ i < 256, (Wave.table w).getD i 0 = roundEvenDiv (num i) d) (i : BitVec 8) :
    (rom w i : ℤ) = roundEven (tableValue w i.toNat) := by
  rw [hvalue _ i.isLt, roundEven_natCast_div _ hd, rom, hentry _ i.isLt]

/-- `2^16` times the square's value. -/
def squareNum (i : ℕ) : ℕ := if i < 128 then 65535 * 2 ^ 16 else 65535 * (256 - i) ^ 2

/-- `2^8` times the triangle's value. -/
def triangleNum (i : ℕ) : ℕ := if i < 128 then 65535 * (2 * i) else 65535 * (2 * (256 - i))

/-- `2^24` times the sawtooth's value. -/
def sawtoothNum (i : ℕ) : ℕ := 65535 * i * (256 - i) ^ 2

theorem tableValue_square {i : ℕ} (hi : i < 256) : tableValue .square i = (squareNum i : ℝ) / (2 ^ 16 : ℕ) := by
  simp only [tableValue, squareNum]
  split
  · norm_num
  · push_cast [hi.le]; ring

theorem tableValue_triangle {i : ℕ} (hi : i < 256) : tableValue .triangle i = (triangleNum i : ℝ) / (2 ^ 8 : ℕ) := by
  simp only [tableValue, triangleNum]
  split <;> push_cast [hi.le] <;> norm_num

theorem tableValue_sawtooth {i : ℕ} (hi : i < 256) :
    tableValue .sawtooth i = (sawtoothNum i : ℝ) / (2 ^ 24 : ℕ) := by
  simp only [tableValue, sawtoothNum]
  push_cast [hi.le]; ring

set_option maxRecDepth 8000 in
theorem squareTable_entry : ∀ i < 256, squareTable.getD i 0 = roundEvenDiv (squareNum i) (2 ^ 16) := by decide

set_option maxRecDepth 8000 in
theorem triangleTable_entry : ∀ i < 256, triangleTable.getD i 0 = roundEvenDiv (triangleNum i) (2 ^ 8) := by decide

set_option maxRecDepth 8000 in
theorem sawtoothTable_entry : ∀ i < 256, sawtoothTable.getD i 0 = roundEvenDiv (sawtoothNum i) (2 ^ 24) := by decide

/-! ## The sine (40_wavetable.md R131) -/

/-- A floor at a thousandth that is no multiple of 1000 shows both the rounding and that there is no tie. -/
theorem roundEven_eq_of_floor_thousandth {x : ℝ} {v : ℤ} (h : ⌊1000 * (x + 1 / 2)⌋ = v) (hv : v % 1000 ≠ 0) :
    roundEven x = v / 1000 := by
  refine roundEven_eq_of_not_tie x _ ?_ (by omega)
  calc ⌊x + 1 / 2⌋ = ⌊1000 * (x + 1 / 2) / (1000 : ℕ)⌋ := by norm_num
    _ = v / 1000 := by rw [Int.floor_div_natCast, h]; rfl

/-- `floor (1000 * (x + 1 / 2))` of the sine's value `x`, as the model's interval arithmetic computes it. -/
def sineThousandths (i : ℕ) : ℤ := Exact.floorSin 65536000 65535000 2 i 256

theorem floor_tableValue_sine (i : ℕ) : ⌊1000 * (tableValue .sine i + 1 / 2)⌋ = sineThousandths i := by
  rw [sineThousandths, Exact.floorSin_eq i (by norm_num) (by norm_num) (by norm_num) (by norm_num) (by norm_num)]
  congr 1
  simp only [tableValue]
  push_cast; ring

/-- Half a period apart the sine is 0, and its value the tie `65535 / 2`. -/
theorem tableValue_sine_tie {i : ℕ} (hi : i % 128 = 0) : tableValue .sine i = (65535 : ℕ) / (2 : ℕ) := by
  obtain ⟨k, rfl⟩ := Nat.dvd_of_mod_eq_zero hi
  have harg : 2 * Real.pi * (128 * k : ℕ) / 256 = k * Real.pi := by push_cast; ring
  simp only [tableValue, harg, Real.sin_nat_mul_pi]
  norm_num

set_option maxRecDepth 8000 in
theorem sineTable_tie : ∀ i < 256, i % 128 = 0 → sineTable.getD i 0 = roundEvenDiv 65535 2 := by decide

set_option maxRecDepth 8000 in
theorem sineTable_entry : ∀ i < 256, i % 128 ≠ 0 →
    sineThousandths i % 1000 ≠ 0 ∧ (sineTable.getD i 0 : ℤ) = sineThousandths i / 1000 := by decide

theorem rom_sine_eq (i : BitVec 8) : (rom .sine i : ℤ) = roundEven (tableValue .sine i.toNat) := by
  by_cases hi : i.toNat % 128 = 0
  · rw [tableValue_sine_tie hi, roundEven_natCast_div _ (by norm_num)]
    exact congrArg _ (sineTable_tie _ i.isLt hi)
  · obtain ⟨hfine, hentry⟩ := sineTable_entry _ i.isLt hi
    rw [roundEven_eq_of_floor_thousandth (floor_tableValue_sine _) hfine]
    exact hentry

/-- Settles O59: three tables list the roundings of quotients, and the sine's table those its fine floors show. -/
theorem wavetableIsExact : Obligations.WavetableIsExact
  | .sine => rom_sine_eq
  | .square => rom_eq_of_eq_div (by norm_num) (fun _ => tableValue_square) squareTable_entry
  | .triangle => rom_eq_of_eq_div (by norm_num) (fun _ => tableValue_triangle) triangleTable_entry
  | .sawtooth => rom_eq_of_eq_div (by norm_num) (fun _ => tableValue_sawtooth) sawtoothTable_entry

end Sys2Proof.Machine
end

section
/-! PROOFS (voice, 41_voice.md). While a join is pending no host access and no timebase tick reaches the voice or
`CMD_READY`, so the note drains until the next audio cycle (R161, R372). -/

namespace Sys2Proof.Machine

/-! ## What leaves `CMD_READY` alone -/

/-- No register write changes `CMD_READY` (44_host_misc.md R284-R292). -/
theorem writeReg_cmdReady (r : Reg) (v : Word) (s : State) : (writeReg r v s).ifc.cmdReady = s.ifc.cmdReady := by
  cases r with
  | err =>
    simp only [writeReg, writeErr]
    split <;> rfl
  | progCfg =>
    simp only [writeReg, writeProgCfg]
    split
    · split
      · rfl
      · split <;> rfl
    · rfl
  | _ => rfl

/-- No register write changes the voice. -/
theorem writeReg_voice (r : Reg) (v : Word) (s : State) : (writeReg r v s).voice = s.voice := by
  rcases writeReg_cases r v s with ⟨c, h⟩ | ⟨-, -, h, -⟩
  · rw [h, raise_voice]
  · exact h

theorem pulseEvent_cmdReady (s : State) : (pulseEvent s).ifc.cmdReady = s.ifc.cmdReady := by
  rw [pulseEvent_ifc]
  split <;> rfl

theorem clockAccumulate_cmdReady (s : State) : (clockAccumulate s).ifc.cmdReady = s.ifc.cmdReady := by
  rw [clockAccumulate_eq]
  split
  · rfl
  · split
    · rw [fireStep_ifc]
    · rw [pulseEvent_cmdReady]

theorem timebaseTick_cmdReady (s : State) : (timebaseTick s).ifc.cmdReady = s.ifc.cmdReady := by
  cases hv : s.rt.view with
  | false => rw [timebaseTick_closed hv]
  | true =>
    rw [timebaseTick_open hv, guardCountdown_ifc]
    split
    · rw [clockAccumulate_cmdReady, syncCountdown_ifc]
    · split <;> simp

theorem timebasePhase_cmdReady (s : State) : (timebasePhase s).ifc.cmdReady = s.ifc.cmdReady := by
  unfold timebasePhase
  split
  · exact timebaseTick_cmdReady s
  · rfl

/-- With a join pending, a host access leaves the voice and `CMD_READY`: every command is an OVERRUN (R103). -/
theorem hostAccess_of_not_ready {a : Option Access} {s t : State} (hr : s.ifc.cmdReady = false)
    (h : hostAccess a s = .next t) : t.ifc.cmdReady = false ∧ t.voice = s.voice := by
  match a with
  | none =>
    obtain rfl := Host.Outcome.next.inj h
    exact ⟨hr, rfl⟩
  | some (.read off z) =>
    obtain rfl := Host.Outcome.next.inj h
    unfold hostRead
    split <;> exact ⟨hr, rfl⟩
  | some (.write off z v) =>
    simp only [hostAccess, hostWrite] at h
    split at h
    · obtain rfl := Host.Outcome.next.inj h
      exact ⟨hr, rfl⟩
    · rw [issueCommand_of_not_ready v hr] at h
      obtain rfl := Host.Outcome.next.inj h
      exact ⟨hr, rfl⟩
    · obtain rfl := Host.Outcome.next.inj h
      exact ⟨(writeReg_cmdReady _ v s).trans hr, writeReg_voice _ v s⟩

/-! ## The three kinds of audio tick (R160) -/

theorem audioTick_of_active {s : State} (ha : s.voice.active = true) : audioTick s = generateTick s := by
  simp [audioTick, ha]

theorem audioTick_of_draining {s : State} (hb : s.voice.busy = true) (ha : s.voice.active = false) :
    audioTick s = drainTick s := if_pos ⟨hb, ha⟩

theorem audioTick_of_silent {s : State} (hb : s.voice.busy = false) (ha : s.voice.active = false) :
    audioTick s = s := by
  simp [audioTick, ha, hb]

/-! ## The cycles of a drain (R161) -/

/-- A join is pending on the voice `v`, and no coming cycle has RST high. -/
structure Draining (v : Voice) (s : State) : Prop where
  notReady : s.ifc.cmdReady = false
  voice : s.voice = v
  noRst : ∀ x ∈ s.pending, x.rst = false

/-- A queue without RST brings none in the coming cycle, and an empty queue brings an idle cycle (log 1). -/
theorem nextInput_rst {s : State} (h : ∀ x ∈ s.pending, x.rst = false) : (nextInput s).rst = false := by
  unfold nextInput
  cases hp : s.pending with
  | nil => rfl
  | cons x rest => exact h x (hp ▸ List.mem_cons_self)

/-- A cycle of a draining state is an audio phase on a state that drains the same voice, and the cycle's end. -/
theorem Draining.step_eq {v : Voice} {s : State} (h : Draining v s) :
    ∃ u, Draining v u ∧ u.cycle = s.cycle ∧ step s = .next (endCycle (grid s) (audioPhase u)) := by
  obtain ⟨u, hu, hstep⟩ := step_noRst (nextInput_rst h.noRst)
  obtain ⟨hready, hvoice⟩ := hostAccess_of_not_ready (s := beginCycle s) h.notReady hu
  obtain ⟨hcycle, -, hpending, -⟩ := hostAccess_own hu
  refine ⟨timebasePhase u, ⟨?_, ?_, ?_⟩, ?_, hstep⟩
  · rw [timebasePhase_cmdReady, hready]
  · rw [timebasePhase_voice, hvoice, beginCycle_voice, h.voice]
  · rw [timebasePhase_pending, hpending]
    exact fun x hx => h.noRst x (List.mem_of_mem_tail hx)
  · rw [timebasePhase_cycle, hcycle, beginCycle_cycle]

/-- Outside the audio cycles the state stays draining. -/
theorem Draining.step_of_not_audio {v : Voice} {s : State} (h : Draining v s) (hc : s.cycle % 1000 ≠ 999) :
    ∃ t, step s = .next t ∧ Draining v t ∧ t.cycle = s.cycle + 1 := by
  obtain ⟨u, hu, hcycle, hstep⟩ := h.step_eq
  rw [audioPhase_of_not (by rwa [hcycle])] at hstep
  exact ⟨_, hstep, ⟨by simp [hu.notReady], by simp [hu.voice], by simpa using hu.noRst⟩, by simp [hcycle]⟩

/-- The audio cycle makes the join. -/
theorem Draining.step_of_audio {v : Voice} {s : State} (h : Draining v s) (hb : v.busy = true) (ha : v.active = false)
    (hc : s.cycle % 1000 = 999) : ∃ t, step s = .next t ∧ t.ifc.cmdReady = true
      ∧ t.voice = { v with busy := false, duty := 0 } ∧ t.ifc.irqPend.getLsbD 2 = true := by
  obtain ⟨u, hu, hcycle, hstep⟩ := h.step_eq
  obtain rfl := hu.voice
  rw [audioPhase_of_tick (by rwa [hcycle]), audioTick_of_draining hb ha] at hstep
  exact ⟨_, hstep, by simp, by simp, by simp [irqJoin]⟩

/-- No cycle before the audio cycle ends the drain (R161). -/
theorem Draining.run_before_audio {v : Voice} (m : Nat) {s : State} (h : Draining v s)
    (hm : m < 1000 - s.cycle % 1000) : ∃ t, Sys2Proof.core.run m s = .next t ∧ Draining v t := by
  induction m generalizing s with
  | zero => exact ⟨s, run_zero s, h⟩
  | succ m ih =>
    obtain ⟨u, hstep, hu, hcycle⟩ := h.step_of_not_audio (by omega)
    rw [run_next hstep]
    exact ih hu (by omega)

/-- The run that ends with the audio cycle ends with the join (R161, R372). -/
theorem Draining.run_to_audio {v : Voice} (hb : v.busy = true) (ha : v.active = false) (m : Nat) {s : State}
    (h : Draining v s) (hm : m + 1 = 1000 - s.cycle % 1000) :
    ∃ t, Sys2Proof.core.run (m + 1) s = .next t ∧ t.ifc.cmdReady = true
      ∧ t.voice = { v with busy := false, duty := 0 } ∧ t.ifc.irqPend.getLsbD 2 = true := by
  induction m generalizing s with
  | zero =>
    obtain ⟨t, hstep, ht⟩ := h.step_of_audio hb ha (by omega)
    exact ⟨t, (run_next hstep).trans (run_zero t), ht⟩
  | succ m ih =>
    obtain ⟨u, hstep, hu, hcycle⟩ := h.step_of_not_audio (by omega)
    rw [run_next hstep]
    exact ih hu (by omega)

/-- Settles O60: the state drains through every cycle before the audio cycle, whose tick is the join. -/
theorem joinWithinOneAudioPeriod : Obligations.JoinWithinOneAudioPeriod := by
  intro s hr hb ha hrst
  have hdrain : Draining s.voice s := ⟨hr, rfl, hrst⟩
  constructor
  · intro m hm
    obtain ⟨t, hrun, ht⟩ := hdrain.run_before_audio m hm
    exact ⟨t, hrun, ht.notReady, ht.voice⟩
  · obtain ⟨m, hm⟩ : ∃ m, 1000 - s.cycle % 1000 = m + 1 := ⟨999 - s.cycle % 1000, by omega⟩
    rw [hm]
    exact hdrain.run_to_audio hb ha m hm.symm

end Sys2Proof.Machine
end

section
/-! PROOFS (voice, 41_voice.md). The voice unit's commands once accepted, that no command touches a sounding note's
registers, and the generating tick against the real formulas. -/

namespace Sys2Proof.Machine

open Sys2Proof.Safety Sys2Proof.Reference

/-! ## The commands (R153-R158) -/

theorem sounding_eq_false_iff (s : State) : sounding s = false ↔ s.voice.active = false ∧ s.voice.busy = false :=
  Bool.or_eq_false_iff

/-- An accepted command whose rule answers `t` answers `t`. -/
theorem exec_of_open {i : Instr} {s t : State} (h : Open s) (ht : rule i s = t) : exec i s = .next t := by
  rw [exec_open i h.1 h.2, ht]

/-- A three-bit shift is at most 3. -/
theorem octave_toInt_le (o : BitVec 3) : o.toInt ≤ 3 := Int.le_of_lt_add_one BitVec.toInt_lt

/-- Settles O20: ignored while a note sounds or drains, else a note starts, whose shifted frequency fits 27 bits. -/
theorem noteOnStartsNote : Obligations.NoteOnStartsNote := by
  intro x s hx hopen
  constructor
  · intro hs
    exact exec_of_open hopen (if_pos ((sounding_iff s).mpr hs))
  · intro ha hb
    have hlt : octaveApply x s.prog.octave.toInt < 2 ^ 27 := octaveApply_lt x _ (octave_toInt_le _) hx
    have hnat : (BitVec.ofNat 32 (octaveApply x s.prog.octave.toInt)).toNat = octaveApply x s.prog.octave.toInt := by
      rw [BitVec.toNat_ofNat]
      omega
    have hsilent : sounding s = false := (sounding_eq_false_iff s).mpr ⟨ha, hb⟩
    refine ⟨_, exec_of_open hopen (if_neg (by simp [hsilent])), ?_, ?_⟩
    · rw [hnat, octaveApply_eq]
    · rwa [hnat]

/-- Settles O21: the three cases of `StopVoice` (R152). -/
theorem noteOffStopsVoice : Obligations.NoteOffStopsVoice := by
  intro s hopen
  refine ⟨fun ha => ?_, fun ha hb => ?_, fun ha hb => ?_⟩ <;> apply exec_of_open hopen
  · simp [rule, stopVoice, ha]
  · simp [rule, stopVoice, ha, hb, emit]
  · simp [rule, stopVoice, ha, hb]

/-- Settles O22: HAZARD while a note sounds or drains, else the write. -/
theorem setWaveOnlyWhenSilent : Obligations.SetWaveOnlyWhenSilent := by
  intro w s hopen
  constructor
  · intro hs
    exact exec_of_open hopen (if_pos ((sounding_iff s).mpr hs))
  · intro ha hb
    have hsilent : sounding s = false := (sounding_eq_false_iff s).mpr ⟨ha, hb⟩
    exact exec_of_open hopen (if_neg (by simp [hsilent]))

/-- A legal code writes its target, and only Disabled, code 0, clears the modulation value (R156). -/
theorem rule_setTarget_of_legal {x : BitVec 3} {tg : Target} (s : State) (h : Target.ofCode? x = some tg) :
    rule (.setTarget x) s = pend irqDirty { s with
      prog := { s.prog with target := tg, modval := if x = 0 then 0 else s.prog.modval } } := by
  obtain rfl := Target.code_of_ofCode? h
  cases tg <;> rfl

/-- Settles O23: code 7 has no target; every other code selects its own. -/
theorem setTargetSelectsModulation : Obligations.SetTargetSelectsModulation := by
  intro x s hopen
  constructor
  · rintro rfl
    exact exec_of_open hopen rfl
  · intro hx
    obtain ⟨tg, htg⟩ := Option.ne_none_iff_exists'.mp (mt (Target.ofCode?_eq_none x).mp hx)
    exact ⟨tg, Target.code_of_ofCode? htg, exec_of_open hopen (rule_setTarget_of_legal s htg)⟩

/-- Settles O24: the modulation sum is clamped as an integer. -/
theorem modUpdateClampsTheSum : Obligations.ModUpdateClampsTheSum :=
  fun x s _ _ hopen => ⟨modSum s.prog.modval x, exec_of_open hopen rfl, modSum_toNat s.prog.modval x⟩

/-- The octave written is the clamped shift (R158). -/
theorem octaveOf_toInt (shift : Int) : (octaveOf shift).toInt = min 3 (max (-3) shift) := by
  simp only [octaveOf, clamp, Config.octMin, Config.octMax]
  exact BitVec.toInt_ofInt_eq_self (by decide) (by omega) (by omega)

/-- Settles O25: the shift is clamped before it is written. -/
theorem setOctaveClamps : Obligations.SetOctaveClamps :=
  fun x _ _ _ hopen => ⟨octaveOf x, exec_of_open hopen rfl, octaveOf_toInt x⟩

/-! ## Monophony (R177) -/

/-- The voice `w` still plays the note of `v`, or has stopped it. -/
def SameNote (v w : Voice) : Prop :=
  w.freq = v.freq ∧ w.acc = v.acc ∧ w.elapsed = v.elapsed ∧ (w.active = true → v.active = true)

theorem SameNote.of_eq {v w : Voice} (h : w = v) : SameNote v w := by
  subst h
  exact ⟨rfl, rfl, rfl, id⟩

theorem sameNote_stopVoice (s : State) : SameNote s.voice (stopVoice s).voice := by
  obtain ⟨a, d, hv⟩ := stopVoice_voice_exists s
  exact ⟨by rw [hv], by rw [hv], by rw [hv], by simp⟩

theorem sameNote_flipDual (s : State) : SameNote s.voice (flipDual s).voice := by
  have hstop := sameNote_stopVoice { s with rt := { s.rt with dual := false } }
  unfold flipDual
  split
  · dsimp only
    split <;> exact hstop
  · exact .of_eq rfl

/-- A rule outside the rows that act on the voice leaves it. -/
theorem rule_voice {i : Instr} (s : State)
    (ho : i.opc ∉ [Opc.seqOpen, .seqExit, .noteOn, .noteOff, .toggleDual, .keyPress, .keyRelease]) :
    (rule i s).voice = s.voice := by
  rcases rule_refused_or_frame i s with ⟨c, h⟩ | h
  · rw [h, raise_voice]
  · exact h.voice ho

/-- While a note sounds or drains with the view open, a rule keeps the note or stops it. -/
theorem sameNote_rule (i : Instr) {s : State} (hv : s.rt.view = true) (hs : sounding s = true) :
    SameNote s.voice (rule i s).voice := by
  cases i with
  | noteOn freq => exact .of_eq (by rw [rule, if_pos hs])
  | noteOff => exact sameNote_stopVoice s
  | seqOpen => exact .of_eq (by rw [rule, if_pos hv, raise_voice])
  | seqExit =>
    have hstop := sameNote_stopVoice { stopSeq s with rt := { (stopSeq s).rt with dual := false } }
    rwa [stopSeq_voice] at hstop
  | toggleDual =>
    simp only [rule, toggleDual, Config.dualDuringRun]
    split
    · exact .of_eq rfl
    · exact sameNote_flipDual s
  | keyPress key =>
    simp only [rule, liveKey, hs, if_true, ite_self]
    split <;> exact .of_eq rfl
  | keyRelease key =>
    simp only [rule]
    split
    · exact sameNote_stopVoice s
    · exact .of_eq rfl
  | _ => exact .of_eq (rule_voice s (by simp [Instr.opc]))

/-- Settles O43: a refused command leaves the voice, and an accepted one keeps the note or stops it. -/
theorem monophonyLaw : Obligations.MonophonyLaw := by
  intro i s t hv hs h
  have hnote : SameNote s.voice t.voice := by
    rcases exec_next h with ⟨rfl, -⟩ | ⟨rfl, -⟩ | ⟨rfl, -⟩
    · exact .of_eq rfl
    · exact .of_eq rfl
    · exact sameNote_rule i hv ((sounding_iff s).mpr hs)
  exact hnote

/-! ## The generating tick (R162-R174) -/

/-- The increment is the floor of the exact product modulo `2^32` (R163, R164). -/
theorem generateTick_inc_toNat (s : State) : ((generateTick s).voice.inc.toNat : ℤ) =
    ⌊(s.voice.freq.toNat : ℝ) * 2 ^ 24 * incMult s.prog.target s.prog.modval.toNat s.voice.elapsed.toNat / 20000⌋
      % 2 ^ 32 := by
  rw [← phaseInc_eq _ _ _ _ s.voice.freq.isLt s.prog.modval.isLt]
  simp only [generateTick, emit_voice, BitVec.toNat_ofInt]
  omega

/-- The duty is the floor of the exact product (R166, R174). -/
theorem generateTick_duty_toNat (s : State) :
    let idx := (generateTick s).voice.acc.extractLsb' 24 8
    ((generateTick s).voice.duty.toNat : ℤ) = ⌊(rom s.prog.wave idx : ℝ) *
      amp s.prog.target s.prog.modval.toNat s.voice.elapsed.toNat s.voice.freq.toNat idx.toNat * (1 / 2)⌋ := by
  intro idx
  have hmv := s.prog.modval.isLt
  have hrom := rom_lt s.prog.wave idx
  obtain ⟨h0, h1⟩ := sampleOut_range s.prog.target _ s.voice.elapsed.toNat s.voice.freq.toNat idx.toNat _ hmv hrom
  rw [← sampleOut_eq _ _ _ _ _ _ hmv hrom]
  exact dutyOf_toNat h0 h1

/-- At full depth the filter modulation takes off less than 0.21 (R172). -/
theorem incMult_filterMod_gt {mv : ℕ} (e : ℕ) (hmv : mv < 2 ^ 16) : 79 / 100 < incMult .filterMod mv e := by
  have hle : (mv : ℝ) ≤ 65535 := by exact_mod_cast Nat.le_of_lt_succ hmv
  have hsin := Real.neg_one_le_sin (2 * Real.pi * 20 * e / 20000)
  have hdepth : (0 : ℝ) ≤ 1 / 10 * (mv / 32767) := by positivity
  simp only [incMult]
  nlinarith

/-- The lowest bend is `2^(-1/6)`, above its tangent at 0 (R173). -/
theorem incMult_pitchBend_gt (mv e : ℕ) : 79 / 100 < incMult .pitchBend mv e := by
  have hlog : 0 < Real.log 2 := Real.log_pos one_lt_two
  have hlog' := Real.log_two_lt_d9
  have hexp : (-1 / 6 : ℝ) ≤ ((mv : ℝ) / 32767 - 1 / 2) * (2 * 2) / 12 := by
    have : (0 : ℝ) ≤ (mv : ℝ) / 32767 := by positivity
    linarith
  have htangent := Real.add_one_le_exp (Real.log 2 * (((mv : ℝ) / 32767 - 1 / 2) * (2 * 2) / 12))
  simp only [incMult]
  rw [Real.rpow_def_of_pos two_pos]
  nlinarith

/-- The multiplier of the increment is above 0.79 (R163). -/
theorem incMult_gt (tg : Target) {mv : ℕ} (e : ℕ) (hmv : mv < 2 ^ 16) : 79 / 100 < incMult tg mv e := by
  cases tg with
  | filterMod => exact incMult_filterMod_gt e hmv
  | pitchBend => exact incMult_pitchBend_gt mv e
  | disabled | cutoff | attackEnvelope | envelopeWave | filterSweep => norm_num [incMult]

/-- Settles O58: the generating tick's floors, the multiplier's bound, the drain and the silent tick. -/
theorem generateTickIsExact : Obligations.GenerateTickIsExact := by
  intro s
  refine ⟨fun ha => ?_, incMult_gt _ _ s.prog.modval.isLt, fun hb ha => ?_, audioTick_of_silent⟩
  · rw [audioTick_of_active ha]
    exact ⟨generateTick_inc_toNat s, BitVec.toNat_add _ _, generateTick_duty_toNat s, BitVec.toNat_add _ _, rfl⟩
  · rw [audioTick_of_draining hb ha]
    rfl

end Sys2Proof.Machine
end

section
/-! PROOFS (sequencer, 42_sequencer.md). The cycles of an idle host: what timebase ticks make of the runtime is counted
once for all that follows, the tempo clock and the blink. -/

namespace Sys2Proof.Machine

open Sys2Proof.Safety

/-- `P k` holds of the states `k` timebase ticks away: each tick leads from `P k` to `P (k + 1)`, and `P k` speaks of
the runtime, the Program and the play requests only, which the rest of an idle cycle leaves (R15). -/
structure CountsTicks (P : Nat → State → Prop) : Prop where
  tick : ∀ k t, P k t → P (k + 1) (timebaseTick t)
  congr : ∀ k t u, P k t → u.rt = t.rt → u.prog = t.prog → plays u.history = plays t.history → P k u

/-- A cycle's second phase, with its tick or without (R15). -/
theorem CountsTicks.timebasePhase {P : Nat → State → Prop} (hP : CountsTicks P) {k : Nat} {t : State} (h : P k t) :
    P (k + if t.cycle % 20 = 19 then 1 else 0) (timebasePhase t) := by
  by_cases hc : t.cycle % 20 = 19
  · rw [if_pos hc, timebasePhase_of_tick hc]
    exact hP.tick k t h
  · rwa [if_neg hc, timebasePhase_of_not hc]

/-- A run of idle cycles counts its timebase ticks. -/
theorem CountsTicks.run {P : Nat → State → Prop} (hP : CountsTicks P) (n : Nat) {k : Nat} {t u : State} (h : P k t)
    (hp : t.pending = []) (hrun : Sys2Proof.core.run n t = .next u) : P (k + timebaseTicks t.cycle n) u := by
  induction n generalizing k t with
  | zero =>
    obtain rfl := Host.Outcome.next.inj ((run_zero t).symm.trans hrun)
    simpa [timebaseTicks] using h
  | succ n ih =>
    have hread : P k { t with readData := none } := hP.congr k t _ h rfl rfl rfl
    have hcycle := hP.congr _ _ (endCycle (grid t) (audioPhase (Machine.timebasePhase { t with readData := none })))
      (hP.timebasePhase hread) (by simp) (by simp) (by simp)
    rw [run_next (step_idle hp)] at hrun
    have hrest := ih hcycle (by simp [hp]) hrun
    simpa [timebaseTicks_succ, Nat.add_assoc] using hrest

end Sys2Proof.Machine
end

section
/-! PROOFS (sequencer, 42_sequencer.md). The tempo clock over the cycles of an idle host: what `k` timebase ticks make
of the accumulator, the pulse, the step and the play requests of a Running state (R234, R235, R242). -/

namespace Sys2Proof.Machine

open Sys2Proof.Safety

/-- Where the clock stands within the current step, in tempo units: a step is 6 pulses of 2,500,000 (R234). -/
def clockPosition (r : Runtime) : Nat := r.clkAcc.toNat + 2500000 * r.pulse.toNat

/-- The play request of the `j + 1`st step after the current one (R242). -/
def comingPlay (s : State) (j : Nat) : Option (BitVec 8 × BitVec 8) :=
  slotPlay s.prog.folder (s.prog.slot (s.rt.cur + BitVec.ofNat 4 (j + 1)))

/-- `t` is a legal Running state to which `k` ticks of the tempo clock have taken `s`, firing `q` step events. -/
structure Clocked (s : State) (k q : Nat) (t : State) : Prop where
  view : t.rt.view = true
  running : t.rt.running = true
  prog : t.prog = s.prog
  clkAcc : t.rt.clkAcc.toNat < 2500000
  pulse : t.rt.pulse.toNat ≤ 5
  position : clockPosition s.rt + k * s.prog.tempo.toNat = 15000000 * q + clockPosition t.rt
  cur : t.rt.cur = s.rt.cur + BitVec.ofNat 4 q
  requests : plays t.history = plays s.history ++ (List.range q).filterMap (comingPlay s)

theorem Clocked.refl {s : State} (hv : s.rt.view = true) (hr : s.rt.running = true) (hp : s.rt.pulse.toNat ≤ 5)
    (hc : s.rt.clkAcc.toNat < 2500000) : Clocked s 0 0 s where
  view := hv
  running := hr
  prog := rfl
  clkAcc := hc
  pulse := hp
  position := by omega
  cur := by simp
  requests := by simp

/-- `Clocked` speaks of the clock's own fields, the Program and the play requests only. -/
theorem Clocked.congr {s t u : State} {k q : Nat} (h : Clocked s k q t) (hv : u.rt.view = t.rt.view)
    (hr : u.rt.running = t.rt.running) (ha : u.rt.clkAcc = t.rt.clkAcc) (hp : u.rt.pulse = t.rt.pulse)
    (hc : u.rt.cur = t.rt.cur) (hprog : u.prog = t.prog) (hplays : plays u.history = plays t.history) :
    Clocked s k q u where
  view := hv.trans h.view
  running := hr.trans h.running
  prog := hprog.trans h.prog
  clkAcc := ha ▸ h.clkAcc
  pulse := hp ▸ h.pulse
  position := by rw [h.position, clockPosition, clockPosition, ha, hp]
  cur := hc.trans h.cur
  requests := hplays.trans h.requests

/-! ## One tick (R234) -/

/-- The accumulator's sum does not wrap. -/
theorem clkAcc_add_toNat {a : BitVec 32} (tempo : BitVec 8) (ha : a.toNat < 2500000) :
    (a + tempo.setWidth 32).toNat = a.toNat + tempo.toNat := by
  have := tempo.isLt
  rw [BitVec.toNat_add, BitVec.toNat_setWidth]
  omega

/-- At a clock pulse the accumulator keeps what is above the threshold: no drift (R235). -/
theorem clkAcc_sub_toNat {a : BitVec 32} {tempo : BitVec 8} (ha : a.toNat < 2500000)
    (h : ¬ a.toNat + tempo.toNat < 2500000) :
    (a + tempo.setWidth 32 - 2500000).toNat = a.toNat + tempo.toNat - 2500000 := by
  have hle : (2500000 : BitVec 32) ≤ a + tempo.setWidth 32 := by
    rw [BitVec.le_def, clkAcc_add_toNat tempo ha]
    exact Nat.le_of_not_lt h
  rw [BitVec.toNat_sub_of_le hle, clkAcc_add_toNat tempo ha]
  rfl

/-- A tick that stays within the step, in its pulse or into the next one. -/
theorem Clocked.withinStep {s t u : State} {k q : Nat} (h : Clocked s k q t) (hrt : u.rt = { t.rt with
      clkAcc := u.rt.clkAcc, pulse := u.rt.pulse }) (hprog : u.prog = t.prog) (ha : u.rt.clkAcc.toNat < 2500000)
    (hp : u.rt.pulse.toNat ≤ 5) (hpos : clockPosition u.rt = clockPosition t.rt + t.prog.tempo.toNat)
    (hplays : plays u.history = plays t.history) : Clocked s (k + 1) q u where
  view := by rw [hrt, h.view]
  running := by rw [hrt, h.running]
  prog := hprog.trans h.prog
  clkAcc := ha
  pulse := hp
  position := by rw [hpos, Nat.succ_mul, ← Nat.add_assoc, h.position, h.prog, Nat.add_assoc]
  cur := by rw [hrt, h.cur]
  requests := hplays.trans h.requests

/-- A tick that starts the next step. -/
theorem Clocked.nextStep {s t : State} {k q : Nat} {a : BitVec 32} (h : Clocked s k q t) (ha : a.toNat < 2500000)
    (hpos : a.toNat + 15000000 = clockPosition t.rt + t.prog.tempo.toNat) :
    Clocked s (k + 1) (q + 1)
      (fireStep { t with rt := { t.rt with clkAcc := a, pulse := 0, cur := t.rt.cur + 1 } }) := by
  have hcur : t.rt.cur + 1 = s.rt.cur + BitVec.ofNat 4 (q + 1) := by
    rw [h.cur, BitVec.ofNat_add, BitVec.add_assoc]
    rfl
  obtain ⟨l, c, hrt⟩ := syncStart_rt_exists { t with
    rt := { t.rt with clkAcc := a, pulse := 0, cur := t.rt.cur + 1 } }
  constructor <;> simp only [fireStep_rt, fireStep_prog, hrt]
  · exact h.view
  · exact h.running
  · exact h.prog
  · exact ha
  · decide
  · have hold := h.position
    have hzero : (0 : BitVec 3).toNat = 0 := rfl
    rw [h.prog] at hpos
    simp only [clockPosition, Nat.succ_mul k, hzero] at hold hpos ⊢
    omega
  · exact hcur
  · rw [fireStep_plays, h.requests, List.range_succ, List.filterMap_append, List.append_assoc]
    simp only [h.prog, hcur]
    congr 1

/-- A tick adds the tempo: within the pulse, into the next pulse of the step, or into the next step. -/
theorem Clocked.clockAccumulate {s t : State} {k q : Nat} (h : Clocked s k q t) :
    ∃ q', Clocked s (k + 1) q' (clockAccumulate t) := by
  have hclk := h.clkAcc
  have hpulse := h.pulse
  have htempo := t.prog.tempo.isLt
  have hadd := clkAcc_add_toNat t.prog.tempo hclk
  rw [clockAccumulate_eq]
  by_cases hlt : t.rt.clkAcc.toNat + t.prog.tempo.toNat < 2500000
  · rw [if_pos hlt]
    refine ⟨q, h.withinStep rfl rfl (hadd ▸ hlt) hpulse ?_ rfl⟩
    simp only [clockPosition]
    omega
  · have hsub := clkAcc_sub_toNat hclk hlt
    rw [if_neg hlt]
    by_cases h5 : t.rt.pulse = 5
    · rw [if_pos h5]
      refine ⟨q + 1, h.nextStep (by omega) ?_⟩
      have h5' : t.rt.pulse.toNat = 5 := congrArg BitVec.toNat h5
      simp only [clockPosition]
      omega
    · have h5' : t.rt.pulse.toNat ≠ 5 := fun e => h5 (BitVec.eq_of_toNat_eq e)
      have hinc : (t.rt.pulse + 1).toNat = t.rt.pulse.toNat + 1 :=
        BitVec.toNat_add_of_lt (show t.rt.pulse.toNat + 1 < 2 ^ 3 by omega)
      rw [if_neg h5]
      refine ⟨q, h.withinStep ?_ ?_ ?_ ?_ ?_ (pulseEvent_plays _)⟩ <;>
        simp only [pulseEvent_rt, pulseEvent_prog, clockPosition] <;> omega

/-- The whole timebase tick: the sync countdown before and the guard after leave the clock alone (R230). -/
theorem Clocked.timebaseTick {s t : State} {k q : Nat} (h : Clocked s k q t) :
    ∃ q', Clocked s (k + 1) q' (timebaseTick t) := by
  have hsync : Clocked s k q (syncCountdown t) := by
    apply h.congr <;> simp
  obtain ⟨q', hclock⟩ := hsync.clockAccumulate
  refine ⟨q', ?_⟩
  rw [timebaseTick_open h.view, if_pos h.running]
  apply hclock.congr <;> simp [guardCountdown_rt]

/-- Being a number of ticks on from `s` is counted tick by tick. -/
theorem countsTicks_clocked (s : State) : CountsTicks fun k t => ∃ q, Clocked s k q t where
  tick _ _ h := h.elim fun _ h => h.timebaseTick
  congr _ _ _ h hrt hprog hplays := h.elim fun q h =>
    ⟨q, h.congr (by rw [hrt]) (by rw [hrt]) (by rw [hrt]) (by rw [hrt]) (by rw [hrt]) hprog hplays⟩

/-- A run of an idle host takes a legal Running state on by the ticks of its cycles. -/
theorem clocked_of_run {s t : State} {n : Nat} (hpend : s.pending = []) (hv : s.rt.view = true)
    (hr : s.rt.running = true) (hp : s.rt.pulse.toNat ≤ 5) (hc : s.rt.clkAcc.toNat < 2500000)
    (hrun : Sys2Proof.core.run n s = .next t) : ∃ q, Clocked s (timebaseTicks s.cycle n) q t := by
  have h := (countsTicks_clocked s).run n ⟨0, Clocked.refl hv hr hp hc⟩ hpend hrun
  rwa [Nat.zero_add] at h

/-! ## The laws (R235, R242) -/

/-- The number of step events is the number of whole steps in the distance the clock has gone. -/
theorem Clocked.fired_eq {s t : State} {k q : Nat} (h : Clocked s k q t) :
    (clockPosition s.rt + k * s.prog.tempo.toNat) / 15000000 = q := by
  have hclk := h.clkAcc
  have hpulse := h.pulse
  have hpos := h.position
  unfold clockPosition at *
  omega

/-- Accumulator, pulse and step are the quotients and remainders of the distance the clock has gone (R235). -/
theorem Clocked.closedForm {s t : State} {k q : Nat} (h : Clocked s k q t) :
    let total := clockPosition s.rt + k * s.prog.tempo.toNat
    t.rt.clkAcc.toNat = total % 2500000 ∧ t.rt.pulse.toNat = total / 2500000 % 6
      ∧ t.rt.cur.toNat = (s.rt.cur.toNat + total / 15000000) % 16 := by
  have hclk := h.clkAcc
  have hpulse := h.pulse
  intro total
  have htotal : total = 15000000 * q + (t.rt.clkAcc.toNat + 2500000 * t.rt.pulse.toNat) := h.position
  refine ⟨by omega, by omega, ?_⟩
  rw [h.fired_eq, h.cur, BitVec.toNat_add, BitVec.toNat_ofNat]
  omega

/-- Step `j` fires on tick `ceil(15,000,000 j / tempo)`: before that tick `j - 1` whole steps have passed, after it `j`
(R235). -/
theorem stepsPassed_at_ceil {tempo j k : Nat} (h0 : 0 < tempo) (h : tempo ≤ 140) (hj : 1 ≤ j) :
    (k + 1 = (15000000 * j + tempo - 1) / tempo → k * tempo / 15000000 = j - 1)
      ∧ (k = (15000000 * j + tempo - 1) / tempo → k * tempo / 15000000 = j) := by
  have hlo := Nat.div_mul_le_self (15000000 * j + tempo - 1) tempo
  have hhi := Nat.lt_div_mul_add (a := 15000000 * j + tempo - 1) h0
  constructor <;> intro hk <;> rw [← hk] at hlo hhi
  · rw [Nat.succ_mul k] at hlo hhi
    omega
  · omega

/-- Settles O55: by induction over the cycles, the clock has gone `k * tempo` tempo units. -/
theorem stepPeriodLaw : Obligations.StepPeriodLaw := by
  intro s t n hpend hv hr hp hc htempo hrun
  obtain ⟨q, h⟩ := clocked_of_run hpend hv hr hp hc hrun
  obtain ⟨hclk, hpulse, hcur⟩ := h.closedForm
  refine ⟨⟨h.view, h.running, h.prog, hclk, hpulse, hcur⟩, ?_⟩
  intro j hj h0 hclk0 hpulse0
  obtain ⟨hbefore, hafter⟩ := stepsPassed_at_ceil (k := timebaseTicks s.cycle n) h0 htempo hj
  have hstart : clockPosition s.rt = 0 := by rw [clockPosition, hclk0, hpulse0]; rfl
  rw [hstart, Nat.zero_add] at hcur
  exact ⟨fun hk => by rw [hcur, hbefore hk], fun hk => by rw [hcur, hafter hk]⟩

/-- Settles O56: the requests are those of the step events fired, as many as whole steps have passed. -/
theorem patternPassLaw : Obligations.PatternPassLaw := by
  intro s t n hpend hv hr hp hc _ hrun
  obtain ⟨q, h⟩ := clocked_of_run hpend hv hr hp hc hrun
  have hreq := h.requests
  rwa [← h.fired_eq] at hreq

end Sys2Proof.Machine
end

section
/-! PROOFS (sequencer, 42_sequencer.md). The blink of the cursor over the cycles of an idle host (R205, R232). -/

namespace Sys2Proof.Machine

open Sys2Proof.Safety

theorem syncCountdown_of_zero {s : State} (h : s.rt.syncCnt = 0) : syncCountdown s = s := by
  simp [syncCountdown, h]

theorem guardCountdown_of_zero {s : State} (h : s.rt.guard = 0) : guardCountdown s = s := by
  simp [guardCountdown, h]

@[simp] theorem blinkTimer_guard (s : State) : (blinkTimer s).rt.guard = s.rt.guard := by
  rw [blinkTimer_rt, apply_ite Runtime.guard, ite_self]

/-- In Idle, with no sync pulse and no guard running, the tick is the blink timer alone (R230). -/
theorem timebaseTick_idle {s : State} (hv : s.rt.view = true) (hr : s.rt.running = false) (hd : s.rt.dual = false)
    (hs : s.rt.syncCnt = 0) (hg : s.rt.guard = 0) : timebaseTick s = blinkTimer s := by
  rw [timebaseTick_open hv, syncCountdown_of_zero hs, hr, hd]
  exact guardCountdown_of_zero ((blinkTimer_guard s).trans hg)

/-- `t` has the runtime `r` but for the blink, which is `k` ticks into its course from a reset: 750,000 on, 250,000 off
(R232). -/
structure Blinking (r : Runtime) (k : Nat) (t : State) : Prop where
  rest : t.rt = { r with blinkOn := t.rt.blinkOn, blinkCnt := t.rt.blinkCnt }
  on : t.rt.blinkOn = decide (k % 1000000 < 750000)
  cnt : t.rt.blinkCnt.toNat = if k % 1000000 < 750000 then k % 1000000 else k % 1000000 - 750000

/-- The blink timer takes the blink one tick further in its course. -/
theorem Blinking.blinkTimer {r : Runtime} {k : Nat} {t : State} (h : Blinking r k t) :
    Blinking r (k + 1) (blinkTimer t) := by
  obtain ⟨hrest, hon, hcnt⟩ := h
  have hinc : t.rt.blinkCnt.toNat + 1 < 2 ^ 32 := by
    rw [hcnt]
    split <;> omega
  have hphase : t.rt.blinkCnt.toNat + 1 ≥ (if t.rt.blinkOn = true then 750000 else 250000) ↔
      k % 1000000 = 749999 ∨ k % 1000000 = 999999 := by
    rw [hcnt, hon]
    by_cases hk : k % 1000000 < 750000 <;> simp only [hk, decide_true, decide_false, if_true, if_false,
      Bool.false_eq_true] <;> omega
  by_cases hk : k % 1000000 = 749999 ∨ k % 1000000 = 999999
  · have hrt := (blinkTimer_rt t).trans (if_pos (hphase.mpr hk))
    refine ⟨by rw [hrt, hrest], ?_, ?_⟩ <;> simp only [hrt]
    · rw [hon, ← decide_not, decide_eq_decide]
      omega
    · have hzero : (0 : BitVec 32).toNat = 0 := rfl
      rw [hzero]
      split <;> omega
  · have hrt := (blinkTimer_rt t).trans (if_neg fun h => hk (hphase.mp h))
    refine ⟨by rw [hrt, hrest], ?_, ?_⟩ <;> simp only [hrt]
    · rw [hon, decide_eq_decide]
      omega
    · have hone : (1 : BitVec 32).toNat = 1 := rfl
      rw [BitVec.toNat_add_of_lt (by rwa [hone]), hone, hcnt]
      split <;> split <;> omega

/-- In Idle the blink's course is counted tick by tick. -/
theorem countsTicks_blinking {r : Runtime} (hv : r.view = true) (hr : r.running = false) (hd : r.dual = false)
    (hs : r.syncCnt = 0) (hg : r.guard = 0) : CountsTicks (Blinking r) where
  tick k t h := by
    rw [timebaseTick_idle (by rw [h.rest, hv]) (by rw [h.rest, hr]) (by rw [h.rest, hd]) (by rw [h.rest, hs])
      (by rw [h.rest, hg])]
    exact h.blinkTimer
  congr k t u h hrt _ _ := ⟨by rw [hrt]; exact h.rest, by rw [hrt]; exact h.on, by rw [hrt]; exact h.cnt⟩

/-- Settles O57: a just reset blink is 0 ticks into its course, and a run takes it on by the run's ticks. -/
theorem blinkLaw : Obligations.BlinkLaw := by
  intro s t n hpend hv hr hd hon hcnt hs hg hrun
  have hstart : Blinking s.rt 0 s := ⟨rfl, hon, by rw [hcnt]; rfl⟩
  have h := (countsTicks_blinking hv hr hd hs hg).run n hstart hpend hrun
  rw [Nat.zero_add] at h
  exact ⟨h.rest, by rw [h.on, decide_eq_true_iff], h.cnt⟩

end Sys2Proof.Machine
end

section
/-! PROOFS (sequencer, 42_sequencer.md). The sequencer's procedures as whole states, and its commands once accepted
(R201-R222). -/

namespace Sys2Proof.Machine

open Sys2Proof.Safety

/-! ## The procedures (R152, R201-R205) -/

/-- `StopVoice` as a whole state (41_voice.md R152). -/
theorem stopVoice_eq (s : State) : stopVoice s = { s with
    rt := { s.rt with heldValid := false, heldKey := 0 }
    voice := if s.voice.active = true then { s.voice with active := false }
      else if s.voice.busy = true then s.voice else { s.voice with duty := 0 }
    ifc := if s.voice.active = true then { s.ifc with cmdReady := false } else s.ifc
    history := if s.voice.active = true ∨ s.voice.busy = true then s.history else (s.now, .pwm 0) :: s.history } := by
  apply State.ext_of_fields <;> simp [stopVoice_voice, stopVoice_ifc, stopVoice_history, sounding_iff]

/-- `StopSeq` as a whole state (R204). -/
theorem stopSeq_eq (s : State) : stopSeq s = { s with
    rt := if s.rt.running = true then
        { s.rt with
          running := false, blinkOn := true, blinkCnt := 0, syncLevel := false, syncCnt := 0, clkAcc := 0, pulse := 0,
          guard := 0 }
      else s.rt } := by
  apply State.ext_of_fields <;> simp [stopSeq_rt]

/-- Settles O28: each field a step event changes, and that it changes no other. -/
theorem stepEventEffects : Obligations.StepEventEffects := by
  intro s
  apply State.ext_of_fields <;>
    simp [syncStart_rt, fireStep_ifc, fireStep_history, Config.syncWidthTb, Config.midiClockByte, irqStep]

/-! ## Opening and closing the view (R210, R211) -/

/-- Settles O26: STATE with the view open, else the reset values of `S` and `V`. -/
theorem seqOpenReinitialises : Obligations.SeqOpenReinitialises := by
  intro s hready
  constructor <;> intro hv
  · rw [exec_open .seqOpen hready hv, rule, if_pos hv]
    rfl
  · rw [exec_eq_accept, accept_eq, if_neg (by simp [hready]), if_neg (by simp [Instr.opc, needsView]), rule,
      if_neg (by simp [hv])]
    rfl

/-- Settles O27: `StopSeq`, leaving DualMode, `StopVoice`, closing the view. -/
theorem seqExitClosesTheView : Obligations.SeqExitClosesTheView := by
  intro s hopen
  apply exec_of_open hopen
  cases hr : s.rt.running <;> simp [rule, stopVoice_eq, stopSeq_eq, hr]

/-! ## The run (R212-R214) -/

theorem runSeq_refused {during : Bool} {s : State}
    (h : s.rt.running = true ∨ s.rt.dual = true ∧ during = false) : runSeq during s = raise .state 0x12 s := by
  unfold runSeq
  obtain hr | hd := h
  · rw [if_pos hr]
    rfl
  · rw [if_pos hd, ite_self]
    rfl

theorem runSeq_accepted {during : Bool} {s : State} (hr : s.rt.running = false)
    (hd : ¬ (s.rt.dual = true ∧ during = false)) : runSeq during s =
      fireStep { s with rt := { s.rt with running := true, cur := 0, clkAcc := 0, pulse := 0 } } := by
  rw [runSeq, if_neg (by simp [hr]), if_neg hd]
  rfl

/-- Settles O29: refused while Running or in DualMode, else the step event of step 0. -/
theorem runStartsAtStepZero : Obligations.RunStartsAtStepZero := fun _ hopen =>
  ⟨fun h => exec_of_open hopen (runSeq_refused (h.imp_right fun hd => ⟨hd, rfl⟩)),
    fun hr hd => exec_of_open hopen (runSeq_accepted hr (by simp [hd])),
    fun hr => runSeq_refused (.inl hr), fun hr => runSeq_accepted hr (by simp)⟩

/-- Settles O30: `StopSeq` in both cases, and `BlinkReset`. -/
theorem stopEndsTheRun : Obligations.StopEndsTheRun := by
  intro s hopen
  refine ⟨fun hr => exec_of_open hopen ?_, fun hr => exec_of_open hopen ?_, rfl⟩ <;> simp [rule, stopSeq_eq, hr]

/-- The flip of the dual flag as a whole state (R214). -/
theorem flipDual_eq (s : State) : flipDual s =
    if s.rt.dual = false then { s with rt := { s.rt with dual := true } }
    else { s with
      rt := { s.rt with
        dual := false, heldValid := false, heldKey := 0,
        blinkOn := (if s.rt.running = true then s.rt.blinkOn else true),
        blinkCnt := (if s.rt.running = true then s.rt.blinkCnt else 0) }
      voice := if s.voice.active = true then { s.voice with active := false }
        else if s.voice.busy = true then s.voice else { s.voice with duty := 0 }
      ifc := if s.voice.active = true then { s.ifc with cmdReady := false } else s.ifc
      history := if s.voice.active = true ∨ s.voice.busy = true then s.history else (s.now, .pwm 0) :: s.history } := by
  unfold flipDual
  cases hd : s.rt.dual
  · rfl
  · cases hr : s.rt.running <;> simp [stopVoice_eq, blinkReset, hr]

/-- Settles O31: refused while Running, else the flip; with `DUAL_DURING_RUN = 1` the guard decides. -/
theorem toggleDualFlips : Obligations.ToggleDualFlips := by
  refine ⟨fun s hopen => ⟨fun hr => exec_of_open hopen ?_, fun hr => exec_of_open hopen ?_⟩, fun s => ?_⟩
  · rw [rule, toggleDual, if_pos hr]
    rfl
  · rw [rule, toggleDual, if_neg (by simp [hr]), flipDual_eq]
  · simp only [toggleDual, if_true, gt_iff_lt, toNat_pos_iff, ne_eq, ite_not, flipDual_eq]
    rfl

/-! ## Editing the pattern (R206, R215-R217) -/

/-- Settles O32: refused in DualMode, else the write of the current step and its preview. -/
theorem assignWritesTheStep : Obligations.AssignWritesTheStep := by
  intro k s hopen
  refine ⟨fun hd => exec_of_open hopen (if_pos hd), fun hd => ?_⟩
  have hn : (Config.keySampleMap k).toNat = k.toNat + 1 := by
    have hk := k.isLt
    have hone : (1 : BitVec 8).toNat = 1 := rfl
    rw [Config.keySampleMap, BitVec.toNat_add, BitVec.toNat_setWidth, hone]
    omega
  exact ⟨s.prog.setSlot s.rt.cur _, _, hn, exec_of_open hopen (if_neg (by simp [hd])), rfl,
    fun j => setSlot_slot s.prog s.rt.cur j _⟩

/-- Settles O33: the current step is emptied, and while Running the clock advances early. -/
theorem clearStepEmptiesTheStep : Obligations.ClearStepEmptiesTheStep := by
  intro s hopen
  exact ⟨s.prog.setSlot s.rt.cur Slot.empty, rfl, fun j => setSlot_slot s.prog s.rt.cur j _, exec_of_open hopen rfl⟩

/-- Settles O34: every step is emptied, so the step an early advance fires plays nothing. -/
theorem clearPatternEmptiesAllSteps : Obligations.ClearPatternEmptiesAllSteps := by
  intro s hopen
  refine ⟨(clearSlots s).prog, rfl, clearSlots_slot s, exec_of_open hopen rfl, fun t ht => ?_⟩
  obtain rfl := Host.Outcome.next.inj ((exec_of_open hopen rfl).symm.trans ht)
  simp only [rule]
  split
  · rw [earlyAdvance, fireStep_plays]
    show plays s.history ++ (slotPlay s.prog.folder ((clearSlots s).prog.slot (s.rt.cur + 1))).toList = _
    rw [clearSlots_slot]
    exact List.append_nil _
  · rfl

/-! ## The cursor, the tempo and the clock mode (R218-R222) -/

/-- Settles O35: refused while Running, else the move modulo 16. -/
theorem cursorMoves : Obligations.CursorMoves := by
  intro s hopen
  refine ⟨fun hr => ⟨exec_of_open hopen (if_pos hr), exec_of_open hopen (if_pos hr),
    fun i => exec_of_open hopen (if_pos hr)⟩, fun hr => ?_⟩
  have hn : ¬ s.rt.running = true := by simp [hr]
  refine ⟨⟨s.rt.cur + 1, BitVec.toNat_add _ _, exec_of_open hopen (if_neg hn)⟩,
    ⟨s.rt.cur - 1, ?_, exec_of_open hopen (if_neg hn)⟩, fun i => exec_of_open hopen (if_neg hn)⟩
  rw [BitVec.toNat_sub, Nat.add_comm]
  rfl

/-- Settles O36: the legal tempos and modes are written, the others are RANGE. -/
theorem tempoAndClockMode : Obligations.TempoAndClockMode := by
  intro s hopen
  refine ⟨fun x hx => ⟨fun h => exec_of_open hopen ?_, fun hlo hhi => ?_⟩, fun x => ⟨?_, fun hx => ?_⟩⟩
  · rw [rule, (tempoLegal_eq_false x).mpr h]
    rfl
  · refine ⟨BitVec.ofNat 8 x, ?_, exec_of_open hopen (if_pos ((tempoLegal_iff x).mpr ⟨hlo, hhi⟩))⟩
    rw [BitVec.toNat_ofNat, Nat.mod_eq_of_lt hx]
  · rintro rfl
    exact exec_of_open hopen rfl
  · obtain ⟨c, hc⟩ := Option.ne_none_iff_exists'.mp (mt (ClockMode.ofCode?_eq_none x).mp hx)
    refine ⟨c, ClockMode.code_of_ofCode? hc, exec_of_open hopen ?_⟩
    rw [rule, hc]
    rfl

end Sys2Proof.Machine
end

section
/-! PROOFS (sequencer, 42_sequencer.md). The timebase tick as a whole state (R230-R234). -/

namespace Sys2Proof.Machine

open Sys2Proof.Safety

theorem syncCountdown_eq (s : State) : syncCountdown s = { s with
    rt := { s.rt with
      syncCnt := (if s.rt.syncCnt = 0 then 0 else s.rt.syncCnt - 1),
      syncLevel := (if s.rt.syncCnt = 1 then false else s.rt.syncLevel) } } := by
  apply State.ext_of_fields <;> simp [syncCountdown_rt]

theorem guardCountdown_eq (s : State) : guardCountdown s = { s with
    rt := { s.rt with guard := if s.rt.guard = 0 then 0 else s.rt.guard - 1 } } := by
  apply State.ext_of_fields <;> simp [guardCountdown_rt]

theorem blinkTimer_eq (s : State) : blinkTimer s = { s with
    rt := if s.rt.blinkCnt.toNat + 1 ≥ (if s.rt.blinkOn = true then 750000 else 250000) then
        { s.rt with blinkOn := !s.rt.blinkOn, blinkCnt := 0 }
      else { s.rt with blinkCnt := s.rt.blinkCnt + 1 } } := by
  apply State.ext_of_fields <;> simp [blinkTimer_rt]

/-- Settles O54: the sync countdown, then the clock while Running or the blink in Idle, then the guard. -/
theorem timebaseTickRules : Obligations.TimebaseTickRules := by
  refine ⟨fun s => timebaseTick_closed, fun s hv hr hd => ?_, fun s hv hr hd => ?_, fun s hv hr hclk => ?_⟩ <;>
    rw [timebaseTick_open hv, guardCountdown_eq]
  · simp only [hr, hd, Bool.false_eq_true, if_false, if_true, syncCountdown_eq]
  · simp only [hr, hd, Bool.false_eq_true, if_false, blinkTimer_eq, syncCountdown_eq]
  · simp only [hr, if_true, clockAccumulate_eq, syncCountdown_eq, clkAcc_add_toNat s.prog.tempo hclk]

end Sys2Proof.Machine
end

section
/-! PROOFS (sequencer, 42_sequencer.md). The output levels and the display event (R238-R241, R306, R320-R325). -/

namespace Sys2Proof.Machine

open Sys2Proof.Safety

/-! ## The levels -/

/-- The interrupt line is high when a bit is both pending and enabled (60_exceptions.md R306). -/
theorem irqLine_iff (s : State) :
    irqLine s = true ↔ ∃ b < 4, s.ifc.irqPend.getLsbD b = true ∧ s.ifc.irqEn.getLsbD b = true := by
  rw [irqLine, decide_eq_true_iff, Ne, BitVec.eq_of_getLsbD_eq_iff]
  simp

/-- Bit `i` of the grid is the cell of step `i` (R240). -/
theorem grid_getLsbD (s : State) (i : BitVec 4) : (grid s).getLsbD i.toNat = cell s i := by
  obtain ⟨⟨n, hn⟩⟩ := i
  simp only [grid, cellBit, BitVec.getLsbD_append]
  interval_cases n <;> exact BitVec.getLsbD_ofBool _ 0

theorem cell_iff (s : State) (i : BitVec 4) : cell s i = true ↔ s.rt.view = true
    ∧ ((s.prog.slot i).valid = true
      ∨ (i = s.rt.cur ∧ (s.rt.running = true ∨ s.rt.dual = true ∨ s.rt.blinkOn = true))) := by
  simp only [cell, Bool.and_eq_true, Bool.or_eq_true, decide_eq_true_iff, or_assoc]

theorem syncOut_iff (s : State) : syncOut s = true ↔
    s.rt.view = true ∧ s.rt.running = true ∧ s.prog.clock = .syncPulse ∧ s.rt.syncLevel = true := by
  simp only [syncOut, Bool.and_eq_true, decide_eq_true_iff, and_assoc]

/-! ## The strobes -/

/-- The duty strobe is high in a cycle that emitted a PWM event (R320). -/
theorem dutyStb_iff (s : State) : (pins s).dutyStb = true ↔ ∃ d, .pwm d ∈ cycleEvents s := by
  simp only [pins, List.any_eq_true]
  constructor
  · rintro ⟨e, he, hpwm⟩
    cases e with
    | pwm d => exact ⟨d, he⟩
    | play _ _ | volume _ | midi _ | disp _ | errlog _ _ => cases hpwm
  · rintro ⟨d, hd⟩
    exact ⟨_, hd, rfl⟩

theorem playbackOf_eq_some (e : Event) (f a : BitVec 8) (k : PlayKind) :
    playbackOf e = some { kind := k, folder := f, arg := a } ↔
      (k = .play ∧ e = .play f a) ∨ (k = .volume ∧ f = 0 ∧ e = .volume a) := by
  cases e <;> simp [playbackOf, @eq_comm _ _ k, @eq_comm _ _ f, and_comm]

/-- The playback port carries the play and volume requests (R322). -/
theorem mem_filterMap_playbackOf (l : List Event) (f a : BitVec 8) (k : PlayKind) :
    { kind := k, folder := f, arg := a } ∈ l.filterMap playbackOf ↔
      (k = .play ∧ .play f a ∈ l) ∨ (k = .volume ∧ f = 0 ∧ .volume a ∈ l) := by
  simp only [List.mem_filterMap, playbackOf_eq_some]
  constructor
  · rintro ⟨e, he, ⟨hk, rfl⟩ | ⟨hk, hf, rfl⟩⟩
    · exact .inl ⟨hk, he⟩
    · exact .inr ⟨hk, hf, he⟩
  · rintro (⟨hk, he⟩ | ⟨hk, hf, he⟩)
    · exact ⟨_, he, .inl ⟨hk, rfl⟩⟩
    · exact ⟨_, he, .inr ⟨hk, hf, rfl⟩⟩

theorem midiOf_eq_some (e : Event) (b : Byte) : midiOf e = some b ↔ e = .midi b := by
  cases e <;> simp [midiOf]

theorem mem_filterMap_midiOf (l : List Event) (b : Byte) : b ∈ l.filterMap midiOf ↔ .midi b ∈ l := by
  simp only [List.mem_filterMap, midiOf_eq_some, exists_eq_right]

/-- The MIDI port carries each byte as often as it was emitted (R323). -/
theorem count_filterMap_midiOf (l : List Event) (b : Byte) : (l.filterMap midiOf).count b = l.count (.midi b) := by
  have hbeq : ∀ e, (midiOf e == some b) = (e == .midi b) := fun e => by
    rw [Bool.eq_iff_iff, beq_iff_eq, beq_iff_eq, midiOf_eq_some]
  rw [List.count_filterMap, List.count_eq_countP]
  simp only [hbeq]

/-- An event of the cycle just performed is in the history. -/
theorem mem_history_of_cycleEvents {s : State} {e : Event} (h : e ∈ cycleEvents s) : ∃ n, (n, e) ∈ s.history := by
  unfold cycleEvents at h
  rw [List.mem_reverse, List.mem_map] at h
  obtain ⟨x, hx, rfl⟩ := h
  exact ⟨x.1, (List.takeWhile_subset _) hx⟩

/-- Settles O52: each level and each strobe by its own lemma. -/
theorem outputLevels : Obligations.OutputLevels := by
  intro s
  refine ⟨irqLine_iff s, syncOut_iff s, rfl, fun i => ?_, rfl, dutyStb_iff s, mem_filterMap_playbackOf _,
    mem_filterMap_midiOf _, count_filterMap_midiOf _, fun hs b hb => ?_⟩
  · rw [← cell_iff, ← grid_getLsbD]
    rfl
  · obtain ⟨n, hn⟩ := mem_history_of_cycleEvents ((mem_filterMap_midiOf _ b).mp hb)
    exact (hs _ hn).2

/-! ## The display event (R241) -/

/-- A cycle's events are those it added to a history of earlier cycles. -/
theorem cycleEvents_of_grows {s t : State} {new : List (Nat × Event)} (hs : HistoryOk s) (hnow : t.now = s.now + 1)
    (h : t.history = new ++ s.history) (hnew : ∀ x ∈ new, x.1 = s.now) :
    cycleEvents t = (new.map Prod.snd).reverse := by
  unfold cycleEvents
  have hold : s.history.takeWhile (fun x => decide (x.1 + 1 = s.now + 1)) = [] := by
    cases hh : s.history with
    | nil => rfl
    | cons x rest =>
      obtain ⟨hlt, -⟩ := hs x (hh ▸ List.mem_cons_self)
      exact List.takeWhile_cons_of_neg (by simp; omega)
  rw [h, hnow, List.takeWhile_append_of_pos (by simpa using hnew), hold, List.append_nil]

/-- No operation of a cycle emits a display event: that is the end of the cycle's (R241). -/
theorem disp_notMem_of_eventOk {new : List (Nat × Event)} (h : ∀ x ∈ new, EventOk x.2) (d : BitVec 16) :
    .disp d ∉ (new.map Prod.snd).reverse := by
  rw [List.mem_reverse, List.mem_map]
  rintro ⟨x, hx, hd⟩
  have hok := h x hx
  rw [hd] at hok
  exact hok

theorem grid_endCycle (before : BitVec 16) (s : State) : grid (endCycle before s) = grid s := by
  simp only [grid, cellBit, cell, endCycle_rt, endCycle_prog]

/-- What a cycle with RST low adds to the history: the events of its operations, then the display event if the grid has
changed. -/
theorem step_history {s t : State} (hrst : (nextInput s).rst = false) (h : step s = .next t) :
    ∃ new, (∀ x ∈ new, x.1 = s.now ∧ EventOk x.2) ∧ t.now = s.now + 1 ∧ t.history =
      (if grid t = grid s then new else (s.now, .disp (grid t)) :: new) ++ s.history := by
  obtain ⟨u, hu, hstep⟩ := step_noRst hrst
  obtain rfl := Host.Outcome.next.inj (hstep.symm.trans h)
  obtain ⟨-, hnow, -, hacc⟩ := hostAccess_own hu
  obtain ⟨new, hnew, hok⟩ : Grows (beginCycle s) (audioPhase (timebasePhase u)) :=
    (hacc.trans hnow (grows_timebasePhase u)).trans (by simp [hnow]) (grows_audioPhase _)
  refine ⟨new, hok, by simp [hnow], ?_⟩
  rw [grid_endCycle, endCycle_history, hnew]
  split
  · rfl
  · simp [hnow]

/-- Settles O53: of a cycle's events only the one its end adds is a display event. -/
theorem displayEventOnChange : Obligations.DisplayEventOnChange := by
  intro s t hs hrst hstep d
  obtain ⟨new, hok, hnow, hhist⟩ := step_history hrst hstep
  have hnone := disp_notMem_of_eventOk (fun x hx => (hok x hx).2) d
  by_cases hg : grid t = grid s
  · rw [if_pos hg] at hhist
    rw [cycleEvents_of_grows hs hnow hhist fun x hx => (hok x hx).1]
    exact ⟨fun h => absurd h hnone, fun h => absurd hg h.2⟩
  · rw [if_neg hg] at hhist
    rw [cycleEvents_of_grows hs hnow hhist (List.forall_mem_cons.mpr ⟨rfl, fun x hx => (hok x hx).1⟩)]
    rw [List.map_cons, List.reverse_cons, List.mem_append, or_iff_right hnone, List.mem_singleton, Event.disp.injEq]
    exact (and_iff_left hg).symm

end Sys2Proof.Machine
end

section
/-! PROOFS (input events, 43_input_events.md). The routed key and encoder events once accepted (R261-R263). -/

namespace Sys2Proof.Machine

open Sys2Proof.Safety

/-! ## The keys (R261, R262) -/

/-- A key held, or a note that sounds or drains, hides a live key press. -/
theorem liveKey_of_occupied (k : BitVec 4) {s : State}
    (h : s.rt.heldValid = true ∨ s.voice.active = true ∨ s.voice.busy = true) : liveKey k s = s := by
  obtain hheld | hs := h
  · exact if_pos hheld
  · rw [liveKey, if_pos ((sounding_iff s).mpr hs), ite_self]

/-- Else a live key press starts the key's note, as `NOTE_ON` does, and holds the key. -/
theorem liveKey_of_free (k : BitVec 4) {s : State} (hheld : s.rt.heldValid = false) (hs : sounding s = false) :
    liveKey k s = { startNote (s.prog.keyFreq k).toNat s with rt := { s.rt with heldValid := true, heldKey := k } } := by
  rw [liveKey, if_neg (by simp [hheld]), if_neg (by simp [hs])]
  rfl

theorem exec_noteOn_of_silent (x : Nat) {s : State} (hopen : Open s) (hs : sounding s = false) :
    exec (.noteOn x) s = .next (startNote x s) :=
  exec_of_open hopen (if_neg (by simp [hs]))

/-- Settles O37: outside DualMode both commands are `AssignStep`; in DualMode the note started is the one `NOTE_ON`
starts at the key's frequency (O20). -/
theorem keyPressPlaysOrEdits : Obligations.KeyPressPlaysOrEdits := by
  intro k s hopen
  refine ⟨fun hd => ?_, fun hd hoccupied => ?_, fun hd hheld ha hb => ?_⟩
  · have hassign : rule (.assign k) s = assignStep k s := if_neg (by simp [hd])
    rw [exec_of_open hopen hassign]
    exact exec_of_open hopen (if_neg (by simp [hd]))
  · exact exec_of_open hopen ((if_pos hd).trans (liveKey_of_occupied k hoccupied))
  · have hs : sounding s = false := (sounding_eq_false_iff s).mpr ⟨ha, hb⟩
    obtain ⟨f, hnote, hf, -⟩ := (noteOnStartsNote (s.prog.keyFreq k).toNat s (s.prog.keyFreq k).isLt hopen).2 ha hb
    rw [exec_noteOn_of_silent _ hopen hs] at hnote
    refine ⟨f, exec_of_open hopen ((if_pos hd).trans ?_), hf⟩
    rw [liveKey_of_free k hheld hs, Host.Outcome.next.inj hnote]

/-- The release of the held key is `NOTE_OFF`. -/
theorem exec_keyRelease_held {k : BitVec 4} {s : State} (hopen : Open s) (hheld : s.rt.heldValid = true)
    (hk : s.rt.heldKey = k) : exec (.keyRelease k) s = exec .noteOff s := by
  rw [exec_of_open (i := .noteOff) hopen rfl]
  exact exec_of_open hopen (if_pos ⟨hheld, hk⟩)

/-- Settles O38: the held key's release is `NOTE_OFF`, whose effect on a sounding note O21 states. -/
theorem keyReleaseStopsTheHeldKey : Obligations.KeyReleaseStopsTheHeldKey := by
  intro k s hopen
  refine ⟨exec_keyRelease_held hopen, fun hheld hk ha => ?_, fun hother => exec_of_open hopen (if_neg ?_)⟩
  · rw [exec_keyRelease_held hopen hheld hk]
    exact (noteOffStopsVoice s hopen).1 ha
  · rintro ⟨hheld, hk⟩
    obtain hnone | hne := hother
    · simp [hheld] at hnone
    · exact hne hk

/-! ## The encoder (R263) -/

/-- Settles O39: ignored outside DualMode, else the clamped sum of `MOD_UPDATE` (R157). -/
theorem encoderUpdatesInDualMode : Obligations.EncoderUpdatesInDualMode := by
  intro x s _ _ hopen
  constructor <;> intro hd
  · exact exec_of_open hopen (if_neg (by simp [hd]))
  · exact ⟨modSum s.prog.modval x, exec_of_open hopen (if_pos hd), modSum_toNat s.prog.modval x⟩

end Sys2Proof.Machine
end

section
/-! PROOFS (host misc, 44_host_misc.md). Which register an access reaches, and the register writes as whole states
(R284-R290). -/

namespace Sys2Proof.Machine

/-! ## Accesses and refusals -/

/-- Only a register's own offset reaches it, and only by a full word. -/
theorem accessed_eq_some {a : BitVec 8} {z : AccessSize} {r : Reg} (h : accessed? a z = some r) :
    z = AccessSize.word ∧ a.toNat = r.offset := by
  by_cases hz : z = AccessSize.word
  · rw [hz, accessed_word] at h
    exact ⟨hz, (Reg.offset_of_ofOffset h).symm⟩
  · rw [accessed_of_ne_word a hz] at h
    contradiction

/-- An access reaches some register or is rejected by R83-R85. -/
theorem accessed_eq_none_iff (a : BitVec 8) (z : AccessSize) :
    accessed? a z = none ↔ z ≠ AccessSize.word ∨ a.toNat % 4 ≠ 0 ∨ 0xDC ≤ a.toNat := by
  refine ⟨fun h => ?_, accessed_eq_none⟩
  by_contra hgood
  simp only [not_or, not_not, not_le] at hgood
  obtain ⟨rfl, haligned, hlt⟩ := hgood
  obtain ⟨r, hr⟩ := (Reg.exists_ofOffset_iff a).mpr ⟨haligned, hlt⟩
  rw [accessed_word, hr] at h
  contradiction

/-- A word write at a register's own offset is that register's write (R81, R283). -/
theorem hostWrite_offset {r : Reg} (hr : r ≠ .cmd) (v : Word) (s : State) :
    hostWrite (BitVec.ofNat 8 r.offset) AccessSize.word v s = .next (writeReg r v s) :=
  hostWrite_reached v s ((accessed_word _).trans r.ofOffset_offset) hr

/-- An error is seen in the history. -/
theorem ne_raise_of_history {s t : State} (h : t.history = s.history) : ¬ ∃ c, t = raise c regOpc s := by
  rintro ⟨c, rfl⟩
  exact List.cons_ne_self _ _ h

/-! ## `PROG_CFG` (R284) -/

/-- The values of `PROG_CFG` that R284 refuses with RANGE. -/
def ProgCfgIllegal (v : Word) : Prop :=
  (v.extractLsb' 8 8).toNat < 60 ∨ 140 < (v.extractLsb' 8 8).toNat ∨ v.extractLsb' 18 2 = 3 ∨ v.extractLsb' 20 3 = 7
    ∨ v.extractLsb' 24 3 = 0b100

/-- The write of `PROG_CFG` would change the waveform of a note that sounds or drains. -/
def ProgCfgHazard (v : Word) (s : State) : Prop :=
  v.extractLsb' 16 2 ≠ s.prog.wave.code ∧ (s.voice.active = true ∨ s.voice.busy = true)

/-- The Program with the six fields of `PROG_CFG` taken from `v`. -/
def Program.setCfg (p : Program) (v : Word) (clock : ClockMode) (target : Target) : Program :=
  { p with
    folder := v.extractLsb' 0 8, tempo := v.extractLsb' 8 8, wave := Wave.ofCode (v.extractLsb' 16 2), clock := clock,
    target := target, octave := v.extractLsb' 24 3 }

/-- The octave code R284 refuses is -4. -/
theorem octave_toInt_eq_neg_four (o : BitVec 3) : o.toInt = -4 ↔ o = 0b100 := by
  revert o; decide

theorem waveOfCode_eq_iff (c : BitVec 2) (w : Wave) : Wave.ofCode c = w ↔ c = w.code :=
  ⟨fun h => by rw [← h, Wave.code_ofCode], fun h => by rw [h, Wave.ofCode_code]⟩

/-- An illegal field is refused before anything else is looked at. -/
theorem writeProgCfg_of_illegal {v : Word} (s : State) (h : ProgCfgIllegal v) :
    writeProgCfg v s = raise .range regOpc s := by
  unfold writeProgCfg
  dsimp only
  split
  · next hclock htarget =>
    refine if_pos ?_
    rw [tempoLegal_eq_false, octave_toInt_eq_neg_four]
    obtain hlo | hhi | hcl | htg | hoc := h
    · exact .inl (.inl hlo)
    · exact .inl (.inr hhi)
    · rw [(ClockMode.ofCode?_eq_none _).mpr hcl] at hclock
      contradiction
    · rw [(Target.ofCode?_eq_none _).mpr htg] at htarget
      contradiction
    · exact .inr hoc
  · rfl

/-- Legal fields are written together, unless the waveform changes under a note. -/
theorem writeProgCfg_of_legal {v : Word} (s : State) (h : ¬ ProgCfgIllegal v) :
    ∃ clock target, clock.code = v.extractLsb' 18 2 ∧ target.code = v.extractLsb' 20 3 ∧ writeProgCfg v s =
      if Wave.ofCode (v.extractLsb' 16 2) ≠ s.prog.wave ∧ sounding s = true then raise .hazard regOpc s
      else { s with prog := s.prog.setCfg v clock target } := by
  simp only [ProgCfgIllegal, not_or] at h
  obtain ⟨hlo, hhi, hcl, htg, hoc⟩ := h
  obtain ⟨clock, hclock⟩ := Option.ne_none_iff_exists'.mp (mt (ClockMode.ofCode?_eq_none _).mp hcl)
  obtain ⟨target, htarget⟩ := Option.ne_none_iff_exists'.mp (mt (Target.ofCode?_eq_none _).mp htg)
  refine ⟨clock, target, ClockMode.code_of_ofCode? hclock, Target.code_of_ofCode? htarget, ?_⟩
  have hlegal : ¬ (tempoLegal (v.extractLsb' 8 8).toNat = false ∨ (v.extractLsb' 24 3).toInt = -4) := by
    rw [tempoLegal_eq_false, octave_toInt_eq_neg_four]
    exact not_or.mpr ⟨not_or.mpr ⟨hlo, hhi⟩, hoc⟩
  simp only [writeProgCfg, hclock, htarget]
  exact if_neg hlegal

/-- A write of `PROG_CFG` is refused, or writes the six fields and nothing else. -/
theorem writeProgCfg_cases (v : Word) (s : State) : (∃ c, writeProgCfg v s = raise c regOpc s)
    ∨ ∃ clock target, clock.code = v.extractLsb' 18 2 ∧ target.code = v.extractLsb' 20 3
      ∧ writeProgCfg v s = { s with prog := s.prog.setCfg v clock target } := by
  by_cases hill : ProgCfgIllegal v
  · exact .inl ⟨_, writeProgCfg_of_illegal s hill⟩
  · obtain ⟨clock, target, hclock, htarget, heq⟩ := writeProgCfg_of_legal s hill
    rw [heq]
    split
    · exact .inl ⟨_, rfl⟩
    · exact .inr ⟨clock, target, hclock, htarget, rfl⟩

theorem progCfgHazard_iff (v : Word) (s : State) :
    ProgCfgHazard v s ↔ Wave.ofCode (v.extractLsb' 16 2) ≠ s.prog.wave ∧ sounding s = true := by
  rw [ProgCfgHazard, sounding_iff, Ne, Ne, waveOfCode_eq_iff]

/-- Settles O48: RANGE for an illegal field, else HAZARD for the waveform of a note, else the six fields. -/
theorem progCfgWriteIsAllOrNothing : Obligations.ProgCfgWriteIsAllOrNothing := by
  intro v s
  have hwrite : hostWrite 0x18 AccessSize.word v s = .next (writeProgCfg v s) := rfl
  show (ProgCfgIllegal v → _) ∧ (¬ ProgCfgIllegal v → ProgCfgHazard v s → _)
    ∧ (¬ ProgCfgIllegal v → ¬ ProgCfgHazard v s → _)
  rw [hwrite, progCfgHazard_iff]
  refine ⟨fun hill => ?_, fun hleg hhaz => ?_, fun hleg hhaz => ?_⟩
  · rw [writeProgCfg_of_illegal s hill]
    rfl
  · obtain ⟨clock, target, -, -, heq⟩ := writeProgCfg_of_legal s hleg
    rw [heq, if_pos hhaz]
    rfl
  · obtain ⟨clock, target, hclock, htarget, heq⟩ := writeProgCfg_of_legal s hleg
    rw [heq, if_neg hhaz]
    exact ⟨s.prog.setCfg v clock target, rfl, rfl, rfl, Wave.code_ofCode _, hclock, htarget, rfl, rfl, rfl, rfl⟩

/-! ## The one-field registers (R285-R290) -/

/-- Settles O49: each write is its store, and the IRQ line is R306's. -/
theorem programRegisterWrites : Obligations.ProgramRegisterWrites := by
  intro v s
  refine ⟨rfl, ⟨_, rfl, rfl, ?_⟩, fun i => ?_, fun k => ?_⟩
  · rw [irqLine_iff]
    refine exists_congr fun b => and_congr_right fun hb => ?_
    simp [writeReg, hb]
  · exact ⟨s.prog.setSlot i (slotOf (v.getLsbD 8) (v.extractLsb' 0 8)), hostWrite_offset (r := .seq i) nofun v s, rfl,
      fun j => by rw [setSlot_slot]; cases v.getLsbD 8 <;> rfl⟩
  · exact ⟨s.prog.setKeyFreq k (v.extractLsb' 0 24), hostWrite_offset (r := .keyFreq k) nofun v s, rfl,
      fun j => setKeyFreq_keyFreq _ _ _ _⟩

/-- A write of ones clears exactly the bits it names. -/
theorem getLsbD_and_not_extract {n : Nat} (x : BitVec n) (v : Word) {b : Nat} (hb : b < n) :
    (x &&& ~~~(v.extractLsb' 0 n)).getLsbD b = (x.getLsbD b && !v.getLsbD b) := by
  simp [hb]

/-- The `ERR` write as a whole state (R288). -/
theorem writeErr_eq (v : Word) (s : State) : writeErr v s =
    (let e := s.ifc.err &&& ~~~(v.extractLsb' 0 6)
     { s with ifc := { s.ifc with
        err := e, lastCode := (if e = 0 then 0 else s.ifc.lastCode),
        lastOpc := (if e = 0 then 0 else s.ifc.lastOpc) } }) := by
  unfold writeErr
  dsimp only
  split <;> rfl

/-- Settles O50: both registers are written by clearing the bits named. -/
theorem clearingWrites : Obligations.ClearingWrites := fun v s =>
  ⟨⟨_, fun _ => getLsbD_and_not_extract s.ifc.err v, congrArg Host.Outcome.next (writeErr_eq v s)⟩,
    _, fun _ => getLsbD_and_not_extract s.ifc.irqPend v, rfl⟩

end Sys2Proof.Machine
end

section
/-! PROOFS (host misc, 44_host_misc.md). The commands of neither unit once accepted (R280, R281), and which operations
set and clear the pending bits (60_exceptions.md R305). -/

namespace Sys2Proof.Machine

open Sys2Proof.Safety

/-! ## `NOP` and `SET_VOLUME` (R280, R281) -/

/-- Settles O19: NOP is accepted with either view, and its rule changes nothing. -/
theorem nopChangesNothing : Obligations.NopChangesNothing := by
  intro s hready
  have hview : needsView Opc.nop = false := rfl
  rw [exec_eq_accept, accept_eq, if_neg (by simp [hready]), Instr.opc, if_neg (by simp [hview]), rule]

/-- Settles O40: RANGE above `VOLUME_MAX`, else the volume request. -/
theorem setVolumeRequests : Obligations.SetVolumeRequests := fun _ _ _ hopen =>
  ⟨fun h => exec_of_open hopen (if_pos h), fun h => exec_of_open hopen (if_neg (Nat.not_lt.mpr h))⟩

/-! ## The pending bits of a command (R305) -/

/-- DIRTY and STEP as pending bits. -/
def irqBits (dirty step : Bool) : BitVec 4 := (if dirty then irqDirty else 0) ||| (if step then irqStep else 0)

@[simp] theorem irqBits_none : irqBits false false = 0 := rfl

/-- `t` has the pending bits of `s` with DIRTY and STEP set as told, and no bit cleared. -/
def SetsIrq (dirty step : Bool) (s t : State) : Prop := t.ifc.irqPend = s.ifc.irqPend ||| irqBits dirty step

theorem SetsIrq.of_eq {s t : State} (h : t.ifc.irqPend = s.ifc.irqPend) : SetsIrq false false s t := by
  simp [SetsIrq, h]

/-- A change of the Program that sets DIRTY. -/
theorem setsIrq_edit (p : Program) (s : State) : SetsIrq true false s (pend irqDirty { s with prog := p }) := rfl

theorem setsIrq_assignStep (k : BitVec 4) (s : State) : SetsIrq true false s (assignStep k s) := rfl

theorem setsIrq_fireStep (s : State) : SetsIrq false true s (fireStep s) := by
  rw [SetsIrq, fireStep_ifc]
  rfl

/-- A clearing command sets DIRTY, and STEP for the early advance it makes while Running (R216, R217). -/
theorem SetsIrq.advanceIf {s t : State} (running : Bool) (h : SetsIrq true false s t) :
    SetsIrq true running s (if running then earlyAdvance t else t) := by
  cases running with
  | true =>
    have hfire : (earlyAdvance t).ifc.irqPend = t.ifc.irqPend ||| irqBits false true := setsIrq_fireStep _
    rw [SetsIrq, if_pos rfl, hfire, h, BitVec.or_assoc]
    rfl
  | false => exact h

theorem setsIrq_liveKey (k : BitVec 4) (s : State) : SetsIrq false false s (liveKey k s) := by
  apply SetsIrq.of_eq
  unfold liveKey
  split
  · rfl
  · split <;> rfl

/-- A guard that refuses the command with an error of its own opcode, around a rule that sets the told bits. -/
theorem refused_or_setsIrq_guard {p : Prop} [Decidable p] {c : ErrCode} {i : Instr} {s t : State} {dirty step : Bool}
    (h : SetsIrq dirty step s t) : Refused i s (if p then raise c i.opc.code s else t)
      ∨ SetsIrq dirty step s (if p then raise c i.opc.code s else t) := by
  split
  · exact .inl ⟨c, rfl⟩
  · exact .inr h

/-- An accepted command is refused by its rule or sets DIRTY and STEP as R305 lists them. -/
theorem rule_refused_or_setsIrq (i : Instr) (s : State) :
    Refused i s (rule i s) ∨ SetsIrq (dirties i s) (fires i s) s (rule i s) := by
  cases i with
  | nop | noteOn | noteOff | seqOpen | seqExit | stop | toggleDual | cursorNext | cursorPrev | cursorSet | keyRelease
  | setVolume =>
    exact (rule_refused_or_frame _ s).imp_right fun hframe => .of_eq (hframe.irqPend (by simp [Instr.opc]))
  | setWave wave => exact refused_or_setsIrq_guard (setsIrq_edit _ s)
  | setTarget code =>
    simp only [rule]
    split
    · exact .inl ⟨_, rfl⟩
    · exact .inr (setsIrq_edit _ s)
    · exact .inr (setsIrq_edit _ s)
  | modUpdate delta => exact .inr (setsIrq_edit _ s)
  | setOctave shift => exact .inr (setsIrq_edit _ s)
  | run =>
    simp only [rule, runSeq]
    split
    · exact .inl ⟨_, rfl⟩
    · exact refused_or_setsIrq_guard (setsIrq_fireStep _)
  | assign key => exact refused_or_setsIrq_guard (setsIrq_assignStep key s)
  | clearStep => exact .inr ((setsIrq_edit _ s).advanceIf s.rt.running)
  | clearPattern => exact .inr ((setsIrq_edit _ s).advanceIf s.rt.running)
  | setTempo bpm =>
    simp only [rule]
    split
    · exact .inr (setsIrq_edit _ s)
    · exact .inl ⟨_, rfl⟩
  | setClock code =>
    simp only [rule]
    split
    · exact .inl ⟨_, rfl⟩
    · exact .inr (setsIrq_edit _ s)
  | keyPress key =>
    right
    simp only [rule, dirties]
    cases s.rt.dual with
    | true => exact setsIrq_liveKey key s
    | false => exact setsIrq_assignStep key s
  | encoder steps =>
    right
    simp only [rule, dirties]
    cases s.rt.dual with
    | true => exact setsIrq_edit _ s
    | false => exact .of_eq rfl

theorem exec_refused_or_setsIrq {i : Instr} {s t : State} (h : exec i s = .next t) :
    Refused i s t ∨ SetsIrq (dirties i s) (fires i s) s t := by
  rcases exec_next h with ⟨rfl, -⟩ | ⟨rfl, -⟩ | ⟨rfl, -⟩
  · exact .inl ⟨_, rfl⟩
  · exact .inl ⟨_, rfl⟩
  · exact rule_refused_or_setsIrq i s

theorem irqBits_getLsbD : ∀ dirty step : Bool, (irqBits dirty step).getLsbD 0 = dirty
    ∧ (irqBits dirty step).getLsbD 1 = step ∧ (irqBits dirty step).getLsbD 2 = false
    ∧ (irqBits dirty step).getLsbD 3 = false := by decide

/-- Each pending bit after it is set as told. -/
theorem SetsIrq.getLsbD {dirty step : Bool} {s t : State} (h : SetsIrq dirty step s t) :
    t.ifc.irqPend.getLsbD 0 = (s.ifc.irqPend.getLsbD 0 || dirty)
      ∧ t.ifc.irqPend.getLsbD 1 = (s.ifc.irqPend.getLsbD 1 || step)
      ∧ t.ifc.irqPend.getLsbD 2 = s.ifc.irqPend.getLsbD 2 ∧ t.ifc.irqPend.getLsbD 3 = s.ifc.irqPend.getLsbD 3 := by
  obtain ⟨h0, h1, h2, h3⟩ := irqBits_getLsbD dirty step
  rw [h]
  simp only [BitVec.getLsbD_or, h0, h1, h2, h3, Bool.or_false, and_self]

/-! ## The pending bits of an access (R283, R289) -/

/-- An error sets ERR and no other pending bit (R301). -/
theorem raise_irqPend_getLsbD (c : ErrCode) (opc : BitVec 8) (s : State) :
    (∀ b < 3, (raise c opc s).ifc.irqPend.getLsbD b = s.ifc.irqPend.getLsbD b)
      ∧ (raise c opc s).ifc.irqPend.getLsbD 3 = true := by
  constructor
  · intro b hb
    interval_cases b <;> simp [irqErr]
  · simp [irqErr]

theorem hostRead_irqPend (a : BitVec 8) (z : AccessSize) (s : State) : (hostRead a z s).ifc.irqPend =
    if accessed? a z = none then (raise .bus regOpc s).ifc.irqPend else s.ifc.irqPend := by
  cases h : accessed? a z with
  | none => rw [hostRead_unreached s h]; rfl
  | some r => rw [hostRead_reached s h]; rfl

/-- A write that reaches neither `CMD` nor `IRQ_PEND` is refused or leaves the pending bits, logging no error. -/
theorem hostWrite_refused_or_irqPend {a : BitVec 8} {z : AccessSize} {v : Word} {s t : State}
    (hcmd : ¬ (z = AccessSize.word ∧ a = 0x04)) (hirq : ¬ (z = AccessSize.word ∧ a = 0x10))
    (h : hostWrite a z v s = .next t) :
    (∃ c, t = raise c regOpc s) ∨ (t.ifc.irqPend = s.ifc.irqPend ∧ t.history = s.history) := by
  cases hr : accessed? a z with
  | none =>
    obtain rfl := Host.Outcome.next.inj ((hostWrite_unreached v s hr).symm.trans h)
    exact .inl ⟨.bus, rfl⟩
  | some r =>
    obtain ⟨hz, ha⟩ := accessed_eq_some hr
    have hncmd : r ≠ .cmd := by
      rintro rfl
      exact hcmd ⟨hz, BitVec.eq_of_toNat_eq ha⟩
    have hnirq : r ≠ .irqPend := by
      rintro rfl
      exact hirq ⟨hz, BitVec.eq_of_toNat_eq ha⟩
    obtain rfl := Host.Outcome.next.inj ((hostWrite_reached v s hr hncmd).symm.trans h)
    exact (writeReg_cases r v s).imp_right fun ⟨hhist, _, _, hpend⟩ => ⟨hpend hnirq, hhist⟩

/-! ## The pending bits of a tick (R305) -/

/-- `g` has the elements of `f` but for the port counters and the last request, with STEP set if told. -/
def SequencerIfc (step : Bool) (f g : Interface) : Prop := ∃ midi sync last plays, g =
  { f with
    midiCount := midi, syncCount := sync, playLast := last, playCount := plays,
    irqPend := f.irqPend ||| irqBits false step }

theorem SequencerIfc.refl (f : Interface) : SequencerIfc false f f :=
  ⟨f.midiCount, f.syncCount, f.playLast, f.playCount, by simp⟩

theorem SequencerIfc.setsIrq {step : Bool} {s t : State} (h : SequencerIfc step s.ifc t.ifc) :
    SetsIrq false step s t := by
  obtain ⟨_, _, _, _, hifc⟩ := h
  rw [SetsIrq, hifc]

theorem SequencerIfc.irqEn {step : Bool} {f g : Interface} (h : SequencerIfc step f g) : g.irqEn = f.irqEn := by
  obtain ⟨_, _, _, _, rfl⟩ := h
  rfl

theorem sequencerIfc_fireStep (s : State) : SequencerIfc true s.ifc (fireStep s).ifc :=
  ⟨_, _, _, _, fireStep_ifc s⟩

theorem sequencerIfc_pulseEvent (s : State) : SequencerIfc false s.ifc (pulseEvent s).ifc := by
  rw [pulseEvent_ifc]
  split
  · exact ⟨s.ifc.midiCount + 1, s.ifc.syncCount, s.ifc.playLast, s.ifc.playCount, by simp⟩
  · exact .refl _

/-- The clock fires a step event at the sixth pulse of a step (R234). -/
theorem sequencerIfc_clockAccumulate (s : State) :
    SequencerIfc (decide (s.rt.pulse = 5 ∧ s.rt.clkAcc.toNat + s.prog.tempo.toNat ≥ 2500000)) s.ifc
      (clockAccumulate s).ifc := by
  rw [clockAccumulate_eq]
  split
  · next hlt =>
    rw [decide_eq_false fun h => absurd hlt (Nat.not_lt.mpr h.2)]
    exact .refl _
  · next hge =>
    split
    · next hp =>
      rw [decide_eq_true ⟨hp, Nat.not_lt.mp hge⟩]
      exact sequencerIfc_fireStep _
    · next hp =>
      rw [decide_eq_false fun h => hp h.1]
      exact sequencerIfc_pulseEvent _

/-- The timebase tick of a Running sequencer is its clock's; any other leaves the interface (R230). -/
theorem sequencerIfc_timebaseTick (s : State) :
    SequencerIfc (decide (s.rt.view = true ∧ s.rt.running = true ∧ s.rt.pulse = 5
      ∧ s.rt.clkAcc.toNat + s.prog.tempo.toNat ≥ 2500000)) s.ifc (timebaseTick s).ifc := by
  cases hv : s.rt.view with
  | false => rw [timebaseTick_closed hv]; exact .refl _
  | true =>
    rw [timebaseTick_open hv, guardCountdown_ifc]
    cases s.rt.running with
    | false => cases s.rt.dual <;> simpa using SequencerIfc.refl s.ifc
    | true => simpa using sequencerIfc_clockAccumulate (syncCountdown s)

/-- The audio tick sets JOIN on a drain tick (41_voice.md R161). -/
theorem audioTick_irqPend (s : State) : (audioTick s).ifc.irqPend =
    if s.voice.busy = true ∧ s.voice.active = false then s.ifc.irqPend ||| irqJoin else s.ifc.irqPend := by
  unfold audioTick
  split
  · rfl
  · split <;> rfl

/-- Settles O42: a refused operation sets ERR alone; each accepted one sets the bits of its closed form. -/
theorem irqPendSources : Obligations.IrqPendSources := by
  refine ⟨fun i s t h => ?_, fun a z s => ?_, fun a z v s t hcmd h => ?_, fun s => ⟨?_, audioTick_irqPend s⟩⟩
  · by_cases href : Refused i s t
    · obtain ⟨c, rfl⟩ := id href
      obtain ⟨hkeep, herr⟩ := raise_irqPend_getLsbD c i.opc.code s
      simp only [href, herr, hkeep 0 (by decide), hkeep 1 (by decide), hkeep 2 (by decide), not_true, and_false,
        or_false, or_true, and_self]
    · obtain ⟨h0, h1, h2, h3⟩ := ((exec_refused_or_setsIrq h).resolve_left href).getLsbD
      simp only [h0, h1, h2, h3, href, not_false_iff, and_true, or_false, Bool.or_eq_true, and_self]
  · rw [hostRead_irqPend, ← accessed_eq_none_iff]
    obtain ⟨hkeep, herr⟩ := raise_irqPend_getLsbD .bus regOpc s
    split
    · next hnone => exact ⟨hkeep, by simp only [herr, hnone, or_true]⟩
    · next hsome => exact ⟨fun _ _ => rfl, by simp only [hsome, or_false]⟩
  · by_cases hirq : z = .bytes 0b1111 ∧ a = 0x10
    · obtain ⟨rfl, rfl⟩ := hirq
      obtain rfl := Host.Outcome.next.inj h
      have hclear (b : Nat) (hb : b < 4) := getLsbD_and_not_extract s.ifc.irqPend v hb
      have haccepted : ¬ ∃ c, writeReg .irqPend v s = raise c regOpc s := ne_raise_of_history rfl
      refine ⟨fun b hb => (hclear b (by omega)).trans (by simp), (Bool.eq_iff_iff.mp (hclear 3 (by decide))).trans ?_⟩
      exact .trans (by simp) (or_iff_left haccepted).symm
    · have hnot (p : Prop) : ¬ (z = .bytes 0b1111 ∧ a = 0x10 ∧ p) := fun ⟨hz, ha, _⟩ => hirq ⟨hz, ha⟩
      simp only [hnot, decide_false, Bool.not_false, Bool.and_true, not_false_iff, and_true]
      rcases hostWrite_refused_or_irqPend hcmd hirq h with ⟨c, rfl⟩ | ⟨hpend, hhist⟩
      · obtain ⟨hkeep, herr⟩ := raise_irqPend_getLsbD c regOpc s
        exact ⟨hkeep, iff_of_true herr (.inr ⟨c, rfl⟩)⟩
      · rw [hpend]
        exact ⟨fun _ _ => rfl, (or_iff_left (ne_raise_of_history hhist)).symm⟩
  · obtain ⟨h0, h1, h2, h3⟩ := (sequencerIfc_timebaseTick s).setsIrq.getLsbD
    exact ⟨h0.trans (Bool.or_false _), h2, h3, by rw [h1, Bool.or_eq_true, decide_eq_true_iff]⟩

end Sys2Proof.Machine
end

section
/-! PROOFS (host misc, 44_host_misc.md). What a read answers after an accepted register write, and that the value stays
until the register or `CMD` is written (R293). -/

namespace Sys2Proof.Machine

/-! ## The value read back -/

/-- The low `n` bits of a word are the word masked to them. -/
theorem extract_setWidth_eq_and {n : Nat} (hn : n ≤ 32) (v : Word) :
    (v.extractLsb' 0 n).setWidth 32 = v &&& BitVec.ofNat 32 (2 ^ n - 1) := by
  have hmask : 2 ^ n - 1 < 2 ^ 32 := by
    have hle : 2 ^ n ≤ 2 ^ 32 := Nat.pow_le_pow_right (by decide) hn
    omega
  apply BitVec.eq_of_toNat_eq
  rw [BitVec.toNat_setWidth_of_le hn, BitVec.extractLsb'_toNat, BitVec.toNat_and, BitVec.toNat_ofNat,
    Nat.mod_eq_of_lt hmask, Nat.and_two_pow_sub_one_eq_mod, Nat.shiftRight_zero]

/-- `SEQ[i]` shows the slot that a written word makes (R39). -/
theorem slotWord_slotOf (v : Word) : slotWord (slotOf (v.getLsbD 8) (v.extractLsb' 0 8)) =
    if v.getLsbD 8 = true then v &&& 0x000001FF else 0 := by
  cases hvalid : v.getLsbD 8 with
  | false => simp [slotOf, slotWord, Slot.empty]
  | true =>
    apply BitVec.eq_of_getLsbD_eq
    intro i hi
    simp only [slotOf, slotWord, if_true, BitVec.getLsbD_append, BitVec.getLsbD_extractLsb', BitVec.getLsbD_and]
    interval_cases i <;> simp [hvalid]

/-- `PROG_CFG` shows the six fields of the word they were taken from (R37). -/
theorem progCfgWord_setCfg {v : Word} {clock : ClockMode} {target : Target} (p : Program)
    (hclock : clock.code = v.extractLsb' 18 2) (htarget : target.code = v.extractLsb' 20 3) :
    progCfgWord (p.setCfg v clock target) = v &&& 0x077FFFFF := by
  simp only [progCfgWord, Program.setCfg, Wave.code_ofCode, hclock, htarget]
  apply BitVec.eq_of_getLsbD_eq
  intro i hi
  simp only [BitVec.getLsbD_append, BitVec.getLsbD_extractLsb', BitVec.getLsbD_and]
  interval_cases i <;> simp

/-- A `PROG_CFG` write that logs no error is read back (R284, R293). -/
theorem readReg_writeProgCfg {v : Word} {s : State} (h : (writeProgCfg v s).history = s.history) :
    readReg .progCfg (writeProgCfg v s) = v &&& 0x077FFFFF := by
  obtain ⟨clock, target, hclock, htarget, heq⟩ := (writeProgCfg_cases v s).resolve_left (ne_raise_of_history h)
  rw [heq]
  exact progCfgWord_setCfg s.prog hclock htarget

/-! ## The value kept -/

/-- The registers that hold what the host wrote: the Program's and `IRQ_EN`. -/
def Reg.Stored (r : Reg) : Prop :=
  r = .progCfg ∨ r = .progModval ∨ r = .irqEn ∨ (∃ i, r = .seq i) ∨ ∃ k, r = .keyFreq k

/-- They show the Program and the interrupt enables only. -/
theorem Reg.Stored.readReg_congr {r : Reg} (hr : r.Stored) {s t : State} (hprog : t.prog = s.prog)
    (hen : t.ifc.irqEn = s.ifc.irqEn) : readReg r t = readReg r s := by
  obtain rfl | rfl | rfl | ⟨i, rfl⟩ | ⟨k, rfl⟩ := hr <;> simp only [readReg, hprog, hen]

/-- A write of one register changes the value of no other (R283). -/
theorem Reg.Stored.readReg_writeReg_of_ne {r r' : Reg} (hr : r.Stored) (hne : r' ≠ r) (v : Word) (s : State) :
    readReg r (writeReg r' v s) = readReg r s := by
  cases r' with
  | err =>
    simp only [writeReg, writeErr]
    split <;> exact hr.readReg_congr rfl rfl
  | progCfg =>
    rw [writeReg]
    rcases writeProgCfg_cases v s with ⟨c, heq⟩ | ⟨clock, target, -, -, heq⟩
    · rw [heq]
      exact hr.readReg_congr rfl rfl
    · rw [heq]
      obtain rfl | rfl | rfl | ⟨i, rfl⟩ | ⟨k, rfl⟩ := hr
      exacts [absurd rfl hne, rfl, rfl, rfl, rfl]
  | progModval =>
    obtain rfl | rfl | rfl | ⟨i, rfl⟩ | ⟨k, rfl⟩ := hr
    exacts [rfl, absurd rfl hne, rfl, rfl, rfl]
  | irqEn =>
    obtain rfl | rfl | rfl | ⟨i, rfl⟩ | ⟨k, rfl⟩ := hr
    exacts [rfl, rfl, absurd rfl hne, rfl, rfl]
  | seq j =>
    obtain rfl | rfl | rfl | ⟨i, rfl⟩ | ⟨k, rfl⟩ := hr
    exacts [rfl, rfl, rfl, congrArg slotWord ((setSlot_slot _ _ _ _).trans (if_neg fun h => hne (by rw [h]))), rfl]
  | keyFreq j =>
    obtain rfl | rfl | rfl | ⟨i, rfl⟩ | ⟨k, rfl⟩ := hr
    exacts [rfl, rfl, rfl, rfl,
      congrArg (BitVec.setWidth 32) ((setKeyFreq_keyFreq _ _ _ _).trans (if_neg fun h => hne (by rw [h])))]
  | _ => exact hr.readReg_congr rfl rfl

/-- A host access that writes neither `CMD` nor the register keeps its value. -/
theorem Reg.Stored.readReg_hostAccess {r : Reg} (hr : r.Stored) {a : Option Access} {s t : State}
    (h : hostAccess a s = .next t)
    (hother : ∀ off z x, a = some (.write off z x) → off.toNat ≠ 0x04 ∧ off.toNat ≠ r.offset) :
    readReg r t = readReg r s := by
  match a with
  | none =>
    obtain rfl := Host.Outcome.next.inj h
    rfl
  | some (.read off z) =>
    obtain rfl := Host.Outcome.next.inj h
    refine hr.readReg_congr ?_ ?_ <;> (unfold hostRead; split <;> rfl)
  | some (.write off z v) =>
    obtain ⟨hcmd, hself⟩ := hother off z v rfl
    simp only [hostAccess] at h
    cases hreached : accessed? off z with
    | none =>
      obtain rfl := Host.Outcome.next.inj ((hostWrite_unreached v s hreached).symm.trans h)
      exact hr.readReg_congr rfl rfl
    | some r' =>
      obtain ⟨-, hoff⟩ := accessed_eq_some hreached
      have hncmd : r' ≠ .cmd := by rintro rfl; exact hcmd hoff
      have hne : r' ≠ r := by rintro rfl; exact hself hoff
      obtain rfl := Host.Outcome.next.inj ((hostWrite_reached v s hreached hncmd).symm.trans h)
      exact hr.readReg_writeReg_of_ne hne v s

theorem timebasePhase_irqEn (s : State) : (timebasePhase s).ifc.irqEn = s.ifc.irqEn := by
  unfold timebasePhase
  split
  · exact (sequencerIfc_timebaseTick s).irqEn
  · rfl

theorem audioPhase_irqEn (s : State) : (audioPhase s).ifc.irqEn = s.ifc.irqEn := by
  unfold audioPhase
  split
  · unfold audioTick
    split
    · rfl
    · split <;> rfl
  · rfl

/-- A cycle with RST low that writes neither `CMD` nor the register keeps its value (R293). -/
theorem Reg.Stored.readReg_step {r : Reg} (hr : r.Stored) {s t : State} (hrst : (nextInput s).rst = false)
    (hother : ∀ a z x, (nextInput s).access = some (.write a z x) → a.toNat ≠ 0x04 ∧ a.toNat ≠ r.offset)
    (h : step s = .next t) : readReg r t = readReg r s := by
  obtain ⟨u, hu, hstep⟩ := step_noRst hrst
  obtain rfl := Host.Outcome.next.inj (hstep.symm.trans h)
  calc readReg r (endCycle (grid s) (audioPhase (timebasePhase u)))
      = readReg r u := hr.readReg_congr (by simp) (by rw [endCycle_ifc, audioPhase_irqEn, timebasePhase_irqEn])
    _ = readReg r (beginCycle s) := hr.readReg_hostAccess hu hother
    _ = readReg r s := hr.readReg_congr rfl rfl

/-- Settles O51: the stored word of each register, and the cycles that keep it. -/
theorem readBackLaw : Obligations.ReadBackLaw := by
  intro v s t
  refine ⟨fun h hhist => ?_, fun h => ?_, fun h => ?_, fun i h => ?_, fun k h => ?_,
    fun _ hr hrst hother h => Reg.Stored.readReg_step hr hrst hother h⟩
  · obtain rfl := Host.Outcome.next.inj h
    exact readReg_writeProgCfg hhist
  · obtain rfl := Host.Outcome.next.inj h
    exact extract_setWidth_eq_and (n := 16) (by decide) v
  · obtain rfl := Host.Outcome.next.inj h
    exact extract_setWidth_eq_and (n := 4) (by decide) v
  · obtain rfl := Host.Outcome.next.inj ((hostWrite_offset (r := .seq i) nofun v s).symm.trans h)
    exact (congrArg slotWord (setSlot_slot_same _ _ _)).trans (slotWord_slotOf v)
  · obtain rfl := Host.Outcome.next.inj ((hostWrite_offset (r := .keyFreq k) nofun v s).symm.trans h)
    exact (congrArg (BitVec.setWidth 32) (setKeyFreq_keyFreq_same _ _ _)).trans
      (extract_setWidth_eq_and (n := 24) (by decide) v)

end Sys2Proof.Machine
end

section
/-! PROOFS (exceptions, 60_exceptions.md). The error record bit by bit (R301), and that no error stops the block
(R300). -/

namespace Sys2Proof.Machine

/-! ## The error record (R301) -/

/-- The sticky bit of an error is bit `code - 1` and no other (R301). -/
theorem ErrCode.sticky_getLsbD (c : ErrCode) {j : Nat} (hj : j < 6) :
    c.sticky.getLsbD j = decide (j + 1 = c.code.toNat) := by
  revert j
  cases c <;> decide

/-- `IRQ_PEND.ERR` is bit 3 and no other. -/
theorem irqErr_getLsbD {j : Nat} (hj : j < 4) : irqErr.getLsbD j = decide (j = 3) := by
  revert j
  decide

/-- Settles O7: `raise` joins the sticky bit to `ERR` and the ERR bit to `IRQ_PEND`, and logs the event. -/
theorem raiseRecordsError : Obligations.RaiseRecordsError := by
  refine ⟨rfl, fun c opc s => ⟨s.ifc.err ||| c.sticky, s.ifc.irqPend ||| irqErr, rfl, fun j hj => ?_, fun j hj => ?_⟩⟩
  · rw [BitVec.getLsbD_or, c.sticky_getLsbD hj]
  · rw [BitVec.getLsbD_or, irqErr_getLsbD hj]

/-! ## No error stops the block (R300, R375) -/

/-- Every command answers a next state: its own rule's, or the refusal of R103. -/
theorem exec_total (i : Instr) (s : State) : ∃ t, exec i s = .next t :=
  ⟨_, (exec_eq_accept i s).trans (accept_eq i.opc s (rule i s))⟩

/-- Every cycle answers a next state, with RST low (R15) or high (R350). -/
theorem step_total (s : State) : ∃ t, step s = .next t := by
  cases hrst : (nextInput s).rst with
  | false =>
    obtain ⟨t, -, hstep⟩ := step_noRst hrst
    exact ⟨_, hstep⟩
  | true => exact ⟨_, step_rst hrst⟩

/-- Settles O12: a command ends in its rule or a refusal, a cycle in its ticks or the reset. -/
theorem stepAlwaysContinues : Obligations.StepAlwaysContinues :=
  ⟨exec_total, step_total⟩

end Sys2Proof.Machine
end

section
/-! PROOFS (reset, 70_reset_and_hazards.md). What the registers, the Program and the pins show right after reset (R352),
and a cycle with RST high (R350, R351). -/

namespace Sys2Proof.Machine

open Sys2Proof.Safety

/-! ## The reset values (R352) -/

/-- Every step of the reset Program is empty. -/
@[simp] theorem reset_slot (i : BitVec 4) : Program.reset.slot i = Slot.empty := Vector.getElem_replicate _

/-- Every key frequency of the reset Program is 0. -/
@[simp] theorem reset_keyFreq (k : BitVec 4) : Program.reset.keyFreq k = 0 := Vector.getElem_replicate _

/-- A closed view shows an empty display grid (R240). -/
theorem grid_of_closed {s : State} (h : s.rt.view = false) : grid s = 0 := by
  have hcell (i : BitVec 4) : cell s i = false := by rw [cell, h, Bool.false_and]
  simp [grid, cellBit, hcell]

/-- A closed view holds the sync line low (R238). -/
theorem syncOut_of_closed {s : State} (h : s.rt.view = false) : syncOut s = false := by
  simp [syncOut, h]

/-- With no bit pending the interrupt line is low, whatever is enabled (R306). -/
theorem irqLine_of_not_pending {s : State} (h : s.ifc.irqPend = 0) : irqLine s = false := by
  simp [irqLine, h]

/-- A register other than `ID`, `STATUS` and `PROG_CFG` reads 0 after reset. -/
theorem readReg_reset {r : Reg} (hid : r ≠ .id) (hstatus : r ≠ .status) (hcfg : r ≠ .progCfg) :
    readReg r State.reset = 0 := by
  cases r with
  | id => exact absurd rfl hid
  | status => exact absurd rfl hstatus
  | progCfg => exact absurd rfl hcfg
  | seq i => exact congrArg slotWord (reset_slot i)
  | keyFreq k => exact congrArg (BitVec.setWidth 32) (reset_keyFreq k)
  | display => exact congrArg (BitVec.setWidth 32) (grid_of_closed (s := State.reset) rfl)
  | cmd | err | irqPend | irqEn | progModval | vFreq | vAcc | vInc | vElapsed | pwmDuty | playLast | playCount
  | midiCount | syncCount | seqTimer | blinkCnt | syncCnt | pulseIdx | dualGuard => rfl

/-- Settles O13: the three registers that do not read 0 are literal words, every other one reads a zero element. -/
theorem resetRegisters : Obligations.ResetRegisters :=
  ⟨rfl, by decide, by decide, fun _ => readReg_reset, rfl, rfl, rfl, rfl, rfl, rfl, rfl, rfl, rfl, rfl, rfl,
    reset_slot, reset_keyFreq⟩

/-! ## A cycle with RST high (R350, R351) -/

/-- A cycle with RST high emits no event: the history it keeps is one of earlier cycles. -/
theorem cycleEvents_resetCycle {s : State} (h : HistoryOk s) (a : Option Access) :
    cycleEvents (resetCycle a (beginCycle s)) = [] :=
  cycleEvents_of_grows (new := []) h rfl rfl (List.forall_mem_nil _)

/-- The pins of a block with a silent voice, a closed view and nothing pending, in a cycle without events. -/
theorem pins_of_quiet {s : State} (hduty : s.voice.duty = 0) (hview : s.rt.view = false) (hpend : s.ifc.irqPend = 0)
    (hev : cycleEvents s = []) : pins s =
      { duty := 0, dutyStb := false, playback := [], midi := [], syncOut := false, disp := 0, irq := false } := by
  simp only [pins, hduty, hev, syncOut_of_closed hview, grid_of_closed hview, irqLine_of_not_pending hpend,
    List.any_nil, List.filterMap_nil]

/-- Settles O14: the cycle is the reset cycle, whose elements are the reset values, and reset values without events
drive no pin. -/
theorem resetCycleClearsEverything : Obligations.ResetCycleClearsEverything := by
  intro s hs hrst
  refine ⟨_, step_rst hrst, rfl, rfl, rfl, rfl, rfl, rfl, rfl, fun a z hread => ?_, fun a z v hwrite => ?_,
    pins_of_quiet rfl rfl rfl (cycleEvents_resetCycle hs _)⟩
  · rw [hread]
    rfl
  · rw [hwrite]
    rfl

end Sys2Proof.Machine
end
